-- ==== Sys2Proof/Word.lean ====
section
/-!
DEFINITION. The word, byte and bit-vector types of JTSEQ (spec/00_scope.md R11, R15).
-/
namespace Sys2Proof

/-- A 32-bit word: an address, a data word or a command word (R11, R80). -/
abbrev Word := BitVec 32

/-- One byte of the emulation buffer (R31). -/
abbrev Byte := BitVec 8

/-- A bit vector whose length is part of its value (R15, R28). Entry `j` of the list is bit `j`,
so bit 0, the least significant, is the head; the empty list is the vector of length 0. -/
abbrev Bits := List Bool

end Sys2Proof
end

