-- ==== Sys2Proof/Config.lean ====
section
/-!
DEFINITION. The construction parameters of a JTSEQ instance (spec/00_scope.md R10), the check that
they are admissible, and the free values of the pin layer (spec/10_state.md R25).
-/
namespace Sys2Proof

/-- `BACKEND` (R10): a real pin layer and target, or a memory buffer behind the AXI commands. -/
inductive Backend where
  | hw
  | emul
  deriving DecidableEq, Repr

/-- `BIT_ORDER` (R10, R58): which end of a vector a scan presents first. -/
inductive BitOrder where
  | lsbFirst
  | msbFirst
  deriving DecidableEq, Repr

/-- `ADDR_PHASE_FORM` (R10, R150). -/
inductive AddrPhaseForm where
  | byte
  | word
  deriving DecidableEq, Repr

/-- `BYTE_ORDER` (R10, R55). -/
inductive ByteOrder where
  | le
  | be
  deriving DecidableEq, Repr

/-- `LOCK_WAIT` (R10, R221). -/
inductive LockWait where
  | unbounded
  | bounded
  deriving DecidableEq, Repr

/-- The parameters of R10, "fixed when the block is constructed": no command reads or writes one as
data (R35). `EMUL_LEN` is the length of `emulInit`. -/
structure Config where
  backend : Backend
  bitOrder : BitOrder
  resetTcks : Nat
  maxShiftBits : Nat
  irLen : Nat
  irAxiWrite : Bits
  irAxiRead : Bits
  irAxiReadData : Option Bits
  /-- `IR_CAPTURE_CHECK`: none, or (`expect`, `mask`). -/
  irCaptureCheck : Option (Bits × Bits)
  addrPhaseForm : AddrPhaseForm
  axiWrDrLen : Nat
  axiWrDataLsb : Nat
  axiWrAddrLsb : Nat
  axiRdDrLen : Nat
  axiRdAddrLsb : Nat
  axiRdDataLsb : Nat
  readWaitTcks : Nat
  writeWaitTcks : Nat
  byteOrder : ByteOrder
  emulInit : List Byte
  lockWait : LockWait
  /-- `TRST_WIRED`: no rule depends on it (R27). -/
  trstWired : Bool
  deriving DecidableEq, Repr

namespace Config

/-- `EMUL_LEN` (R10, R31). -/
def emulLen (c : Config) : Nat := c.emulInit.length

/-- The longest vector the shift register holds (R21). -/
def shiftRegBits (c : Config) : Nat :=
  max (max c.maxShiftBits c.irLen) (max c.axiWrDrLen c.axiRdDrLen)

/-- The domains of the sequencer's parameters (R10). -/
def sequencerOk (c : Config) : Bool :=
  5 ≤ c.resetTcks && 1 ≤ c.maxShiftBits && c.maxShiftBits ≤ 255

/-- The domains of the instruction codes (R10): `IR_LEN`-bit vectors. -/
def codesOk (c : Config) : Bool :=
  1 ≤ c.irLen && c.irLen ≤ 255 && c.irAxiWrite.length == c.irLen && c.irAxiRead.length == c.irLen &&
    (match c.irAxiReadData with
      | none => true
      | some d => d.length == c.irLen)

/-- The capture check's vectors (R10): `IR_LEN` bits each, and `expect & ~mask = 0`. -/
def captureCheckOk (c : Config) : Bool :=
  match c.irCaptureCheck with
  | none => true
  | some (expect, mask) =>
    expect.length == c.irLen && mask.length == c.irLen &&
      (List.zipWith (fun e m => e && !m) expect mask).all (fun b => !b)

/-- The payload constraints (R10): every field inside its register, and the write payload's two
fields disjoint. -/
def payloadsOk (c : Config) : Bool :=
  32 ≤ c.axiWrDrLen && c.axiWrDrLen ≤ 255 && 32 ≤ c.axiRdDrLen && c.axiRdDrLen ≤ 255 &&
    c.axiWrDataLsb + 32 ≤ c.axiWrDrLen && c.axiWrAddrLsb + 32 ≤ c.axiWrDrLen &&
    (c.axiWrDataLsb + 32 ≤ c.axiWrAddrLsb || c.axiWrAddrLsb + 32 ≤ c.axiWrDataLsb) &&
    c.axiRdAddrLsb + 32 ≤ c.axiRdDrLen && c.axiRdDataLsb + 32 ≤ c.axiRdDrLen

/-- Only an `EMUL` instance has a buffer (R31). -/
def bufferOk (c : Config) : Bool :=
  match c.backend with
  | .hw => c.emulInit.isEmpty
  | .emul => true

/-- "A model must refuse to construct an instance that breaks a constraint" (R10). -/
def valid (c : Config) : Bool :=
  c.sequencerOk && c.codesOk && c.captureCheckOk && c.payloadsOk && c.bufferOk

/-- The spec's defaults, and for the OPEN parameters the spec's example values (R10, parameter set EX
of spec/95_test_vectors.md). DESIGN CHOICE, unsafe: the OPEN values stand for no chip
(notes/assumptions/1.md); statements quantify over every valid `Config`. -/
def default : Config where
  backend := .hw
  bitOrder := .lsbFirst
  resetTcks := 5
  maxShiftBits := 64
  irLen := 8
  irAxiWrite := [true, false, false, false, false, false, false, false]
  irAxiRead := [false, true, false, false, false, false, false, false]
  irAxiReadData := none
  irCaptureCheck := none
  addrPhaseForm := .byte
  axiWrDrLen := 64
  axiWrDataLsb := 0
  axiWrAddrLsb := 32
  axiRdDrLen := 32
  axiRdAddrLsb := 0
  axiRdDataLsb := 0
  readWaitTcks := 0
  writeWaitTcks := 0
  byteOrder := .le
  emulInit := []
  lockWait := .unbounded
  trstWired := false

/-- Free value: `pins_ready` of the command that draws its answers as number `n`, where the state lists
no answers for it (R25, U20). DESIGN CHOICE, safe: nothing constrains it (notes/assumptions/2.md). -/
opaque freeReady (n : Nat) : Bool

/-- Free value: `ok_k` of the command numbered `n` (R25, U20), as `freeReady`. -/
opaque freeOk (n k : Nat) : Bool

/-- Free value: `tdo_k` of the command numbered `n` (R25, U10), as `freeReady`; also past the end of a
command's listed levels. -/
opaque freeTdo (n k : Nat) : Bool

end Config

end Sys2Proof
end

