-- ==== Sys2Proof/Machine/Operands.lean ====
section
/-!
DEFINITION. Operand forms: how a bit vector is laid out in words (spec/30_encoding.md R83, R92), the
address phase and the bridge's payloads (spec/42_axi_bridge.md R150 to R152), and how a word meets the
bytes of the emulation buffer (spec/20_memory.md R55).
-/
namespace Sys2Proof

/-- Bit `j` of a vector; a bit the vector does not have is 0. -/
def Bits.bit (v : Bits) (j : Nat) : Bool := v.getD j false

/-- The `n`-bit zero vector `0^n` (R15). -/
def Bits.zero (n : Nat) : Bits := List.replicate n false

/-- The vector with bit `j` replaced. -/
def Bits.setBit (v : Bits) (j : Nat) (b : Bool) : Bits := v.set j b

/-- Bitwise `&` of two vectors of one length (R15). -/
def Bits.and (a b : Bits) : Bits := List.zipWith (fun x y => x && y) a b

/-- The unsigned number whose bit `j` is bit `j` of the vector (R15). -/
def Bits.toNat (v : Bits) : Nat := v.foldr (fun b acc => 2 * acc + b.toNat) 0

/-- An `n`-bit vector written as a number (R15). -/
def Bits.ofNat (n x : Nat) : Bits := (List.range n).map x.testBit

/-- The 32 bits of a word. -/
def Bits.ofWord (w : Word) : Bits := (List.range 32).map w.getLsbD

/-- Up to 32 bits as a word, the missing high bits 0. -/
def Bits.toWord (v : Bits) : Word := BitVec.ofNat 32 v.toNat

/-- The slice `v[lo+31 : lo]` (R15). -/
def Bits.wordAt (v : Bits) (lo : Nat) : Word := Bits.toWord ((List.range 32).map fun i => v.bit (lo + i))

/-- How many words carry an `n`-bit vector: `ceil(n/32)` (R83). -/
def vectorWords (n : Nat) : Nat := (n + 31) / 32

/-- The words that carry a vector: bit `j` is bit `j mod 32` of word `floor(j/32)`, the unused high bits
of the last word 0 (R83, R92). -/
def Bits.toWords (v : Bits) : List Word :=
  (List.range (vectorWords v.length)).map fun k => Bits.toWord ((v.drop (32 * k)).take 32)

/-- The `n`-bit vector that words carry (R83). -/
def Bits.ofWords (n : Nat) (ws : List Word) : Bits :=
  (List.range n).map fun j => (ws.getD (j / 32) 0).getLsbD (j % 32)

/-- Whether bits at or above `n` of the last operand word are all 0 (R83, R87). -/
def spareBitsClear (n : Nat) (ws : List Word) : Bool :=
  n % 32 == 0 || (ws.getD (n / 32) 0) >>> (n % 32) == 0

/-- The word-address-to-address-phase translator `AddrPhase` (R150). -/
def addrPhase (form : AddrPhaseForm) (addr : Word) : Word :=
  match form with
  | .byte => addr
  | .word => addr >>> 2

/-- Whether `addr[1:0] = 0` (R57). -/
def aligned (addr : Word) : Bool := addr.extractLsb' 0 2 == 0

/-- Bit `j` of a 32-bit field whose bit 0 stands at `lsb`; 0 outside the field. -/
def fieldBit (lsb : Nat) (w : Word) (j : Nat) : Bool := lsb ≤ j && j < lsb + 32 && w.getLsbD (j - lsb)

/-- The write payload `WrPayload(addr, word)`: the address phase and the word in their fields, every
other bit 0 (R151). -/
def wrPayload (c : Config) (addr word : Word) : Bits :=
  (List.range c.axiWrDrLen).map fun j =>
    fieldBit c.axiWrAddrLsb (addrPhase c.addrPhaseForm addr) j || fieldBit c.axiWrDataLsb word j

/-- The read payload `RdPayload(addr)`: the address phase in its field, every other bit 0 (R152). -/
def rdPayload (c : Config) (addr : Word) : Bits :=
  (List.range c.axiRdDrLen).map fun j => fieldBit c.axiRdAddrLsb (addrPhase c.addrPhaseForm addr) j

/-- The result `RdWord(r)` of a retrieve capture (R152). -/
def rdWord (c : Config) (r : Bits) : Word := r.wordAt c.axiRdDataLsb

/-- Byte `k` of a word at its word address, for `k` in 0..3 (R55). -/
def wordByte (order : ByteOrder) (w : Word) (k : Nat) : Byte :=
  match order with
  | .le => w.extractLsb' (8 * k) 8
  | .be => w.extractLsb' (24 - 8 * k) 8

/-- The word whose bytes, at rising addresses, are the four given (R55). -/
def wordOfBytes (order : ByteOrder) (b0 b1 b2 b3 : Byte) : Word :=
  match order with
  | .le => b3 ++ b2 ++ b1 ++ b0
  | .be => b0 ++ b1 ++ b2 ++ b3

end Sys2Proof
end

