-- ==== Sys2Proof/Machine/State.lean ====
section
/-!
DEFINITION. The state of one JTSEQ instance (spec/10_state.md), the values the world presents to it, the
ways a step can stop, and the state after power-on (R40).
-/
namespace Sys2Proof.Machine

/-- The sixteen TAP states, in the order of R110. -/
inductive TapState where
  | testLogicReset
  | runTestIdle
  | selectDrScan
  | captureDr
  | shiftDr
  | exit1Dr
  | pauseDr
  | exit2Dr
  | updateDr
  | selectIrScan
  | captureIr
  | shiftIr
  | exit1Ir
  | pauseIr
  | exit2Ir
  | updateIr
  deriving DecidableEq, Repr

/-- The mirrored TAP state `s.tap` (R22): a TAP state, or "the block does not know". -/
inductive Mirror where
  | unknown
  | known (t : TapState)
  deriving DecidableEq, Repr

/-- The level JTSEQ drives on an output line (R24); `z` is tri-stated. -/
inductive Level where
  | low
  | high
  | z
  deriving DecidableEq, Repr

/-- The output lines (R24). TDO is an input and the hard-reset line is never driven (R27). -/
inductive Line where
  | tck
  | tms
  | tdi
  deriving DecidableEq, Repr

/-- The pin primitives (R17, R26). -/
inductive PinPrim where
  /-- `PinSet(line, b)`. -/
  | set (line : Line) (b : Bool)
  /-- `PinRead(TDO)`. -/
  | readTdo
  /-- `PinToggle(TCK)`. -/
  | toggle
  /-- `PinRelease(line)`. -/
  | releaseLine (line : Line)
  deriving DecidableEq, Repr

/-- A pin primitive that was performed, and whether it succeeded. -/
structure PinEvent where
  prim : PinPrim
  ok : Bool
  deriving DecidableEq, Repr

/-- The pin layer's answers to one command (R25). Primitives and reads are counted from 1, as in R25. -/
structure PinAnswers where
  /-- `pins_ready`. -/
  ready : Bool
  /-- The `k` for which `ok_k` is a failure. -/
  failing : List Nat
  /-- `tdo_1`, `tdo_2`, and so on; past its end the level is a free value of Config. -/
  tdo : List Bool
  deriving DecidableEq, Repr

/-- The status names of R91. The block never produces `busy` (R201). -/
inductive Status where
  | ok
  | deviceNotReady
  | protocolError
  | ioError
  | busy
  | illegalCommand
  | alignmentError
  deriving DecidableEq, Repr

/-- The data of a response (R29, R92). -/
inductive RespData where
  | none
  /-- The capture of a SHIFT. -/
  | capture (r : Bits)
  /-- The word of an AXI_READ. -/
  | word (w : Word)
  deriving DecidableEq, Repr

/-- The response record (R29). -/
structure Response where
  status : Status
  data : RespData
  deriving DecidableEq, Repr

/-- The identity of a host agent (R30). -/
abbrev HostId := Nat

/-- What a host does at the host interface (R221, R222). -/
inductive HostAction where
  /-- `acquire(h)`. `givesUp` is the draw of R221: whether, with a bounded wait, the acquire ends with
  `Busy` when it finds the lock held (notes/assumptions/4.md). -/
  | acquire (h : HostId) (givesUp : Bool)
  /-- `release(h)` of the lock. -/
  | release (h : HostId)
  /-- Host `h` presents command words (R80, R220). -/
  | present (h : HostId) (words : List Word)
  deriving DecidableEq, Repr

/-- The host whose action it is. -/
def HostAction.host : HostAction → HostId
  | .acquire h _ => h
  | .release h => h
  | .present h _ => h

/-- How a lock request ended, for its host (R203, R221). -/
inductive LockAnswer where
  | granted
  | busy
  | released
  deriving DecidableEq, Repr

/-- The emulation buffer (R31, R53): the (address, byte) pairs that differ from `EMUL_INIT`, addresses
strictly rising. An address that is not listed reads as `EMUL_INIT` has it. -/
abbrev Memory := List Host.Cell

/-- The state: the block's fields (R21), its construction parameters (R10), and the model's own fields
for the agents it acts with (INVENTORY.md, State). -/
structure State where
  /-- The construction parameters (R10); nothing writes them (R35). -/
  cfg : Config
  /-- `s.tap` (R22). -/
  tap : Mirror
  /-- `s.claimed` (R23). -/
  claimed : Bool
  /-- `s.tck` (R24). -/
  tck : Level
  /-- `s.tms` (R24). -/
  tms : Level
  /-- `s.tdi` (R24). -/
  tdi : Level
  /-- `s.sr_out` (R28). -/
  srOut : Bits
  /-- `s.sr_in` (R28). -/
  srIn : Bits
  /-- `s.resp` (R29). -/
  resp : Option Response
  /-- `s.lock` (R30). -/
  lock : Option HostId
  /-- `s.emul` (R31). -/
  emul : Memory
  /-- `s.refused` (R29). -/
  refused : Bool
  /-- The words on the command port (R80, R88). Model's own field. -/
  port : List Word
  /-- The host whose words stand on the port (R221). Model's own field. -/
  presenter : Option HostId
  /-- What the hosts are about to do, oldest first (R220 to R222). Model's own field. -/
  hostQueue : List HostAction
  /-- How the last lock request ended (R221). Model's own field. -/
  lockAnswer : Option (HostId × LockAnswer)
  /-- The pin layer's answers to the coming commands (R25); where none is listed they are free values of
  Config at `drawNo`. Model's own field. -/
  answers : List PinAnswers
  /-- How many commands have drawn their answers. Model's own field. -/
  drawNo : Nat
  /-- The pin primitives performed so far, oldest first (R224). Model's own field. -/
  trace : List PinEvent
  deriving DecidableEq, Repr

/-- Why the machine stops. A command never does: every error of the block is a response (R200). -/
inductive Fault where
  /-- Raised by a host's `release` of the lock when it does not hold it: R221 "requires `s.lock = h`"
  and gives no effect otherwise. Safe: the model stops where the hardware's behaviour is not given. -/
  | releaseWithoutLock
  deriving DecidableEq, Repr

/-- Why the machine has no step. -/
inductive Refusal where
  /-- Raised by `exec` for an instruction without a meaning; none is left. Safe. -/
  | notModelled (mnemonic : String)
  /-- Raised when an instance is constructed whose parameters break a constraint of R10. Safe: the spec
  asks for this refusal. -/
  | badParameters
  deriving DecidableEq, Repr

/-- The power-on state of an instance with parameters `c` (R40, R240). -/
def State.powerOn (c : Config) : State where
  cfg := c
  tap := .unknown
  claimed := false
  tck := .z
  tms := .z
  tdi := .z
  srOut := []
  srIn := []
  resp := none
  lock := none
  emul := []
  refused := false
  port := []
  presenter := none
  hostQueue := []
  lockAnswer := none
  answers := []
  drawNo := 0
  trace := []

/-- The machine right after power-on, at the parameters of `Config.default` (notes/assumptions/1.md). -/
def State.reset : State := State.powerOn Config.default

end Sys2Proof.Machine
end

