-- ==== Sys2Proof/Machine/Flags.lean ====
section
/-!
DEFINITION. The outcome indicator. JTSEQ has no condition codes; "the only outcome indicator is the
`status` of each response" (spec/10_state.md R34). Its codes and the response words are those of
spec/30_encoding.md R90 to R92.
-/
namespace Sys2Proof.Machine

/-- The status codes (R91). -/
def Status.code : Status → Byte
  | .ok => 0
  | .deviceNotReady => 1
  | .protocolError => 2
  | .ioError => 3
  | .busy => 4
  | .illegalCommand => 5
  | .alignmentError => 6

/-- The status word: the code in `[7:0]`, the reserved bits 0 (R90). -/
def Status.word (st : Status) : Word := BitVec.setWidth 32 st.code

/-- The data words (R92). -/
def RespData.words : RespData → List Word
  | .none => []
  | .capture r => r.toWords
  | .word w => [w]

/-- The response words: one status word, then data words only when the status is OK (R90, R92). -/
def Response.words (r : Response) : List Word :=
  r.status.word :: (if r.status = .ok then r.data.words else [])

end Sys2Proof.Machine
end

