-- ==== Sys2Proof/Machine/TapFsm.lean ====
section
/-!
DEFINITION. The TAP state machine (spec/40_tap_fsm.md R111, R112) and the tick lists of the walks, the
scan and the reset sequence (R114 to R120).
-/
namespace Sys2Proof.Machine

/-- The transition function `Next(state, tms)` (R111). -/
def TapState.next (t : TapState) (tms : Bool) : TapState :=
  match t with
  | .testLogicReset => if tms then .testLogicReset else .runTestIdle
  | .runTestIdle => if tms then .selectDrScan else .runTestIdle
  | .selectDrScan => if tms then .selectIrScan else .captureDr
  | .captureDr => if tms then .exit1Dr else .shiftDr
  | .shiftDr => if tms then .exit1Dr else .shiftDr
  | .exit1Dr => if tms then .updateDr else .pauseDr
  | .pauseDr => if tms then .exit2Dr else .pauseDr
  | .exit2Dr => if tms then .updateDr else .shiftDr
  | .updateDr => if tms then .selectDrScan else .runTestIdle
  | .selectIrScan => if tms then .testLogicReset else .captureIr
  | .captureIr => if tms then .exit1Ir else .shiftIr
  | .shiftIr => if tms then .exit1Ir else .shiftIr
  | .exit1Ir => if tms then .updateIr else .pauseIr
  | .pauseIr => if tms then .exit2Ir else .pauseIr
  | .exit2Ir => if tms then .updateIr else .shiftIr
  | .updateIr => if tms then .selectDrScan else .runTestIdle

/-- `Next` on the mirror: `UNKNOWN` is absorbing (R112). -/
def Mirror.next (m : Mirror) (tms : Bool) : Mirror :=
  match m with
  | .unknown => .unknown
  | .known t => .known (t.next tms)

/-- The level of a driven bit. -/
def Level.ofBool (b : Bool) : Level := if b then .high else .low

/-- Which register a scan goes through (R116). -/
inductive ScanKind where
  | ir
  | dr
  deriving DecidableEq, Repr

/-- The arguments of a `Tick(tms, tdi, sample)` (R113). `sample` is none, or the bit of `s.sr_in` that
receives the TDO sample. -/
structure Tick where
  tms : Bool
  tdi : Bool
  sample : Option Nat
  deriving DecidableEq, Repr

/-- A tick that shifts nothing: TDI = 0 and no sample (R114). -/
def Tick.plain (tms : Bool) : Tick := { tms := tms, tdi := false, sample := none }

/-- The pin primitives of a tick, in order (R113). -/
def Tick.prims (t : Tick) : List PinPrim :=
  [.set .tms t.tms, .set .tdi t.tdi] ++ (if t.sample.isSome then [.readTdo] else []) ++ [.toggle]

/-- `GotoIdle()` (R115). -/
def gotoIdle (m : Mirror) : List Tick :=
  if m = .known .testLogicReset then [Tick.plain false] else []

/-- From Run-Test/Idle to the Shift state of the scan's kind (R116). -/
def walkIn (kind : ScanKind) : List Tick :=
  match kind with
  | .ir => [Tick.plain true, Tick.plain true, Tick.plain false, Tick.plain false]
  | .dr => [Tick.plain true, Tick.plain false, Tick.plain false]

/-- From Exit1 through Update to Run-Test/Idle (R116). -/
def walkOut : List Tick := [Tick.plain true, Tick.plain false]

/-- The bit that the shift tick `i` of an `n`-bit scan presents and samples (R116). -/
def shiftIndex (order : BitOrder) (n i : Nat) : Nat :=
  match order with
  | .lsbFirst => i
  | .msbFirst => n - 1 - i

/-- The shift tick `i` of a scan of `v`: TMS is 1 on the last one (R116). -/
def shiftTick (order : BitOrder) (v : Bits) (i : Nat) : Tick where
  tms := i == v.length - 1
  tdi := v.getD (shiftIndex order v.length i) false
  sample := some (shiftIndex order v.length i)

/-- The `n` shift ticks of a scan of `v` (R116). -/
def shiftTicks (order : BitOrder) (v : Bits) : List Tick :=
  (List.range v.length).map (shiftTick order v)

/-- All ticks of a scan from the idle state that the mirror shows (R96, R116). -/
def scanTicks (order : BitOrder) (kind : ScanKind) (m : Mirror) (v : Bits) : List Tick :=
  gotoIdle m ++ walkIn kind ++ shiftTicks order v ++ walkOut

/-- The ticks of `ResetSeq()` (R118). -/
def resetTicks (c : Config) : List Tick := List.replicate c.resetTcks (Tick.plain true)

/-- The ticks of `IdleWait(k)` (R120). -/
def idleTicks (k : Nat) : List Tick := List.replicate k (Tick.plain false)

/-- The pin primitives of a list of ticks. -/
def ticksPrims (ts : List Tick) : List PinPrim := ts.flatMap Tick.prims

end Sys2Proof.Machine
end

