-- ==== Sys2Proof/Machine/Ops.lean ====
section
/-!
DEFINITION. The named operations every command is built from: the emulation buffer
(spec/20_memory.md R55, R60), the pin layer's answers and the pin primitives (spec/10_state.md R25,
R26), the tick, the scan and the reset sequence (spec/40_tap_fsm.md R113 to R120), and how a command
ends: the response, and the failure procedures (spec/60_exceptions.md R200 to R207).
-/
namespace Sys2Proof.Machine

/-! ## The emulation buffer -/

/-- What an address that the memory does not list reads as: the byte of `EMUL_INIT` (R31). -/
def initByte (c : Config) (a : Nat) : Byte := c.emulInit.getD a 0

/-- The byte listed for an address. -/
def Memory.lookup (m : Memory) (a : Nat) : Option Byte :=
  match m with
  | [] => none
  | (x, b) :: rest => if x = a then some b else Memory.lookup rest a

/-- The byte of the buffer at an address (R53). -/
def Memory.read (c : Config) (m : Memory) (a : Nat) : Byte := (Memory.lookup m a).getD (initByte c a)

/-- Remove an address's entry. -/
def Memory.erase (m : Memory) (a : Nat) : Memory := m.filter fun p => p.1 ≠ a

/-- Put an entry at its place in the rising order. -/
def Memory.put (m : Memory) (a : Nat) (b : Byte) : Memory :=
  match m with
  | [] => [(a, b)]
  | (x, y) :: rest =>
    if a < x then (a, b) :: (x, y) :: rest
    else if a = x then (a, b) :: rest
    else (x, y) :: Memory.put rest a b

/-- Write one byte, in the canonical form: a byte equal to that of `EMUL_INIT` is not listed. -/
def Memory.write (c : Config) (m : Memory) (a : Nat) (b : Byte) : Memory :=
  if b = initByte c a then Memory.erase m a else Memory.put m a b

/-- The canonical form: addresses strictly rising and inside the buffer, and no entry equal to what an
unlisted address reads as. -/
abbrev Memory.wf (c : Config) (m : Memory) : Prop :=
  m.Pairwise (fun p q => p.1 < q.1) ∧ ∀ p ∈ m, p.1 < c.emulLen ∧ p.2 ≠ initByte c p.1

/-- The range check of R60, the sum taken as an unbounded integer. -/
def inBuffer (c : Config) (addr : Word) : Bool := addr.toNat + 4 ≤ c.emulLen

/-- `MemRead(addr, 4)` of the buffer (R60), in `BYTE_ORDER` (R55). -/
def memRead (c : Config) (m : Memory) (addr : Word) : Word :=
  wordOfBytes c.byteOrder (Memory.read c m addr.toNat) (Memory.read c m (addr.toNat + 1))
    (Memory.read c m (addr.toNat + 2)) (Memory.read c m (addr.toNat + 3))

/-- `MemWrite(addr, 4, v)` of the buffer (R60), in `BYTE_ORDER` (R55). -/
def memWrite (c : Config) (m : Memory) (addr v : Word) : Memory :=
  (List.range 4).foldl (fun m k => Memory.write c m (addr.toNat + k) (wordByte c.byteOrder v k)) m

/-! ## The pin layer's answers to the command being performed (R25) -/

/-- `pins_ready`. -/
def State.pinsReady (s : State) : Bool :=
  match s.answers with
  | [] => Config.freeReady s.drawNo
  | a :: _ => a.ready

/-- `ok_k`, with `k` counted from 1. -/
def State.okAt (s : State) (k : Nat) : Bool :=
  match s.answers with
  | [] => Config.freeOk s.drawNo k
  | a :: _ => !a.failing.contains k

/-- `tdo_k`, with `k` counted from 1. -/
def State.tdoAt (s : State) (k : Nat) : Bool :=
  match s.answers with
  | [] => Config.freeTdo s.drawNo k
  | a :: _ => a.tdo.getD (k - 1) (Config.freeTdo s.drawNo k)

/-! ## How a command ends -/

/-- `respond(status, data)`: put the response on the response port (R16, R90). The command's pin answers
are spent with it. -/
def State.respond (s : State) (st : Status) (data : RespData) : State :=
  { s with resp := some { status := st, data := data }, answers := s.answers.tail, drawNo := s.drawNo + 1 }

/-- The response to words that are no command: no state changes but `s.resp` and the mark `s.refused`
(R29, R95). -/
def State.illegalCommand (s : State) : State :=
  { s with refused := true }.respond .illegalCommand .none

/-- What a session command needs before its first primitive:
`pins_ready ∧ s.claimed ∧ s.tap ≠ UNKNOWN` (R204). -/
def State.sessionReady (s : State) : Bool := s.claimed && s.tap ≠ .unknown && s.pinsReady

/-! ## Pin primitives -/

/-- A command being performed: the state so far, and how many primitives and how many reads it has
performed (the position within a command of R33). -/
structure Run where
  st : State
  prims : Nat
  reads : Nat
  deriving DecidableEq, Repr

/-- Where a command stands: it goes on, or it has met an error and ends with that status (R16, R200). -/
inductive Drive where
  | going (r : Run)
  | ended (e : Status) (r : Run)
  deriving DecidableEq, Repr

/-- The command at its first primitive. -/
def State.begin (s : State) : Run := { st := s, prims := 0, reads := 0 }

/-- The next part of a command runs only if no error ended it before (R200). -/
def Drive.andThen (d : Drive) (f : Run → Drive) : Drive :=
  match d with
  | .going r => f r
  | .ended e r => .ended e r

/-- The response that ends a command: `OK` with its data, or the error with none (R92, R200). -/
def Drive.finish (d : Drive) (data : State → RespData) : State :=
  match d with
  | .going r => r.st.respond .ok (data r.st)
  | .ended e r => r.st.respond e .none

/-- The level JTSEQ drives on a line. -/
def State.setLine (s : State) (line : Line) (l : Level) : State :=
  match line with
  | .tck => { s with tck := l }
  | .tms => { s with tms := l }
  | .tdi => { s with tdi := l }

/-- What a successful primitive does to the block's pin fields (R26). -/
def PinPrim.effect (p : PinPrim) (s : State) : State :=
  match p with
  | .set line b => s.setLine line (Level.ofBool b)
  | .readTdo => s
  | .toggle => { s with tck := .low }
  | .releaseLine line => s.setLine line .z

/-- The primitive has been tried: it is on the trace and counted. -/
def Run.tried (r : Run) (p : PinPrim) (ok : Bool) : Run where
  st := { r.st with trace := r.st.trace ++ [{ prim := p, ok := ok }] }
  prims := r.prims + 1
  reads := r.reads + (if p = .readTdo then 1 else 0)

/-- Whether the next primitive of the command succeeds. -/
def Run.nextOk (r : Run) : Bool := r.st.okAt (r.prims + 1)

/-- The primitive succeeds. -/
def Run.performed (r : Run) (p : PinPrim) : Run :=
  { r.tried p true with st := p.effect (r.tried p true).st }

/-- A pin failure inside a command other than RELEASE: no further primitive, the mirror becomes
UNKNOWN, and the command ends with `IO_ERROR` (R206); the failed primitive changes no pin field (R26). -/
def Run.pinFailure (r : Run) (p : PinPrim) : Drive :=
  .ended .ioError { r.tried p false with st := { (r.tried p false).st with tap := .unknown } }

/-- One pin primitive of a command (R26, R206). -/
def doPrim (p : PinPrim) (r : Run) : Drive :=
  if r.nextOk then .going (r.performed p) else r.pinFailure p

/-- Pin primitives in order, up to the first failure. -/
def doPrims (ps : List PinPrim) (r : Run) : Drive :=
  match ps with
  | [] => .going r
  | p :: rest => (doPrim p r).andThen (doPrims rest)

/-! ## Ticks, scans and the reset sequence -/

/-- After a tick's clock pulse: the mirror advances, and the sample goes to its bit of `s.sr_in`
(R113, R116). -/
def Run.afterTick (r : Run) (t : Tick) : Run :=
  { r with st :=
    { r.st with
      tap := r.st.tap.next t.tms
      srIn := match t.sample with
        | none => r.st.srIn
        | some j => r.st.srIn.setBit j (r.st.tdoAt r.reads) } }

/-- `Tick(tms, tdi, sample)` (R113). -/
def doTick (t : Tick) (r : Run) : Drive := (doPrims t.prims r).andThen fun r => .going (r.afterTick t)

/-- Ticks in order, up to the first failure. -/
def doTicks (ts : List Tick) (r : Run) : Drive :=
  match ts with
  | [] => .going r
  | t :: rest => (doTick t r).andThen (doTicks rest)

/-- `s.sr_out <- v` and `s.sr_in <- 0^n`, on entry to Shift (R116). -/
def Run.loadShift (r : Run) (v : Bits) : Run :=
  { r with st := { r.st with srOut := v, srIn := Bits.zero v.length } }

/-- `Scan(kind, n, v)` with `n` the length of `v` (R116); its result is left in `s.sr_in`. -/
def scan (kind : ScanKind) (v : Bits) (r : Run) : Drive :=
  (doTicks (gotoIdle r.st.tap ++ walkIn kind) r).andThen fun r =>
    doTicks (shiftTicks r.st.cfg.bitOrder v ++ walkOut) (r.loadShift v)

/-- `ResetSeq()` (R118): its last assignment makes the mirror known. -/
def resetSeq (r : Run) : Drive :=
  (doTicks (resetTicks r.st.cfg) r).andThen fun r =>
    .going { r with st := { r.st with tap := .known .testLogicReset } }

/-- `IdleWait(k)` (R120). -/
def idleWait (k : Nat) (r : Run) : Drive := doTicks (idleTicks k) r

/-- Whether an IR capture passes `IR_CAPTURE_CHECK`: `(c & mask) = expect`, or no check (R153). -/
def captureOk (check : Option (Bits × Bits)) (capture : Bits) : Bool :=
  match check with
  | none => true
  | some (expect, mask) => capture.and mask == expect

/-- `BridgeSelect(code)`: the IR scan, then the capture check, whose failure ends the command with
`PROTOCOL_ERROR` and no further scan (R153, R207). -/
def bridgeSelect (code : Bits) (r : Run) : Drive :=
  (scan .ir code r).andThen fun r =>
    if captureOk r.st.cfg.irCaptureCheck r.st.srIn then .going r else .ended .protocolError r

end Sys2Proof.Machine
end

