-- ==== Sys2Proof/Machine/BridgeCommands.lean ====
section
/-!
DEFINITION. The AXI-over-JTAG bridge's commands: AXI_WRITE and AXI_READ under both backends
(spec/42_axi_bridge.md).
-/
namespace Sys2Proof.Machine

/-- AXI_WRITE under `EMUL` (R160): alignment, then range, then the buffer. -/
def State.emulWrite (s : State) (addr word : Word) : State :=
  if !aligned addr then s.respond .alignmentError .none
  else if !inBuffer s.cfg addr then s.respond .ioError .none
  else { s with emul := memWrite s.cfg s.emul addr word }.respond .ok .none

/-- The scans of a write (R154, R160). -/
def writeScans (addr word : Word) (r : Run) : Drive :=
  (bridgeSelect r.st.cfg.irAxiWrite r).andThen fun r =>
    (scan .dr (wrPayload r.st.cfg addr word) r).andThen fun r => idleWait r.st.cfg.writeWaitTcks r

/-- AXI_WRITE under `HW` (R160): readiness, then alignment, then the scans. -/
def State.hwWrite (s : State) (addr word : Word) : State :=
  if !s.sessionReady then s.respond .deviceNotReady .none
  else if !aligned addr then s.respond .alignmentError .none
  else (writeScans addr word s.begin).finish fun _ => .none

/-- AXI_WRITE (R160). -/
def execAxiWrite (addr word : Word) (s : State) : Host.Outcome State Fault Refusal :=
  .next (match s.cfg.backend with
    | .emul => s.emulWrite addr word
    | .hw => s.hwWrite addr word)

/-- AXI_READ under `EMUL` (R170). -/
def State.emulRead (s : State) (addr : Word) : State :=
  if !aligned addr then s.respond .alignmentError .none
  else if !inBuffer s.cfg addr then s.respond .ioError .none
  else s.respond .ok (.word (memRead s.cfg s.emul addr))

/-- The data instruction of a read, if the parameter is set (R154, R170). -/
def selectReadData (r : Run) : Drive :=
  match r.st.cfg.irAxiReadData with
  | none => .going r
  | some d => bridgeSelect d r

/-- The scans of a read (R154, R170): the retrieve scan repeats the address payload (R172). -/
def readScans (addr : Word) (r : Run) : Drive :=
  (bridgeSelect r.st.cfg.irAxiRead r).andThen fun r =>
    (scan .dr (rdPayload r.st.cfg addr) r).andThen fun r =>
      (idleWait r.st.cfg.readWaitTcks r).andThen fun r =>
        (selectReadData r).andThen fun r => scan .dr (rdPayload r.st.cfg addr) r

/-- AXI_READ under `HW` (R170): readiness, then alignment, then the scans; the result is a field of the
retrieve capture (R152). -/
def State.hwRead (s : State) (addr : Word) : State :=
  if !s.sessionReady then s.respond .deviceNotReady .none
  else if !aligned addr then s.respond .alignmentError .none
  else (readScans addr s.begin).finish fun t => .word (rdWord t.cfg t.srIn)

/-- AXI_READ (R170). -/
def execAxiRead (addr : Word) (s : State) : Host.Outcome State Fault Refusal :=
  .next (match s.cfg.backend with
    | .emul => s.emulRead addr
    | .hw => s.hwRead addr)

end Sys2Proof.Machine
end

