-- ==== Sys2Proof/Syntax.lean ====
section
/-!
DEFINITION. The commands of JTSEQ: one constructor per row of spec/opcode_table.json
(spec/30_encoding.md R82 to R84).
-/
namespace Sys2Proof

/-- A command. A SHIFT's length `n` is the length of its vector `v` (R83). -/
inductive Instr where
  /-- TAP_RESET (R131). -/
  | tapReset
  /-- SHIFT_IR(n, v) with `n` the length of `v` (R134). -/
  | shiftIr (v : Bits)
  /-- SHIFT_DR(n, v) with `n` the length of `v` (R137). -/
  | shiftDr (v : Bits)
  /-- AXI_WRITE(addr, word) (R160). -/
  | axiWrite (addr word : Word)
  /-- AXI_READ(addr) (R170). -/
  | axiRead (addr : Word)
  /-- RELEASE (R140). -/
  | release
  deriving DecidableEq, Repr

/-- The opcode map of R82, without its reserved codes. -/
inductive Opcode where
  | tapReset
  | shiftIr
  | shiftDr
  | axiWrite
  | axiRead
  | release
  deriving DecidableEq, Repr

/-- The opcode of a command (R82). -/
def Instr.opcode : Instr → Opcode
  | .tapReset => .tapReset
  | .shiftIr _ => .shiftIr
  | .shiftDr _ => .shiftDr
  | .axiWrite _ _ => .axiWrite
  | .axiRead _ => .axiRead
  | .release => .release

end Sys2Proof
end

