-- ==== Sys2Proof/WellFormed.lean ====
section
/-!
DEFINITION. When a command has an encoding (spec/30_encoding.md R86, R87).
-/
namespace Sys2Proof

/-- The lengths a SHIFT may have: `1 <= n <= MAX_SHIFT_BITS` (R86). -/
def shiftLengthOk (c : Config) (n : Nat) : Bool := 1 ≤ n && n ≤ c.maxShiftBits

/-- A command is well formed when its length is admitted. A misaligned address "is not an encoding
error" (R84), and the AXI operand words "have no invalid value" (R87). -/
def Instr.wf (c : Config) : Instr → Bool
  | .tapReset => true
  | .shiftIr v => shiftLengthOk c v.length
  | .shiftDr v => shiftLengthOk c v.length
  | .axiWrite _ _ => true
  | .axiRead _ => true
  | .release => true

end Sys2Proof
end

