-- ==== Sys2Proof/Machine/TapCommands.lean ====
section
/-!
DEFINITION. The TAP sequencer's commands: TAP_RESET, SHIFT_IR, SHIFT_DR, RELEASE
(spec/41_tap_commands.md). They work identically under both backends.
-/
namespace Sys2Proof.Machine

/-- Claim the pins: the session exists "from here on", and TCK is driven low before the first tick
(R131). -/
def claimPins (r : Run) : Drive :=
  if r.st.claimed then .going r
  else doPrim (.set .tck false) { r with st := { r.st with claimed := true } }

/-- The state TAP_RESET leaves (R131). -/
def State.tapReset (s : State) : State :=
  if s.pinsReady then ((claimPins s.begin).andThen resetSeq).finish fun _ => .none
  else s.respond .deviceNotReady .none

/-- TAP_RESET (R131). -/
def execTapReset (s : State) : Host.Outcome State Fault Refusal := .next s.tapReset

/-- The state a raw scan leaves (R134, R137): illegal lengths first (R205), then readiness (R204), then
the scan, whose capture is the response's data. -/
def State.rawShift (s : State) (kind : ScanKind) (v : Bits) : State :=
  if !shiftLengthOk s.cfg v.length then s.illegalCommand
  else if s.sessionReady then (scan kind v s.begin).finish fun t => .capture t.srIn
  else s.respond .deviceNotReady .none

/-- SHIFT_IR (R134). -/
def execShiftIr (v : Bits) (s : State) : Host.Outcome State Fault Refusal := .next (s.rawShift .ir v)

/-- SHIFT_DR (R137). -/
def execShiftDr (v : Bits) (s : State) : Host.Outcome State Fault Refusal := .next (s.rawShift .dr v)

/-- One `PinRelease` of RELEASE: "a failure here is noted and skipped" (R140). -/
def releaseStep (r : Run) (line : Line) : Run :=
  if r.nextOk then r.performed (.releaseLine line) else r.tried (.releaseLine line) false

/-- The run after RELEASE has tried to release the three lines, in the order of R140. -/
def releasePins (r : Run) : Run := releaseStep (releaseStep (releaseStep r .tck) .tms) .tdi

/-- The state RELEASE leaves (R140): it always responds `OK` and always ends the session. -/
def State.release (s : State) : State :=
  { (if s.claimed && s.pinsReady then (releasePins s.begin).st else s) with
    claimed := false, tap := .unknown }.respond .ok .none

/-- RELEASE (R140). -/
def execRelease (s : State) : Host.Outcome State Fault Refusal := .next s.release

end Sys2Proof.Machine
end

