-- ==== Sys2Proof/Machine/Dispatch.lean ====
section
/-!
DEFINITION. One arm per command of spec/opcode_table.json.
-/
namespace Sys2Proof.Machine

def exec (i : Instr) (s : State) : Host.Outcome State Fault Refusal :=
  match i with
  | .tapReset => Sys2Proof.Machine.execTapReset s
  | .shiftIr v => Sys2Proof.Machine.execShiftIr v s
  | .shiftDr v => Sys2Proof.Machine.execShiftDr v s
  | .axiWrite addr word => Sys2Proof.Machine.execAxiWrite addr word s
  | .axiRead addr => Sys2Proof.Machine.execAxiRead addr s
  | .release => Sys2Proof.Machine.execRelease s

end Sys2Proof.Machine
end

