-- ==== Sys2Proof/Decode.lean ====
section
/-!
DEFINITION. The command decoder and encoder (spec/30_encoding.md R81 to R88, R95).
-/
namespace Sys2Proof

/-- Why words are no command: the three kinds of R95, the header check of R86 split by its clauses. -/
inductive IllegalReason where
  /-- `OP` is `0x0` or `0x7` to `0xF` (R86 clause 1). -/
  | reservedOpcode
  /-- A bit of `[7:4]` or `[31:16]` is 1 (R86 clause 2). -/
  | reservedBits
  /-- A SHIFT's `LEN` is 0 or above `MAX_SHIFT_BITS` (R86 clause 3). -/
  | shiftLength
  /-- `LEN` is not 0 in a command without a length (R86 clause 4). -/
  | lengthNotZero
  /-- A SHIFT operand has a 1 at or above bit `n` (R87). -/
  | operandBits
  deriving DecidableEq, Repr

/-- What the decoder answers (R88). -/
inductive Decoded where
  /-- A command, and how many words it takes. -/
  | command (i : Instr) (consumed : Nat)
  /-- No command, and how many words are consumed with the refusal. -/
  | illegal (why : IllegalReason) (consumed : Nat)
  /-- "The command is not yet complete." -/
  | incomplete
  deriving DecidableEq, Repr

/-- Header field `OP` (R81). -/
def headerOp (h : Word) : Nat := (h.extractLsb' 0 4).toNat

/-- Header field `LEN` (R81): unsigned, "with no extension or scaling". -/
def headerLen (h : Word) : Nat := (h.extractLsb' 8 8).toNat

/-- Whether the reserved header fields `[7:4]` and `[31:16]` are 0 (R81). -/
def reservedClear (h : Word) : Bool := h.extractLsb' 4 4 == 0 && h.extractLsb' 16 16 == 0

/-- The opcode map (R82). -/
def opcodeOf (op : Nat) : Option Opcode :=
  match op with
  | 1 => some .tapReset
  | 2 => some .shiftIr
  | 3 => some .shiftDr
  | 4 => some .axiWrite
  | 5 => some .axiRead
  | 6 => some .release
  | _ => none

/-- The code of an opcode (R82). -/
def opcodeCode (op : Opcode) : Word :=
  match op with
  | .tapReset => 1
  | .shiftIr => 2
  | .shiftDr => 3
  | .axiWrite => 4
  | .axiRead => 5
  | .release => 6

/-- Whether a command of this opcode may have this `LEN` (R86 clauses 3 and 4), and why not. -/
def lengthProblem (c : Config) (op : Opcode) (len : Nat) : Option IllegalReason :=
  match op with
  | .shiftIr => if shiftLengthOk c len then none else some .shiftLength
  | .shiftDr => if shiftLengthOk c len then none else some .shiftLength
  | _ => if len == 0 then none else some .lengthNotZero

/-- A valid header's opcode, or why the header is invalid (R86). -/
def checkHeader (c : Config) (h : Word) : Except IllegalReason Opcode :=
  match opcodeOf (headerOp h) with
  | none => .error .reservedOpcode
  | some op =>
    if !reservedClear h then .error .reservedBits
    else match lengthProblem c op (headerLen h) with
      | some why => .error why
      | none => .ok op

/-- How many operand words follow a header of this opcode and length (R82, R85). -/
def operandWords (op : Opcode) (len : Nat) : Nat :=
  match op with
  | .tapReset => 0
  | .shiftIr => vectorWords len
  | .shiftDr => vectorWords len
  | .axiWrite => 2
  | .axiRead => 1
  | .release => 0

/-- "The header alone fixes the length of a command", in words; an invalid header has length 1 (R85). -/
def commandLength (c : Config) (h : Word) : Nat :=
  match checkHeader c h with
  | .error _ => 1
  | .ok op => 1 + operandWords op (headerLen h)

/-- A SHIFT's operand words as its vector, or the refusal of R87. -/
def decodeShift (mk : Bits → Instr) (n : Nat) (ws : List Word) : Decoded :=
  if spareBitsClear n ws then .command (mk (Bits.ofWords n ws)) (1 + vectorWords n)
  else .illegal .operandBits (1 + vectorWords n)

/-- The command of an opcode whose operand words have all arrived (R88). -/
def decodeOperands (op : Opcode) (len : Nat) (ws : List Word) : Decoded :=
  match op with
  | .tapReset => .command .tapReset 1
  | .shiftIr => decodeShift .shiftIr len ws
  | .shiftDr => decodeShift .shiftDr len ws
  | .axiWrite => .command (.axiWrite (ws.getD 0 0) (ws.getD 1 0)) 3
  | .axiRead => .command (.axiRead (ws.getD 0 0)) 2
  | .release => .command .release 1

/-- The decoder: "total on any word sequence" (R88). -/
def decode (c : Config) (words : List Word) : Decoded :=
  match words with
  | [] => .incomplete
  | h :: rest =>
    match checkHeader c h with
    | .error why => .illegal why 1
    | .ok op =>
      if rest.length < operandWords op (headerLen h) then .incomplete
      else decodeOperands op (headerLen h) (rest.take (operandWords op (headerLen h)))

/-- A header word (R81). -/
def headerWord (op : Opcode) (len : Nat) : Word := opcodeCode op ||| (BitVec.ofNat 32 len <<< 8)

/-- The words of a command (R81 to R84). -/
def encode (i : Instr) : List Word :=
  match i with
  | .tapReset => [headerWord .tapReset 0]
  | .shiftIr v => headerWord .shiftIr v.length :: v.toWords
  | .shiftDr v => headerWord .shiftDr v.length :: v.toWords
  | .axiWrite addr word => [headerWord .axiWrite 0, addr, word]
  | .axiRead addr => [headerWord .axiRead 0, addr]
  | .release => [headerWord .release 0]

/-- The words of a table word of `nbits` bits, first word in the low bits, every bit above `nbits` 0, up
to the longest command (a header and `ceil(255/32)` operand words). -/
def tableWords (nbits w : Nat) : List Word :=
  (List.range 9).map fun k => BitVec.ofNat 32 ((w % 2 ^ nbits) >>> (32 * k))

/-- The words of one command among them: as many as its header asks for (R85). -/
def tableCommand (c : Config) (nbits w : Nat) : List Word :=
  (tableWords nbits w).take (commandLength c ((tableWords nbits w).headD 0))

/-- The command the decoder reads from a table word, at the spec's default parameters
(notes/assumptions/8.md). -/
def decodeTableWord (nbits w : Nat) : Option Instr :=
  match decode Config.default (tableWords nbits w) with
  | .command i _ => some i
  | .illegal _ _ => none
  | .incomplete => none

end Sys2Proof
end

