-- ==== Sys2Proof/Machine/HostPort.lean ====
section
/-!
DEFINITION. The host interface (spec/60_exceptions.md R220 to R223): the command port, the chip lock, and
whose turn it is. Construction of an instance (spec/00_scope.md R10).
-/
namespace Sys2Proof.Machine

/-- Construct an instance: "A model must refuse to construct an instance that breaks a constraint"
(R10). -/
def construct (c : Config) : Except Refusal State :=
  if c.valid then .ok (State.powerOn c) else .error .badParameters

/-! ## The command port -/

/-- "A command presented by a host `h` is performed only if `s.lock = h`" (R221). -/
def State.portLive (s : State) : Bool := s.presenter.isSome && s.presenter == s.lock

/-- What the words on the port decode to; while their presenter does not hold the lock, nothing is
performed (R88, R221). -/
def State.fetch (s : State) : Decoded := if s.portLive then decode s.cfg s.port else .incomplete

/-- The first `n` words are consumed (R88); the words after them "begin the next command" (R85). -/
def State.takeWords (s : State) (n : Nat) : State :=
  { s with
    port := s.port.drop n
    presenter := if (s.port.drop n).isEmpty then none else s.presenter }

/-- Put a host's words on the port. -/
def State.putWords (s : State) (h : HostId) (words : List Word) : State :=
  { s with
    port := s.port ++ words
    presenter := if (s.port ++ words).isEmpty then none else some h }

/-! ## The hosts -/

/-- Whether a host's action has a step now (R221, R223). An acquire of a held lock and a presentation
without the lock are held; words of another host still waiting for their rest keep the port
(notes/assumptions/3.md). -/
def HostAction.enabled (a : HostAction) (s : State) : Bool :=
  match a with
  | .acquire _ givesUp => s.lock.isNone || (s.cfg.lockWait == .bounded && givesUp)
  | .release _ => true
  | .present h _ => s.lock == some h && (s.port.isEmpty || s.presenter == some h)

/-- The action taken next: the oldest one that has a step, of a host none of whose older actions is
held; and the queue without it (notes/assumptions/4.md). -/
def pickAction (s : State) (held : List HostId) (queue : List HostAction) :
    Option (HostAction × List HostAction) :=
  match queue with
  | [] => none
  | a :: rest =>
    if !held.contains a.host && a.enabled s then some (a, rest)
    else (pickAction s (a.host :: held) rest).map fun p => (p.1, a :: p.2)

/-- `acquire(h)` (R221). -/
def State.acquireLock (s : State) (h : HostId) : State :=
  if s.lock.isNone then { s with lock := some h, lockAnswer := some (h, .granted) }
  else { s with lockAnswer := some (h, .busy) }

/-- `release(h)` (R221). -/
def State.releaseLock (s : State) (h : HostId) : Host.Outcome State Fault Refusal :=
  if s.lock = some h then .next { s with lock := none, lockAnswer := some (h, .released) }
  else .fault .releaseWithoutLock

/-- A host's action takes place. -/
def HostAction.take (a : HostAction) (s : State) : Host.Outcome State Fault Refusal :=
  match a with
  | .acquire h _ => .next (s.acquireLock h)
  | .release h => s.releaseLock h
  | .present h words => .next (s.putWords h words)

/-- The hosts' turn: one action, or, when none has a step, the block waits and nothing changes (R240,
notes/assumptions/4.md). -/
def State.hostTurn (s : State) : Host.Outcome State Fault Refusal :=
  match pickAction s [] s.hostQueue with
  | none => .next s
  | some (a, rest) => a.take { s with hostQueue := rest }

end Sys2Proof.Machine
end

