-- ==== Sys2Proof/Machine/Step.lean ====
section
/-!
DEFINITION. One step (spec/10_state.md R20): the sequencer performs the command on the port, whole; where
no command is complete, a host acts.
-/
namespace Sys2Proof.Machine

/-- One step. The sequencer goes first: a host presents nothing more before the response (R80, R220). -/
def step (s : State) : Host.Outcome State Fault Refusal :=
  match s.fetch with
  | .command i n => exec i (s.takeWords n)
  | .illegal _ n => .next (s.takeWords n).illegalCommand
  | .incomplete => s.hostTurn

/-- `s` with a table word's command on the port, presented by the host that holds the lock, or by host 0
holding it where nobody does: what a host's `acquire` and `present` leave (notes/assumptions/7.md). -/
def State.withFetchWord (s : State) (nbits w : Nat) : State :=
  { s with
    port := tableCommand s.cfg nbits w
    presenter := some (s.lock.getD 0)
    lock := some (s.lock.getD 0) }

end Sys2Proof.Machine
end

