-- ==== Sys2Proof/Machine/HostMacros.lean ====
section
/-!
DEFINITION. The host's pseudo-operations and its use of the block (spec/43_host_sequences.md): PATCH_OFFSET,
PATCH, VERIFY, the bootcode's words, and the block commands of each loader step. They are no commands;
the host holds the chip lock for the whole of a macro (R181).
-/
namespace Sys2Proof.Machine

/-- The address of word `i` of a patch, modulo 2^32 (R180). -/
def patchAddr (base : Word) (i : Nat) : Word := base + BitVec.ofNat 32 (4 * i)

/-- What a macro returns (R181, R183). -/
inductive MacroResult where
  | ok
  | patchError (index : Nat) (status : Status)
  | verifyError (index : Nat) (status : Status)
  | verifyMismatch (index : Nat) (expected actual : Word)
  deriving DecidableEq, Repr

/-- The state after a command; every command answers a next state. -/
def perform (i : Instr) (s : State) : State :=
  match exec i s with
  | .next t => t
  | .fault _ => s
  | .refused _ => s

/-- The status of the last response. After a command there is one (R90). -/
def State.status (s : State) : Status :=
  match s.resp with
  | some r => r.status
  | none => .illegalCommand

/-- The word of the last response, if it carries one (R92). -/
def State.responseWord (s : State) : Word :=
  match s.resp with
  | some { status := _, data := .word w } => w
  | _ => 0

/-- PATCH_OFFSET from word `i` on: in order, up to the first status other than OK (R181). -/
def patchFrom (base : Word) (i : Nat) (words : List Word) (s : State) : MacroResult × State :=
  match words with
  | [] => (.ok, s)
  | w :: rest =>
    let t := perform (.axiWrite (patchAddr base i) w) s
    if t.status = .ok then patchFrom base (i + 1) rest t else (.patchError i t.status, t)

/-- PATCH_OFFSET(words, base) (R181). -/
def patchOffset (words : List Word) (base : Word) (s : State) : MacroResult × State := patchFrom base 0 words s

/-- PATCH(words) (R182). -/
def patch (words : List Word) (s : State) : MacroResult × State := patchOffset words 0 s

/-- VERIFY from word `i` on: "does not continue past the first mismatch" (R183). -/
def verifyFrom (base : Word) (i : Nat) (words : List Word) (s : State) : MacroResult × State :=
  match words with
  | [] => (.ok, s)
  | w :: rest =>
    let t := perform (.axiRead (patchAddr base i)) s
    if t.status = .ok then
      if t.responseWord = w then verifyFrom base (i + 1) rest t
      else (.verifyMismatch i w t.responseWord, t)
    else (.verifyError i t.status, t)

/-- VERIFY(words, base) (R183). -/
def verify (words : List Word) (base : Word) (s : State) : MacroResult × State := verifyFrom base 0 words s

/-- A mismatch on the first verified word, which the host reports apart (R184). -/
def MacroResult.firstWordMismatch : MacroResult → Bool
  | .verifyMismatch index _ _ => index == 0
  | _ => false

/-- The commands that PATCH_OFFSET expands to when none fails (R99). -/
def patchCommands (words : List Word) (base : Word) : List Instr :=
  words.mapIdx fun i w => .axiWrite (patchAddr base i) w

/-- The commands that VERIFY expands to when none fails (R99). -/
def verifyCommands (words : List Word) (base : Word) : List Instr :=
  (List.range words.length).map fun i => .axiRead (patchAddr base i)

/-- The bootcode as words; a length that is no multiple of 4 is refused (R186, U1). -/
def bootcodeWords (order : ByteOrder) (blob : List Byte) : Option (List Word) :=
  match blob with
  | [] => some []
  | b0 :: b1 :: b2 :: b3 :: rest =>
    (bootcodeWords order rest).map fun ws => wordOfBytes order b0 b1 b2 b3 :: ws
  | _ => none

/-- The bytes of words in order: the bootcode that has these words (R55, R186). -/
def wordsBytes (order : ByteOrder) (words : List Word) : List Byte :=
  words.flatMap fun w => (List.range 4).map (wordByte order w)

/-- The loader's steps (R189). -/
inductive LoaderStep where
  /-- `init(chip)`. `givesUp` is the draw of its acquire: whether, with a bounded wait, it ends with `Busy`
  where it finds the lock held (R221). The rest is what the host reads of power-good: whether it is wired, and
  asserted (R191). -/
  | init (givesUp powerGoodWired powerGoodAsserted : Bool)
  | resetAsic
  | patch (words : List Word)
  | patchOffset (words : List Word) (base : Word)
  | verify (words : List Word) (base : Word)
  | softResetArc
  | teardown
  deriving DecidableEq, Repr

/-- Whether the step fails with `NotPowered`, without issuing any command (R191, R203). -/
def LoaderStep.notPowered : LoaderStep → Bool
  | .init _ wired asserted => wired && !asserted
  | _ => false

/-- The block commands of a loader step that meets no failure, in order (R189). -/
def LoaderStep.commands : LoaderStep → List Instr
  | .init givesUp wired asserted =>
    if LoaderStep.notPowered (.init givesUp wired asserted) then [] else [.tapReset]
  | .resetAsic => []
  | .patch words => patchCommands words 0
  | .patchOffset words base => patchCommands words base
  | .verify words base => verifyCommands words base
  | .softResetArc => []
  | .teardown => [.release]

/-- Whether the host goes on after the answer to the step's command number `k`: at the first failure it stops
(R181, R183), and a verify also at a word that differs (R183). -/
def LoaderStep.goesOn (step : LoaderStep) (k : Nat) (status : Status) (word : Word) : Bool :=
  match step with
  | .verify words _ => status == .ok && words[k]? == some word
  | _ => status == .ok

/-- The command that the host presents next in a step, the answers to the earlier ones being given: the
status, and the word that an OK carries. -/
def LoaderStep.nextCommand (step : LoaderStep) (answers : List (Status × Word)) : Option Instr :=
  if (answers.mapIdx fun k a => step.goesOn k a.1 a.2).all id then step.commands[answers.length]? else none

/-- What the host does at the lock before a step's commands (R189). Only `init` acquires: a teardown takes the
lock for granted that its init has kept (notes/assumptions/18.md). -/
def LoaderStep.opening (h : HostId) : LoaderStep → List HostAction
  | .init givesUp _ _ => [.acquire h givesUp]
  | _ => []

/-- Whether the step goes on after its opening: an `init` whose acquire was granted. One that ended with
`Busy` fails there (R203, R221), with no command and no lock. -/
def LoaderStep.opened (step : LoaderStep) (answer : LockAnswer) : Bool :=
  match step with
  | .init _ _ _ => answer == .granted
  | _ => true

/-- How the host presents a step's next command, after the answer to its acquire and those to its earlier
commands (R189). -/
def LoaderStep.nextAction (h : HostId) (step : LoaderStep) (answer : LockAnswer)
    (answers : List (Status × Word)) : Option HostAction :=
  if step.opened answer then (step.nextCommand answers).map fun i => .present h (encode i) else none

/-- What the host does at the lock after a step's commands, failed or not (R189). An `init` that fails at
TAP_RESET keeps the lock until the teardown (notes/assumptions/18.md). -/
def LoaderStep.closing (h : HostId) (step : LoaderStep) (answer : LockAnswer) : List HostAction :=
  if step.opened answer then
    match step with
    | .init givesUp wired asserted =>
      if LoaderStep.notPowered (.init givesUp wired asserted) then [.release h] else []
    | .teardown => [.release h]
    | _ => []
  else []

/-- A step's commands, at most `fuel` of them, each presented once the answer to the one before is in. -/
def LoaderStep.runFrom (step : LoaderStep) (fuel : Nat) (answers : List (Status × Word)) (s : State) : State :=
  match fuel with
  | 0 => s
  | fuel + 1 =>
    match step.nextCommand answers with
    | none => s
    | some i =>
      let t := perform i s
      step.runFrom fuel (answers ++ [(t.status, t.responseWord)]) t

/-- A loader step at the block after the answer to its acquire, its commands being alone on the port (R189,
R222). -/
def LoaderStep.run (step : LoaderStep) (answer : LockAnswer) (s : State) : State :=
  if step.opened answer then step.runFrom step.commands.length [] s else s

end Sys2Proof.Machine
end

