-- ==== Sys2Proof/Machine/Observe.lean ====
section
/-!
DEFINITION. What a run is observed by (spec/60_exceptions.md R224): the pin primitives of a command, and
the TMS and TDI sequences they put on the wire (spec/30_encoding.md R96).
-/
namespace Sys2Proof.Machine

/-- The pin events between two states of a run. -/
def newEvents (s t : State) : List PinEvent := t.trace.drop s.trace.length

/-- The events of primitives that all succeed. -/
def okEvents (ps : List PinPrim) : List PinEvent := ps.map fun p => { prim := p, ok := true }

/-- The (TMS, TDI) levels at each clock pulse, from the levels the lines had before (R96). -/
def wireTicks (events : List PinEvent) (tms tdi : Bool) : List (Bool × Bool) :=
  match events with
  | [] => []
  | e :: rest =>
    match e.ok, e.prim with
    | true, .set .tms b => wireTicks rest b tdi
    | true, .set .tdi b => wireTicks rest tms b
    | true, .toggle => (tms, tdi) :: wireTicks rest tms tdi
    | _, _ => wireTicks rest tms tdi

/-- The TMS levels of a command's clock pulses, in order. -/
def wireTms (events : List PinEvent) : List Bool := (wireTicks events false false).map Prod.fst

/-- The TDI levels of a command's clock pulses, in order. -/
def wireTdi (events : List PinEvent) : List Bool := (wireTicks events false false).map Prod.snd

/-- The bits that a scan of `n` bits captures from the draws, its first read being the command's read
number `first`: bit `j` is the level sampled on the tick that presents bit `j` (R116, R135). -/
def captured (s : State) (first n : Nat) : Bits :=
  (List.range n).map fun j => s.tdoAt (first + shiftIndex s.cfg.bitOrder n j)

/-- The mirror after a sequence of TMS levels (R111, R112). -/
def Mirror.walk (m : Mirror) (tms : List Bool) : Mirror := tms.foldl Mirror.next m

/-- The mirror states that a sequence of TMS levels enters, in order. -/
def Mirror.visits (m : Mirror) (tms : List Bool) : List Mirror :=
  match tms with
  | [] => []
  | b :: rest => m.next b :: Mirror.visits (m.next b) rest

end Sys2Proof.Machine
end

