-- ==== Sys2Proof/Machine/Target.lean ====
section
/-!
DEFINITION. The target contract (spec/20_memory.md R70 to R72): TC-TAP, TC-W and TC-R as a machine that
reacts to the pin primitives of a command. It is ASSUMED of the external target and no part of JTSEQ: no
command reads it, and a claim about target memory takes it as a premise. Where no rule says what the target
does, its effect is a free `OpenEffect` (notes/assumptions/13.md). Where the model settles a point of the
contract itself, notes/assumptions/21.md says so.
-/
namespace Sys2Proof.Machine

/-- A memory access the target performs (R71, R72). -/
inductive TargetAccess where
  | write (addr word : Word)
  | read (addr : Word)
  deriving DecidableEq, Repr

/-- Where a target's TAP and its two registers stand. -/
structure TapResidue where
  tap : TapState
  ir : Bits
  shift : Bits
  shifted : Nat
  deriving DecidableEq, Repr

/-- The read latch, between a read's Update-DR and the Capture-DR that loads its word (R72). -/
inductive ReadPhase where
  | none
  /-- The word is latched; it is valid when the ticks are over. -/
  | latched (ticks : Nat) (word : Word)
  deriving DecidableEq, Repr

/-- An effect that no rule describes: all of it is free. -/
structure OpenEffect where
  /-- The accesses it performs. -/
  accesses : List TargetAccess
  /-- The words of memory it changes at once, the last one first. -/
  stores : List (Word × Word)
  /-- The changes it leaves in flight: ticks to go, address, word. -/
  pending : List (Nat × Word × Word)
  /-- What it makes of the read latch, if it does not leave it as it is. -/
  latch : Option ReadPhase
  /-- What it puts on the parallel outputs of data registers, the last one first. -/
  drOut : List (Bits × Bits)
  /-- What a read latches whose result no rule gives (U11, U14, U15, U19). -/
  word : Word
  /-- What a data register updates after a scan of another length than its own (U18). -/
  vector : Bits
  /-- Where the TAP stands after a primitive of which no rule says what reached the wire (R202, R253). -/
  residue : TapResidue
  deriving DecidableEq, Repr

/-- What the contract leaves open of a target: each field is any function or number. -/
structure TargetWorld where
  /-- Bit `j` of what the `k`-th capture loads, where the contract does not say (U18). -/
  capture : Nat → Nat → Bool
  /-- The memory before the run, by word address (R40: unspecified). -/
  content : Word → Word
  /-- Which addresses have memory behind them: "the target contract holds only for the addresses a claim
  names as backed" (R51, R62). -/
  backed : Word → Bool
  /-- At which addresses a read has no side effect and repeats its word (R61). -/
  sideEffectFree : Word → Bool
  /-- The length of the data register that an instruction other than the bridge's selects (R52), or one that is
  the code of both ports. -/
  drLen : Bits → Nat
  /-- The instruction that Test-Logic-Reset selects (R137). -/
  resetIr : Bits
  /-- How many ticks a read needs (R72, R247). -/
  readTicks : Nat
  /-- How many ticks a write needs (R71, R248). -/
  writeTicks : Nat
  /-- The `k`-th effect that no rule describes. -/
  effect : Nat → OpenEffect

/-- The target's state (R36, R37). -/
structure Target where
  /-- Its TAP state. -/
  tap : TapState
  /-- Its instruction register. -/
  ir : Bits
  /-- The register between TDI and TDO, bit 0 at the TDO end (R70). -/
  shift : Bits
  /-- How many bits have been shifted since the last capture. -/
  shifted : Nat
  /-- The parallel outputs of the data registers: the instruction and the vector of each Update-DR, the last
  one first (R70, R137). -/
  drOut : List (Bits × Bits)
  /-- How many captures it has made. -/
  captures : Nat
  /-- How many effects that no rule describes it has met. -/
  draws : Nat
  /-- "The target core is halted": the premise of R65. It is the host's duty (R190), and no primitive
  changes it. -/
  coreHalted : Bool
  /-- A primitive has failed and no Test-Logic-Reset has followed (R250). -/
  aborted : Bool
  /-- The words stored so far, newest first. -/
  mem : List (Word × Word)
  /-- The writes in flight, oldest first: ticks to go, address, word (R37). -/
  writes : List (Nat × Word × Word)
  /-- The latched read (R37, R72). -/
  read : ReadPhase
  /-- The command is an AXI_READ that answers a word: the scans of its retrieve cause no access but those of
  R73. -/
  retrieving : Bool
  /-- The accesses started so far, oldest first. -/
  accesses : List TargetAccess
  deriving DecidableEq, Repr

/-- The word at a word address: that of the last completed write, else what was there before. -/
def Target.load (W : TargetWorld) (mem : List (Word × Word)) (addr : Word) : Word :=
  match mem with
  | [] => W.content addr
  | (a, w) :: rest => if a = addr then w else Target.load W rest addr

/-- The address that an address phase stands for, the inverse of `AddrPhase` (R71). -/
def phaseAddr (form : AddrPhaseForm) (p : Word) : Word :=
  match form with
  | .byte => p
  | .word => p <<< 2

/-! ## Effects that no rule describes -/

/-- An access outside the contract: whatever it does to memory. -/
def Target.stray (W : TargetWorld) (T : Target) : Target :=
  { T with
    mem := (W.effect T.draws).stores ++ T.mem
    writes := T.writes ++ (W.effect T.draws).pending
    draws := T.draws + 1 }

/-- "Any target access at all" (R73), and any change of memory (R250). Its accesses may be reads, so a word
latched before may stay, be lost, or be another (notes/assumptions/13.md). -/
def Target.havoc (W : TargetWorld) (T : Target) : Target :=
  { T.stray W with
    accesses := T.accesses ++ (W.effect T.draws).accesses
    drOut := (W.effect T.draws).drOut ++ T.drOut
    read := (W.effect T.draws).latch.getD T.read }

/-- A primitive of which no rule says what reached the wire: the TAP and its registers stand anywhere, and
what happened on the way is open (R185, R202, R206, R253). -/
def Target.disturb (W : TargetWorld) (T : Target) : Target :=
  { T.havoc W with
    tap := (W.effect T.draws).residue.tap
    ir := (W.effect T.draws).residue.ir
    shift := (W.effect T.draws).residue.shift
    shifted := (W.effect T.draws).residue.shifted }

/-! ## The registers -/

/-- A vector's bits in the order in which a scan moves them: that of the silicon, which BIT_ORDER names (R58,
notes/assumptions/14.md). It is its own inverse. -/
def wireOrder (order : BitOrder) (v : Bits) : Bits :=
  match order with
  | .lsbFirst => v
  | .msbFirst => v.reverse

/-- The vector that the register between TDI and TDO holds, its bits numbered as the scans number them. -/
def Target.vector (c : Config) (T : Target) : Bits := wireOrder c.bitOrder T.shift

/-- What an Update-DR under an instruction does. -/
inductive DrRole where
  /-- It performs the write of TC-W. -/
  | write
  /-- It starts the read of TC-R. -/
  | read
  /-- It ends a retrieve scan (R72, R172). -/
  | readData
  /-- The code is that of both ports: no rule says which access starts. It is still the bridge's, so loading it
  has no effect. -/
  | bothPorts
  /-- No rule says. -/
  | foreign
  deriving DecidableEq, Repr

/-- The role of an instruction. R10 lets one code name both the write port and the read port
(notes/assumptions/13.md). -/
def drRole (c : Config) (ir : Bits) : DrRole :=
  if ir = c.irAxiWrite then (if c.irAxiRead = c.irAxiWrite then .bothPorts else .write)
  else if ir = c.irAxiRead then .read
  else if some ir = c.irAxiReadData then .readData
  else .foreign

/-- Whether the register the instruction selects returns read data (R72). -/
def readsBack (c : Config) (ir : Bits) : Bool := ir == c.irAxiReadData.getD c.irAxiRead

/-- The length of the selected data register (R71, R72, R52). -/
def Target.drLen (W : TargetWorld) (c : Config) (ir : Bits) : Nat :=
  match drRole c ir with
  | .write => c.axiWrDrLen
  | .read => c.axiRdDrLen
  | .readData => c.axiRdDrLen
  | .bothPorts => W.drLen ir
  | .foreign => W.drLen ir

/-- The word that the next Capture-DR loads, once the read is complete (R72). -/
def ReadPhase.ready : ReadPhase → Option Word
  | .latched 0 w => some w
  | .latched (_ + 1) _ => .none
  | .none => .none

/-- What Capture-DR loads: the latched word in its field, once the read is complete; else open (R72,
U12). -/
def Target.drCapture (W : TargetWorld) (c : Config) (T : Target) : Bits :=
  wireOrder c.bitOrder <| (List.range (Target.drLen W c T.ir)).map fun j =>
    match T.read.ready with
    | some w =>
      if readsBack c T.ir && c.axiRdDataLsb ≤ j && j < c.axiRdDataLsb + 32 then w.getLsbD (j - c.axiRdDataLsb)
      else W.capture T.captures j
    | .none => W.capture T.captures j

/-- Memory that the contract speaks of: an aligned word with something behind it (R51). -/
def TargetWorld.writable (W : TargetWorld) (addr : Word) : Bool := aligned addr && W.backed addr

/-- Memory whose reads the contract speaks of (R51, R61). -/
def TargetWorld.readable (W : TargetWorld) (addr : Word) : Bool := W.writable addr && W.sideEffectFree addr

/-- The write of TC-W (R71). At an address that is no memory it is an access whose effect is open. -/
def Target.write (W : TargetWorld) (T : Target) (addr word : Word) : Target :=
  if W.writable addr then
    { T with
      accesses := T.accesses ++ [.write addr word]
      mem := if W.writeTicks = 0 then (addr, word) :: T.mem else T.mem
      writes := if W.writeTicks = 0 then T.writes else T.writes ++ [(W.writeTicks, addr, word)] }
  else Target.stray W { T with accesses := T.accesses ++ [.write addr word] }

/-- The read of TC-R (R72): it latches the word at the address. The word is open where the address is no
memory free of side effects, where a write is still in flight (R64 condition 2) and where the core runs
(R65); and so is what the read does to memory where the address is none. -/
def Target.startRead (W : TargetWorld) (T : Target) (addr : Word) : Target :=
  if W.readable addr && T.coreHalted && T.writes.isEmpty then
    { T with
      accesses := T.accesses ++ [.read addr]
      read := .latched W.readTicks (Target.load W T.mem addr) }
  else if W.readable addr then
    { T with
      accesses := T.accesses ++ [.read addr]
      read := .latched W.readTicks (W.effect T.draws).word
      draws := T.draws + 1 }
  else
    Target.stray W
      { T with
        accesses := T.accesses ++ [.read addr]
        read := .latched W.readTicks (W.effect T.draws).word }

/-- Update-DR acts on the vector in the selected register. The data instruction's is quiet in an AXI_READ that
answers a word: R73 says that no access but the read is caused. Elsewhere "the raw scan's Update-DR may start a
target memory access" (R249), whatever the scan and whatever is latched. -/
def Target.startAccess (W : TargetWorld) (c : Config) (T : Target) : Target :=
  match drRole c T.ir with
  | .write =>
    T.write W (phaseAddr c.addrPhaseForm ((T.vector c).wordAt c.axiWrAddrLsb)) ((T.vector c).wordAt c.axiWrDataLsb)
  | .read => T.startRead W (phaseAddr c.addrPhaseForm ((T.vector c).wordAt c.axiRdAddrLsb))
  | .readData => if T.retrieving then T else T.havoc W
  | .bothPorts => T.havoc W
  | .foreign => T.havoc W

/-- What Update-DR transfers from a data register of `n` bits: the shifted vector, if the scan was as long as the
register (U18). -/
def Target.settle (W : TargetWorld) (n : Nat) (T : Target) : Target :=
  if T.shifted = n then T
  else { T with shift := (W.effect T.draws).vector, draws := T.draws + 1 }

/-- Update-DR: the vector goes to the register's parallel output (R70, R137), and acts there. -/
def Target.updateDr (W : TargetWorld) (c : Config) (T : Target) : Target :=
  let S := T.settle W (Target.drLen W c T.ir)
  Target.startAccess W c { S with drOut := (T.ir, S.vector c) :: T.drOut }

/-- Update-IR: what the shift register holds becomes the instruction and selects its register (R70). The scan
need not be `IR_LEN` bits long: of a longer one the last `IR_LEN` bits are there, of a shorter one all bits and
part of what Capture-IR loaded (R134, notes/assumptions/21.md). Loading a foreign instruction may have any effect
(R73). -/
def Target.updateIr (W : TargetWorld) (c : Config) (T : Target) : Target :=
  if drRole c (T.vector c) = .foreign then Target.havoc W { T with ir := T.vector c }
  else { T with ir := T.vector c }

/-- Test-Logic-Reset selects its instruction (R137). The first one after a pin failure may change any word of
memory (R250); one that takes a foreign instruction away may act in any way (R134). -/
def Target.resetTap (W : TargetWorld) (c : Config) (T : Target) : Target :=
  if T.aborted || (drRole c T.ir = .foreign && T.ir != W.resetIr) then
    { T.havoc W with ir := W.resetIr, aborted := false }
  else { T with ir := W.resetIr }

/-! ## Ticks -/

/-- One tick less for a read in flight. -/
def ReadPhase.age : ReadPhase → ReadPhase
  | .latched n w => .latched (n - 1) w
  | .none => .none

/-- One tick passes for the accesses in flight: a write whose ticks are over completes. A running core may
write any word (R65). -/
def Target.age (W : TargetWorld) (T : Target) : Target :=
  { T with
    mem := (if T.coreHalted then [] else (W.effect T.draws).stores) ++
      ((T.writes.filter fun p => p.1 ≤ 1).map Prod.snd).reverse ++ T.mem
    writes := (T.writes.filter fun p => 1 < p.1).map fun p => (p.1 - 1, p.2)
    read := T.read.age
    draws := if T.coreHalted then T.draws else T.draws + 1 }

/-- What a tick does in the state it leaves: Capture loads the register, Shift moves TDI in at the most
significant end (R70). Capture-DR uses the read latch up: "at the next Capture-DR, the target loads `L`" (R72),
and no rule says what a later one loads. -/
def Target.leave (W : TargetWorld) (c : Config) (T : Target) (tdi : Bool) : Target :=
  match T.tap with
  | .captureIr =>
    { T with
      shift := (List.range c.irLen).map (W.capture T.captures)
      shifted := 0
      captures := T.captures + 1 }
  | .captureDr =>
    { T with
      shift := T.drCapture W c
      shifted := 0
      captures := T.captures + 1
      read := .none }
  | .shiftIr => { T with shift := T.shift.tail ++ [tdi], shifted := T.shifted + 1 }
  | .shiftDr => { T with shift := T.shift.tail ++ [tdi], shifted := T.shifted + 1 }
  | _ => T

/-- What the target does on entering a state (R70 to R72). -/
def Target.enter (W : TargetWorld) (c : Config) (T : Target) : Target :=
  match T.tap with
  | .updateIr => T.updateIr W c
  | .updateDr => T.updateDr W c
  | .testLogicReset => T.resetTap W c
  | _ => T

/-- The target at a rising TCK edge (R70). -/
def Target.tick (W : TargetWorld) (c : Config) (T : Target) (tms tdi : Bool) : Target :=
  let L := (T.age W).leave W c tdi
  Target.enter W c { L with tap := L.tap.next tms }

/-- The level the target presents on TDO: the register's bit 0 (R70). -/
def Target.tdo (T : Target) : Bool := T.shift.bit 0

/-- The target's reaction to pin events, from the TMS and TDI levels they start at: its state after them,
and the TDO levels it presented at the reads, in order. -/
def Target.react (W : TargetWorld) (c : Config) (events : List PinEvent) (tms tdi : Bool) (T : Target) :
    Target × List Bool :=
  match events with
  | [] => (T, [])
  | e :: rest =>
    match e.ok, e.prim with
    | false, _ => Target.react W c rest tms tdi { T.disturb W with aborted := true }
    | true, .releaseLine _ => Target.react W c rest tms tdi (T.disturb W)
    | true, .set .tck _ => Target.react W c rest tms tdi T
    | true, .set .tms b => Target.react W c rest b tdi T
    | true, .set .tdi b => Target.react W c rest tms b T
    | true, .readTdo => ((Target.react W c rest tms tdi T).1, T.tdo :: (Target.react W c rest tms tdi T).2)
    | true, .toggle => Target.react W c rest tms tdi (T.tick W c tms tdi)

/-- Whether a response is that of an AXI_READ that answers a word (R92). -/
def State.readAnswered (t : State) : Bool :=
  match t.resp with
  | some { status := .ok, data := .word _ } => true
  | _ => false

/-- The target's reaction to the command that led from `s` to `t`. -/
def Target.reaction (W : TargetWorld) (s t : State) (T : Target) : Target × List Bool :=
  ({ T with retrieving := t.readAnswered } : Target).react W s.cfg (newEvents s t) false false

/-- The target after a command that led from `s` to `t`. -/
def Target.after (W : TargetWorld) (s t : State) (T : Target) : Target := (T.reaction W s t).1

/-- The TDO answers of the command performed at `s`, which leads to `t`, are those of the target `T`: the
premise that ties the pin layer's draws to the contract (R54, R73). -/
abbrev Target.drives (W : TargetWorld) (s t : State) (T : Target) : Prop :=
  (T.reaction W s t).2 = (List.range (T.reaction W s t).2.length).map fun k => s.tdoAt (k + 1)

end Sys2Proof.Machine
end

