-- ==== Sys2Proof/Safety.lean ====
section
/-!
DEFINITION. What counts as a safe run, in the terms that claims use: the premise `NoPinFault`
(spec/70_reset_and_hazards.md R245), the invariants between commands (spec/10_state.md R38, R39), and a
good final state (spec/60_exceptions.md R224).
-/
namespace Sys2Proof.Machine

/-- `NoPinFault` for the command about to be performed: every `ok_k` is success (R245). -/
def State.NoPinFault (s : State) : Prop := ∀ k, s.okAt k = true

/-- The mirror is in one of the two states a scan may start from (R116, R204). -/
abbrev State.IdleTap (s : State) : Prop :=
  s.tap = .known .testLogicReset ∨ s.tap = .known .runTestIdle

/-- A session in which the next command meets no pin failure: what `HW` results take as premises (R204,
R245). -/
abbrev State.LiveSession (s : State) : Prop :=
  s.claimed = true ∧ s.IdleTap ∧ s.pinsReady = true ∧ s.NoPinFault

/-- R38: between commands the mirror is in Test-Logic-Reset, in Run-Test/Idle, or unknown. -/
abbrev State.TapOk (s : State) : Prop := s.tap = .unknown ∨ s.IdleTap

/-- R39, its first sentence: without a session the mirror is unknown. -/
abbrev State.SessionOk (s : State) : Prop := s.claimed = false → s.tap = .unknown

/-- While the mirror is known, TCK is driven low and TMS and TDI are driven (R24; R39, whose "unless a pin
failure left it so" is the unknown mirror of R206); TCK is high only inside a pulse (R26). -/
abbrev State.PinsOk (s : State) : Prop :=
  s.tck ≠ .high ∧ (s.tap ≠ .unknown → s.tck = .low ∧ s.tms ≠ .z ∧ s.tdi ≠ .z)

/-- The buffer keeps its canonical form, and an `HW` instance has none (R31). -/
abbrev State.BufferOk (s : State) : Prop :=
  Memory.wf s.cfg s.emul ∧ (s.cfg.backend = .hw → s.emul = [])

/-- The shift register holds no more than its length (R21). -/
abbrev State.ShiftRegOk (s : State) : Prop :=
  s.srOut.length ≤ s.cfg.shiftRegBits ∧ s.srIn.length ≤ s.cfg.shiftRegBits

/-- The block never answers BUSY (R201, U24), and an error carries no data (R92). -/
def State.respOk (s : State) : Bool :=
  match s.resp with
  | none => true
  | some r => r.status != .busy && (r.status == .ok || r.data == .none)

/-- The invariant of an instance between commands, and between the hosts' actions. -/
abbrev State.Inv (s : State) : Prop :=
  s.cfg.valid = true ∧ s.TapOk ∧ s.SessionOk ∧ s.PinsOk ∧ s.BufferOk ∧ s.ShiftRegOk ∧ s.respOk = true

/-- A run is over: nothing is left to present or to perform, and no host holds the lock (R224). -/
def State.runOver (s : State) : Bool := s.hostQueue.isEmpty && s.port.isEmpty && s.lock.isNone

/-- "A final state with `s.refused = true` is never a good final state" (R224). -/
def State.goodFinal (s : State) : Bool := s.runOver && !s.refused

end Sys2Proof.Machine
end

