-- ==== Sys2Proof/Certificates/Slice0/Obligations.lean ====
section
/-!
DEFINITION. The statements. Each docstring names the rule of spec/ it formalises; ids, tiers and quotes
are in OBLIGATIONS.json. The definitions under `Sys2Proof.Spec` say the spec's tables over numbers, apart
from the model's own decoder and operations.
-/
namespace Sys2Proof.Spec

open Sys2Proof.Machine

/-- Header field OP: bits [3:0] (R81). -/
def op (h : Word) : Nat := h.toNat % 16

/-- Header field LEN: bits [15:8] (R81). -/
def len (h : Word) : Nat := h.toNat / 256 % 256

/-- R86, clause by clause. -/
def headerValid (c : Config) (h : Word) : Prop :=
  (1 ≤ op h ∧ op h ≤ 6) ∧ (h.toNat / 16 % 16 = 0 ∧ h.toNat / 65536 = 0) ∧
    ((op h = 2 ∨ op h = 3) → 1 ≤ len h ∧ len h ≤ c.maxShiftBits) ∧
    (¬(op h = 2 ∨ op h = 3) → len h = 0)

/-- `ceil(n/32)` (R83). -/
def ceilWords (n : Nat) : Nat := (n + 31) / 32

/-- The length of a command with a valid header, in words (R85). -/
def commandWords (h : Word) : Nat :=
  if op h = 2 ∨ op h = 3 then 1 + ceilWords (len h) else if op h = 4 then 3 else if op h = 5 then 2 else 1

/-- Bit `j` of the bits that words carry, bit 0 first (R83). -/
def wordsBit (ws : List Word) (j : Nat) : Bool := (ws.getD (j / 32) 0).getLsbD (j % 32)

/-- The state after a response and nothing else: `s.resp`, and the model's own account of the pin
layer's draws (notes/assumptions/2.md). -/
def answered (s : State) (st : Status) (d : RespData) : State :=
  { s with resp := some { status := st, data := d }, answers := s.answers.tail, drawNo := s.drawNo + 1 }

/-- What a scan of `v` that is the last of a command leaves in the block, its first read being the
command's read number `first` (R116, R117). -/
def afterScan (s : State) (first : Nat) (v : Bits) (prims : List PinPrim) : State :=
  { s with
    tap := .known .runTestIdle
    tck := .low
    tms := .low
    tdi := .low
    srOut := v
    srIn := captured s first v.length
    trace := s.trace ++ okEvents prims }

/-- The primitives of a scan (R113, R116). -/
def scanPrims (s : State) (kind : ScanKind) (start : Mirror) (v : Bits) : List PinPrim :=
  ticksPrims (scanTicks s.cfg.bitOrder kind start v)

/-- The bit that a scan of `n` bits presents on its shift tick `i` (R116). -/
def presented (order : BitOrder) (n i : Nat) : Nat :=
  match order with
  | .lsbFirst => i
  | .msbFirst => n - 1 - i

/-- The walk-in of R96, as TMS levels. -/
def walkInTms (kind : ScanKind) (start : Mirror) : List Bool :=
  (if start = .known .testLogicReset then [false] else []) ++
    (match kind with
      | .ir => [true, true, false, false]
      | .dr => [true, false, false])

/-- The ticks of a scan from Run-Test/Idle (R96). -/
def scanLength (kind : ScanKind) (n : Nat) : Nat :=
  match kind with
  | .ir => n + 6
  | .dr => n + 5

/-- The states a scan of `n` bits enters (R117). -/
def scanVisits (kind : ScanKind) (start : Mirror) (n : Nat) : List Mirror :=
  (if start = .known .testLogicReset then [.known .runTestIdle] else []) ++
    (match kind with
      | .dr => [.known .selectDrScan, .known .captureDr] ++ List.replicate n (.known .shiftDr) ++
          [.known .exit1Dr, .known .updateDr, .known .runTestIdle]
      | .ir => [.known .selectDrScan, .known .selectIrScan, .known .captureIr] ++
          List.replicate n (.known .shiftIr) ++ [.known .exit1Ir, .known .updateIr, .known .runTestIdle])

/-- Whether an IR capture passes `IR_CAPTURE_CHECK` (R153). -/
def checkPasses (c : Config) (capture : Bits) : Prop :=
  match c.irCaptureCheck with
  | none => True
  | some (expect, mask) => capture.and mask = expect

/-- The levels of the outputs after pin events, from the successful ones alone (R24, R26). -/
def levels (events : List PinEvent) (l : Level × Level × Level) : Level × Level × Level :=
  match events with
  | [] => l
  | e :: rest =>
    match e.ok, e.prim with
    | true, .set .tck b => levels rest (Level.ofBool b, l.2)
    | true, .set .tms b => levels rest (l.1, Level.ofBool b, l.2.2)
    | true, .set .tdi b => levels rest (l.1, l.2.1, Level.ofBool b)
    | true, .toggle => levels rest (.low, l.2)
    | true, .releaseLine .tck => levels rest (.z, l.2)
    | true, .releaseLine .tms => levels rest (l.1, .z, l.2.2)
    | true, .releaseLine .tdi => levels rest (l.1, l.2.1, .z)
    | _, _ => levels rest l

/-- The commands that need `pins_ready ∧ s.claimed ∧ s.tap ≠ UNKNOWN` (R204). -/
def needsSession (c : Config) : Instr → Prop
  | .tapReset => False
  | .shiftIr _ => True
  | .shiftDr _ => True
  | .axiWrite _ _ => c.backend = .hw
  | .axiRead _ => c.backend = .hw
  | .release => False

/-- A command without the readiness it needs (R204). -/
def notReady (i : Instr) (s : State) : Prop :=
  (i = .tapReset ∧ s.pinsReady = false) ∨
    (needsSession s.cfg i ∧ ¬(s.pinsReady = true ∧ s.claimed = true ∧ s.tap ≠ .unknown))

/-- The commands, one after another. -/
def performAll (is : List Instr) (s : State) : State := is.foldl (fun s i => perform i s) s

/-- R10, parameter by parameter: the domains of its table and the constraints below it. Only an `EMUL`
instance has a buffer (R31). -/
def parametersOk (c : Config) : Prop :=
  5 ≤ c.resetTcks ∧ (1 ≤ c.maxShiftBits ∧ c.maxShiftBits ≤ 255) ∧
  (1 ≤ c.irLen ∧ c.irLen ≤ 255) ∧ c.irAxiWrite.length = c.irLen ∧ c.irAxiRead.length = c.irLen ∧
  (∀ d, c.irAxiReadData = some d → d.length = c.irLen) ∧
  (∀ expect mask, c.irCaptureCheck = some (expect, mask) →
    expect.length = c.irLen ∧ mask.length = c.irLen ∧ ∀ j, expect.bit j = true → mask.bit j = true) ∧
  (32 ≤ c.axiWrDrLen ∧ c.axiWrDrLen ≤ 255) ∧ (32 ≤ c.axiRdDrLen ∧ c.axiRdDrLen ≤ 255) ∧
  c.axiWrDataLsb + 32 ≤ c.axiWrDrLen ∧ c.axiWrAddrLsb + 32 ≤ c.axiWrDrLen ∧
  (∀ j, ¬((c.axiWrDataLsb ≤ j ∧ j ≤ c.axiWrDataLsb + 31) ∧ (c.axiWrAddrLsb ≤ j ∧ j ≤ c.axiWrAddrLsb + 31))) ∧
  c.axiRdAddrLsb + 32 ≤ c.axiRdDrLen ∧ c.axiRdDataLsb + 32 ≤ c.axiRdDrLen ∧
  (c.backend = .hw → c.emulInit = [])

/-- The host identities whose `release` stands in a queue. -/
def releases (q : List HostAction) (h : HostId) : Prop := HostAction.release h ∈ q

end Sys2Proof.Spec

open Sys2Proof Sys2Proof.Machine

/-! ## Reset, the step and the invariant -/

/-- R40: the block's power-on state, field by field, for every choice of parameters. -/
def Obligations.PowerOnStateIsTheListedOne : Prop :=
  ∀ c : Config,
    (State.powerOn c).tap = .unknown ∧ (State.powerOn c).claimed = false ∧
    (State.powerOn c).tck = .z ∧ (State.powerOn c).tms = .z ∧ (State.powerOn c).tdi = .z ∧
    (State.powerOn c).srOut = [] ∧ (State.powerOn c).srIn = [] ∧ (State.powerOn c).resp = none ∧
    (State.powerOn c).lock = none ∧ (State.powerOn c).refused = false ∧
    ∀ a, a < c.emulLen → c.emulInit[a]? = some (Memory.read c (State.powerOn c).emul a)

/-- R88 and R240: while no command is complete on the port and no host has anything it can do, a step
changes nothing, whatever the state; and "after power-on it waits for the first command". -/
def Obligations.PowerOnWaitsForACommand : Prop :=
  (∀ s : State, s.fetch = .incomplete → pickAction s [] s.hostQueue = none → step s = .next s) ∧
  ∀ c : Config, step (State.powerOn c) = .next (State.powerOn c)

/-- R10: an instance is constructed exactly when its parameters meet the domains and constraints that R10
lists, spelled out in `Spec.parametersOk`; it then stands in the power-on state, which meets the invariant.
So does `State.reset`, the power-on state at the parameters of `Config.default`: those are the model's choice
(notes/assumptions/1.md). -/
def Obligations.ConstructedInstancesMeetTheInvariant : Prop :=
  (∀ c : Config,
    (Spec.parametersOk c → construct c = .ok (State.powerOn c) ∧ (State.powerOn c).Inv) ∧
    (¬ Spec.parametersOk c → construct c = .error .badParameters)) ∧
  State.reset = State.powerOn Config.default ∧ State.reset.Inv

/-- The invariant of Safety.lean (R38, R39 first sentence, R24, R31, R21, R92): every step keeps it, from every
state that has it. Two of its clauses are the model's: the canonical form of the buffer is a design choice
(notes/assumptions/12.md), and that the levels of the lines are stated only while the mirror is known is
deduced (notes/assumptions/11.md). -/
def Obligations.StepKeepsTheInvariant : Prop :=
  ∀ s t : State, s.Inv → step s = .next t → t.Inv

/-- Buffers in the model's canonical form that read the same are the same data. The form is the model's
choice (notes/assumptions/12.md); no rule speaks of it. -/
def Obligations.BuffersThatReadAlikeAreEqual : Prop :=
  ∀ (c : Config) (m m' : Memory), Memory.wf c m → Memory.wf c m' →
    (∀ a, Memory.read c m a = Memory.read c m' a) → m = m'

/-- A step runs the command that the words on the port decode to, once its presenter holds the lock, and
takes exactly its words off the port (R20, R88, R221). -/
def Obligations.StepRunsTheDecodedCommand : Prop :=
  ∀ (s : State) (h : HostId) (i : Instr) (n : Nat),
    s.presenter = some h → s.lock = some h → decode s.cfg s.port = .command i n →
    step s = exec i
      { s with
        port := s.port.drop n
        presenter := if s.port.drop n = [] then none else some h }

/-- R29: `s.refused` "is set to `true` when the block answers `ILLEGAL_COMMAND`, and no step clears it": after
a step it is set exactly if it was set before or the step met an illegal command on the port. -/
def Obligations.NoStepClearsTheRefusedMark : Prop :=
  ∀ s t : State, step s = .next t →
    (t.refused = true ↔ s.refused = true ∨ ∃ why n, s.fetch = .illegal why n)

/-- R35: nothing reads or writes a parameter as state; every step of the machine keeps them all. -/
def Obligations.NothingWritesAParameter : Prop :=
  ∀ s t : State, step s = .next t → t.cfg = s.cfg

/-! ## Encoding -/

/-- R86: the header check accepts exactly the valid headers, and an invalid one is refused. -/
def Obligations.ValidHeadersAreTheAcceptedOnes : Prop :=
  ∀ (c : Config) (h : Word), ((∃ o, checkHeader c h = .ok o) ↔ Spec.headerValid c h) ∧
    (¬ Spec.headerValid c h → ∀ rest, ∃ why, decode c (h :: rest) = .illegal why 1)

/-- R85: the header alone fixes how many words the decoder consumes; an invalid header has length 1; a
shorter rest is no command yet. -/
def Obligations.HeaderFixesTheLength : Prop :=
  ∀ (c : Config) (h : Word) (rest : List Word),
    (¬ Spec.headerValid c h → ∃ why, decode c (h :: rest) = .illegal why 1) ∧
    (Spec.headerValid c h → rest.length + 1 < Spec.commandWords h → decode c (h :: rest) = .incomplete) ∧
    (Spec.headerValid c h → Spec.commandWords h ≤ rest.length + 1 →
      (∃ i, decode c (h :: rest) = .command i (Spec.commandWords h)) ∨
        (∃ why, decode c (h :: rest) = .illegal why (Spec.commandWords h)))

/-- R83: the vector that a SHIFT's operand words carry. -/
def Obligations.ShiftOperandLayout : Prop :=
  ∀ (c : Config) (h : Word) (rest : List Word) (v : Bits) (i : Instr) (n : Nat),
    decode c (h :: rest) = .command i n → (i = .shiftIr v ∨ i = .shiftDr v) →
    v.length = Spec.len h ∧ n = 1 + Spec.ceilWords (Spec.len h) ∧
    (∀ j, j < Spec.len h → v.bit j = Spec.wordsBit rest j) ∧
    (∀ j, Spec.len h ≤ j → j < 32 * Spec.ceilWords (Spec.len h) → Spec.wordsBit rest j = false)

/-- R87: a SHIFT is refused for its operand exactly when a bit of its last operand word at a position at
or above `n` is 1; the AXI operand words have no invalid value. -/
def Obligations.OperandValidity : Prop :=
  (∀ (c : Config) (h : Word) (rest : List Word), Spec.headerValid c h → (Spec.op h = 2 ∨ Spec.op h = 3) →
    Spec.ceilWords (Spec.len h) ≤ rest.length →
    (decode c (h :: rest) = .illegal .operandBits (1 + Spec.ceilWords (Spec.len h)) ↔
      ∃ j, Spec.len h ≤ j ∧ j < 32 * Spec.ceilWords (Spec.len h) ∧ Spec.wordsBit rest j = true)) ∧
  (∀ (c : Config) (addr word : Word) (rest : List Word),
    decode c (0x00000004 :: addr :: word :: rest) = .command (.axiWrite addr word) 3 ∧
    decode c (0x00000005 :: addr :: rest) = .command (.axiRead addr) 2)

/-- R95: the three kinds of illegal command, and what the block does with one: no primitive, no memory
access, no change but the response and the mark `s.refused` (and the words consumed from the port). -/
def Obligations.IllegalCommandsAreRefused : Prop :=
  (∀ (c : Config) (h : Word) (rest : List Word),
    (¬ Spec.headerValid c h → ∃ why, decode c (h :: rest) = .illegal why 1) ∧
    ((Spec.op h = 0 ∨ 7 ≤ Spec.op h) → ∃ why, decode c (h :: rest) = .illegal why 1) ∧
    (Spec.headerValid c h → (Spec.op h = 2 ∨ Spec.op h = 3) → Spec.ceilWords (Spec.len h) ≤ rest.length →
      (∃ j, Spec.len h ≤ j ∧ j < 32 * Spec.ceilWords (Spec.len h) ∧ Spec.wordsBit rest j = true) →
      ∃ why n, decode c (h :: rest) = .illegal why n)) ∧
  (∀ (s : State) (h : HostId) (why : IllegalReason) (n : Nat),
    s.presenter = some h → s.lock = some h → decode s.cfg s.port = .illegal why n →
    step s = .next
      { s with
        port := s.port.drop n
        presenter := if s.port.drop n = [] then none else some h
        refused := true
        resp := some { status := .illegalCommand, data := .none }
        answers := s.answers.tail
        drawNo := s.drawNo + 1 })

/-- Decode and encode agree: every well-formed command's words, whatever follows them, decode to it, for
every operand value (R81 to R88). -/
def Obligations.DecodingUndoesEncoding : Prop :=
  ∀ (c : Config) (i : Instr) (rest : List Word), c.valid = true → i.wf c = true →
    decode c (encode i ++ rest) = .command i (encode i).length

/-- Every command the decoder answers is well formed, and the words it was read from are its encoding:
"one vector has one encoding" (D36), and no command has two. -/
def Obligations.EncodingUndoesDecoding : Prop :=
  ∀ (c : Config) (ws : List Word) (i : Instr) (n : Nat), c.valid = true → decode c ws = .command i n →
    i.wf c = true ∧ n ≤ ws.length ∧ ws.take n = encode i

/-- The command words that the spec writes out (V-ENC-1) decode to their commands. -/
def Obligations.WrittenOutWordsDecode : Prop :=
  decode Config.default [0x00000001] = .command .tapReset 1 ∧
  decode Config.default [0x00000802, 0x00000002] = .command (.shiftIr (Bits.ofNat 8 0x02)) 2 ∧
  decode Config.default [0x00002003, 0xCAFEF00D] = .command (.shiftDr (Bits.ofNat 32 0xCAFEF00D)) 2 ∧
  decode Config.default [0x00004003, 0x89ABCDEF, 0x01234567] =
    .command (.shiftDr (Bits.ofNat 64 0x0123456789ABCDEF)) 3 ∧
  decode Config.default [0x00000004, 0x00001000, 0xDEADBEEF] = .command (.axiWrite 0x1000 0xDEADBEEF) 3 ∧
  decode Config.default [0x00000005, 0x00001000] = .command (.axiRead 0x1000) 2 ∧
  decode Config.default [0x00000006] = .command .release 1

/-! ## Responses -/

/-- R92: the data words of a response, by command and status, for every command in every state. -/
def Obligations.ResponseDataFollowsTheCommand : Prop :=
  ∀ (i : Instr) (s t : State), exec i s = .next t →
    ∃ r, t.resp = some r ∧
      (r.status ≠ .ok → r.words = [r.status.word]) ∧
      (r.status = .ok → match i with
        | .tapReset => r.words = [0]
        | .axiWrite _ _ => r.words = [0]
        | .release => r.words = [0]
        | .axiRead _ => ∃ w, r.data = .word w ∧ r.words = [0, w]
        | .shiftIr v => ∃ cap ws, r.data = .capture cap ∧ cap.length = v.length ∧ r.words = 0 :: ws ∧
            ws.length = Spec.ceilWords v.length ∧
            (∀ j, j < v.length → Spec.wordsBit ws j = cap.bit j) ∧
            (∀ j, v.length ≤ j → Spec.wordsBit ws j = false)
        | .shiftDr v => ∃ cap ws, r.data = .capture cap ∧ cap.length = v.length ∧ r.words = 0 :: ws ∧
            ws.length = Spec.ceilWords v.length ∧
            (∀ j, j < v.length → Spec.wordsBit ws j = cap.bit j) ∧
            (∀ j, v.length ≤ j → Spec.wordsBit ws j = false))

/-- R90: the layout of the status word; R91: its codes. The block never answers BUSY (R201). -/
def Obligations.StatusWordsCarryTheCodes : Prop :=
  (∀ st : Status, st.word.toNat = (match st with
    | .ok => 0
    | .deviceNotReady => 1
    | .protocolError => 2
    | .ioError => 3
    | .busy => 4
    | .illegalCommand => 5
    | .alignmentError => 6)) ∧
  (∀ (i : Instr) (s t : State), exec i s = .next t → ∀ r, t.resp = some r → r.status ≠ .busy)

/-! ## The TAP state machine, the scan and the wire -/

/-- R119: the five-tick property, its tightness, and that any larger count works. -/
def Obligations.FiveTicksReachTestLogicReset : Prop :=
  (∀ (t : TapState) (n : Nat), 5 ≤ n →
    (Mirror.known t).walk (List.replicate n true) = .known .testLogicReset) ∧
  (Mirror.known .shiftDr).walk (List.replicate 4 true) = .known .selectIrScan

/-- R117: what a scan that no pin failure interrupts leaves, its ticks, its primitives and the mirror
states it visits. -/
def Obligations.ScanWithoutPinFailure : Prop :=
  ∀ (kind : ScanKind) (v : Bits) (r : Run), r.st.NoPinFault → r.st.IdleTap → 1 ≤ v.length →
    ∃ r', scan kind v r = .going r' ∧
      r'.st.tap = .known .runTestIdle ∧ r'.st.tms = .low ∧ r'.st.tdi = .low ∧ r'.st.tck = .low ∧
      r'.st.srOut = v ∧ r'.st.srIn = captured r.st (r.reads + 1) v.length ∧
      (wireTms (newEvents r.st r'.st)).length =
        Spec.scanLength kind v.length + (if r.st.tap = .known .testLogicReset then 1 else 0) ∧
      (newEvents r.st r'.st).length = 3 * (wireTms (newEvents r.st r'.st)).length + v.length ∧
      r.st.tap.visits (wireTms (newEvents r.st r'.st)) = Spec.scanVisits kind r.st.tap v.length

/-- R96: the TMS and TDI sequences of the reset sequence, of a scan from either idle state, and of an idle
wait. -/
def Obligations.WireSequences : Prop :=
  (∀ r : Run, r.st.NoPinFault → ∃ r', resetSeq r = .going r' ∧
    wireTms (newEvents r.st r'.st) = List.replicate r.st.cfg.resetTcks true ∧
    wireTdi (newEvents r.st r'.st) = List.replicate r.st.cfg.resetTcks false) ∧
  (∀ (kind : ScanKind) (v : Bits) (r : Run), r.st.NoPinFault → r.st.IdleTap → 1 ≤ v.length →
    ∃ r', scan kind v r = .going r' ∧
      wireTms (newEvents r.st r'.st) = Spec.walkInTms kind r.st.tap ++
        (List.replicate (v.length - 1) false ++ [true]) ++ [true, false] ∧
      wireTdi (newEvents r.st r'.st) = (Spec.walkInTms kind r.st.tap).map (fun _ => false) ++
        (List.range v.length).map (fun i => v.bit (Spec.presented r.st.cfg.bitOrder v.length i)) ++
        [false, false]) ∧
  (∀ (k : Nat) (r : Run), r.st.NoPinFault → r.st.tap = .known .runTestIdle →
    ∃ r', idleWait k r = .going r' ∧ r'.st.tap = .known .runTestIdle ∧
      wireTms (newEvents r.st r'.st) = List.replicate k false ∧
      wireTdi (newEvents r.st r'.st) = List.replicate k false)

/-- R121: no command enters Pause or Exit2, whatever the pin layer answers. -/
def Obligations.NoCommandEntersPauseOrExit2 : Prop :=
  ∀ (i : Instr) (s t : State), s.cfg.valid = true → s.TapOk → exec i s = .next t →
    ∀ m ∈ s.tap.visits (wireTms (newEvents s t)),
      m ≠ .known .pauseDr ∧ m ≠ .known .exit2Dr ∧ m ≠ .known .pauseIr ∧ m ≠ .known .exit2Ir

/-- The outputs change only through the pin primitives, and only by those that succeed (R24, R26). -/
def Obligations.OutputsFollowThePrimitives : Prop :=
  ∀ (i : Instr) (s t : State), exec i s = .next t →
    (∃ es, t.trace = s.trace ++ es) ∧
    (t.tck, t.tms, t.tdi) = Spec.levels (newEvents s t) (s.tck, s.tms, s.tdi)

/-! ## The TAP sequencer's commands -/

/-- TAP_RESET completes from every state, the pins ready and no pin failing: what it writes (R131), what
it puts on the wire (R118), and nothing else. -/
def Obligations.TapResetCompletes : Prop :=
  ∀ s : State, s.cfg.valid = true → s.pinsReady = true → s.NoPinFault →
    exec .tapReset s = .next
      (Spec.answered
        { s with
          claimed := true
          tap := .known .testLogicReset
          tck := .low
          tms := .high
          tdi := .low
          trace := s.trace ++ okEvents ((if s.claimed then [] else [.set .tck false]) ++
            (List.replicate s.cfg.resetTcks [.set .tms true, .set .tdi false, .toggle]).flatten) }
        .ok .none)

/-- TAP_RESET's errors (R131): pins not ready, no state changes; a pin failure, the mirror is unknown and
the session exists. It samples no TDO and returns no data; its end state is idempotent. -/
def Obligations.TapResetErrorsAndIdempotence : Prop :=
  (∀ s : State, s.pinsReady = false → exec .tapReset s = .next (Spec.answered s .deviceNotReady .none)) ∧
  (∀ s t : State, s.pinsReady = true → exec .tapReset s = .next t →
    t.claimed = true ∧ t.srOut = s.srOut ∧ t.srIn = s.srIn ∧ t.emul = s.emul ∧ t.lock = s.lock ∧
    (∀ e ∈ newEvents s t, e.prim ≠ .readTdo) ∧
    ((∃ k, 1 ≤ k ∧ k ≤ (if s.claimed then 0 else 1) + 3 * s.cfg.resetTcks ∧ s.okAt k = false) →
      t.tap = .unknown ∧ t.resp = some { status := .ioError, data := .none })) ∧
  (∀ s t u : State, s.cfg.valid = true → s.pinsReady = true → s.NoPinFault → exec .tapReset s = .next t →
    t.pinsReady = true → t.NoPinFault → exec .tapReset t = .next u →
    (u.tap, u.claimed, u.tck, u.tms, u.tdi, u.srOut, u.srIn, u.resp, u.lock, u.emul, u.refused) =
      (t.tap, t.claimed, t.tck, t.tms, t.tdi, t.srOut, t.srIn, t.resp, t.lock, t.emul, t.refused) ∧
    wireTms (newEvents t u) = List.replicate s.cfg.resetTcks true)

/-- R135: in a live session SHIFT_IR and SHIFT_DR complete and return exactly `n` captured bits, `r[j]`
the level sampled on the tick that presented `v[j]`; and what else they write (R134, R137), and nothing
more. -/
def Obligations.ShiftsCompleteWithTheirCapture : Prop :=
  ∀ (s : State) (v : Bits), s.LiveSession → (1 ≤ v.length ∧ v.length ≤ s.cfg.maxShiftBits) →
    exec (.shiftIr v) s = .next
      (Spec.answered (Spec.afterScan s 1 v (Spec.scanPrims s .ir s.tap v)) .ok
        (.capture (captured s 1 v.length))) ∧
    exec (.shiftDr v) s = .next
      (Spec.answered (Spec.afterScan s 1 v (Spec.scanPrims s .dr s.tap v)) .ok
        (.capture (captured s 1 v.length))) ∧
    (captured s 1 v.length).length = v.length ∧
    (∀ i, i < v.length →
      (captured s 1 v.length).bit (Spec.presented s.cfg.bitOrder v.length i) = s.tdoAt (i + 1) ∧
      (wireTdi (okEvents (Spec.scanPrims s .ir s.tap v)))[(Spec.walkInTms .ir s.tap).length + i]? =
        some (v.bit (Spec.presented s.cfg.bitOrder v.length i)) ∧
      (wireTdi (okEvents (Spec.scanPrims s .dr s.tap v)))[(Spec.walkInTms .dr s.tap).length + i]? =
        some (v.bit (Spec.presented s.cfg.bitOrder v.length i)))

/-- RELEASE always completes with `OK` and ends the session, whatever the pin layer answers (R140): each
line whose release succeeds is tri-stated, every other line keeps its level, and nothing else changes. -/
def Obligations.ReleaseAlwaysCompletes : Prop :=
  ∀ s : State,
    exec .release s = .next
      (Spec.answered
        { s with
          claimed := false
          tap := .unknown
          tck := if s.claimed ∧ s.pinsReady ∧ s.okAt 1 then .z else s.tck
          tms := if s.claimed ∧ s.pinsReady ∧ s.okAt 2 then .z else s.tms
          tdi := if s.claimed ∧ s.pinsReady ∧ s.okAt 3 then .z else s.tdi
          trace := s.trace ++ (if s.claimed ∧ s.pinsReady then
            [{ prim := .releaseLine .tck, ok := s.okAt 1 }, { prim := .releaseLine .tms, ok := s.okAt 2 },
              { prim := .releaseLine .tdi, ok := s.okAt 3 }] else []) }
        .ok .none)

/-- R132: only TAP_RESET takes the mirror from UNKNOWN to a TAP state, and only TAP_RESET sets
`s.claimed`. -/
def Obligations.OnlyTapResetOpensASession : Prop :=
  ∀ (i : Instr) (s t : State), i ≠ .tapReset → exec i s = .next t →
    (s.tap = .unknown → t.tap = .unknown) ∧ (s.claimed = false → t.claimed = false)

/-! ## Errors -/

/-- R204: a command answers `DEVICE_NOT_READY` exactly when it lacks the readiness it needs, and then
nothing but the response changes; after a successful check a scan's precondition holds (with R38). A SHIFT
of an inadmissible length is refused before (R205). -/
def Obligations.ReadinessIsCheckedFirst : Prop :=
  ∀ (i : Instr) (s : State), i.wf s.cfg = true →
    (Spec.notReady i s → exec i s = .next (Spec.answered s .deviceNotReady .none)) ∧
    (∀ t, ¬ Spec.notReady i s → exec i s = .next t →
      t.resp.map Response.status ≠ some .deviceNotReady) ∧
    (Spec.needsSession s.cfg i → ¬ Spec.notReady i s → s.TapOk → s.IdleTap)

/-- R57: a misaligned AXI address, in a session or under `EMUL`: `ALIGNMENT_ERROR` and nothing else, before
any pin activity and any access. -/
def Obligations.MisalignedAddressesAreRefused : Prop :=
  ∀ (s : State) (addr word : Word), addr.toNat % 4 ≠ 0 →
    (s.cfg.backend = .emul ∨ (s.pinsReady = true ∧ s.claimed = true ∧ s.tap ≠ .unknown)) →
    exec (.axiWrite addr word) s = .next (Spec.answered s .alignmentError .none) ∧
    exec (.axiRead addr) s = .next (Spec.answered s .alignmentError .none)

/-- R205: the priority of errors that apply together. The first clause is about `exec` of a SHIFT that has no
encoding, which R205 refuses at decode: that `exec` answers ILLEGAL_COMMAND there too is deduced
(notes/assumptions/9.md). -/
def Obligations.ErrorPriority : Prop :=
  (∀ (s : State) (v : Bits), ¬(1 ≤ v.length ∧ v.length ≤ s.cfg.maxShiftBits) →
    exec (.shiftIr v) s = .next (Spec.answered { s with refused := true } .illegalCommand .none) ∧
    exec (.shiftDr v) s = .next (Spec.answered { s with refused := true } .illegalCommand .none)) ∧
  (∀ (s : State) (addr word : Word), s.cfg.backend = .hw →
    ¬(s.pinsReady = true ∧ s.claimed = true ∧ s.tap ≠ .unknown) →
    exec (.axiWrite addr word) s = .next (Spec.answered s .deviceNotReady .none) ∧
    exec (.axiRead addr) s = .next (Spec.answered s .deviceNotReady .none)) ∧
  (∀ (s : State) (addr word : Word), s.cfg.backend = .emul → addr.toNat % 4 ≠ 0 →
    s.cfg.emulLen < addr.toNat + 4 →
    exec (.axiWrite addr word) s = .next (Spec.answered s .alignmentError .none) ∧
    exec (.axiRead addr) s = .next (Spec.answered s .alignmentError .none)) ∧
  (∀ (s t : State) (addr word : Word) (k : Nat), s.cfg.valid = true → s.cfg.backend = .hw →
    addr.toNat % 4 = 0 → s.IdleTap → s.claimed = true → s.pinsReady = true →
    1 ≤ k → k ≤ 3 * (s.cfg.irLen + 6 + (if s.tap = .known .testLogicReset then 1 else 0)) + s.cfg.irLen →
    s.okAt k = false →
    (exec (.axiWrite addr word) s = .next t ∨ exec (.axiRead addr) s = .next t) →
    t.resp = some { status := .ioError, data := .none })

/-- R206: a pin failure inside a command other than RELEASE: no further primitive, the mirror unknown,
`IO_ERROR` with no data, and the levels already driven stay. -/
def Obligations.PinFailureEndsTheCommand : Prop :=
  ∀ (i : Instr) (s t : State) (before after : List PinEvent) (e : PinEvent), i ≠ .release →
    exec i s = .next t → newEvents s t = before ++ e :: after → e.ok = false →
    after = [] ∧ t.tap = .unknown ∧ t.resp = some { status := .ioError, data := .none } ∧
    (t.tck, t.tms, t.tdi) = Spec.levels before (s.tck, s.tms, s.tdi)

/-- R207: an IR capture outside the check pattern ends an AXI command right after that IR scan, with
`PROTOCOL_ERROR` and no further scan; the mirror stays known. First the access port's scan of a write and
of a read, then the data instruction's scan of a read. -/
def Obligations.CaptureCheckEndsTheCommand : Prop :=
  (∀ (s : State) (addr word : Word), s.cfg.valid = true → s.cfg.backend = .hw → s.LiveSession →
    addr.toNat % 4 = 0 → ¬ Spec.checkPasses s.cfg (captured s 1 s.cfg.irLen) →
    exec (.axiWrite addr word) s = .next
      (Spec.answered (Spec.afterScan s 1 s.cfg.irAxiWrite (Spec.scanPrims s .ir s.tap s.cfg.irAxiWrite))
        .protocolError .none) ∧
    exec (.axiRead addr) s = .next
      (Spec.answered (Spec.afterScan s 1 s.cfg.irAxiRead (Spec.scanPrims s .ir s.tap s.cfg.irAxiRead))
        .protocolError .none)) ∧
  (∀ (s : State) (addr : Word) (d : Bits), s.cfg.valid = true → s.cfg.backend = .hw → s.LiveSession →
    addr.toNat % 4 = 0 → s.cfg.irAxiReadData = some d →
    Spec.checkPasses s.cfg (captured s 1 s.cfg.irLen) →
    ¬ Spec.checkPasses s.cfg (captured s (s.cfg.irLen + s.cfg.axiRdDrLen + 1) s.cfg.irLen) →
    exec (.axiRead addr) s = .next
      (Spec.answered
        (Spec.afterScan s (s.cfg.irLen + s.cfg.axiRdDrLen + 1) d
          (Spec.scanPrims s .ir s.tap s.cfg.irAxiRead ++
            Spec.scanPrims s .dr (.known .runTestIdle) (rdPayload s.cfg addr) ++
            ticksPrims (idleTicks s.cfg.readWaitTcks) ++
            Spec.scanPrims s .ir (.known .runTestIdle) d))
        .protocolError .none))

/-- R202: the state that each error leaves, for every command in every state with a known or unknown
mirror of R38. -/
def Obligations.StateLeftByEachError : Prop :=
  ∀ (i : Instr) (s t : State) (st : Status), s.cfg.valid = true → s.TapOk → exec i s = .next t →
    t.resp.map Response.status = some st →
    (st = .illegalCommand ∨ st = .deviceNotReady ∨ st = .alignmentError →
      t = Spec.answered { s with refused := t.refused } st .none ∧
        t.refused = (s.refused || st == .illegalCommand)) ∧
    (st = .protocolError → t.tap = .known .runTestIdle ∧ t.claimed = true ∧ t.tck = .low ∧ t.tms = .low ∧
      t.tdi = .low ∧ t.emul = s.emul) ∧
    (st = .ioError → newEvents s t ≠ [] → t.tap = .unknown ∧
      t.claimed = (s.claimed || i == .tapReset) ∧ t.emul = s.emul ∧
      (t.tck, t.tms, t.tdi) = Spec.levels (newEvents s t) (s.tck, s.tms, s.tdi)) ∧
    (st = .ioError → newEvents s t = [] → s.cfg.backend = .emul ∧ t = Spec.answered s st .none)

/-! ## The bridge -/

/-- R150: the address phase of an aligned address under both forms, its injectivity, and the target's
inverse. -/
def Obligations.AddressPhaseIsInvertible : Prop :=
  (∀ addr : Word, addrPhase .byte addr = addr ∧ (addrPhase .word addr).toNat = addr.toNat / 4) ∧
  (∀ (form : AddrPhaseForm) (a b : Word), a.toNat % 4 = 0 → b.toNat % 4 = 0 →
    addrPhase form a = addrPhase form b → a = b) ∧
  (∀ (form : AddrPhaseForm) (a : Word), a.toNat % 4 = 0 → phaseAddr form (addrPhase form a) = a)

/-- R151 and R152: the payloads, field by field, every other bit 0; the word of a retrieve capture; and the
default layout. -/
def Obligations.PayloadLayouts : Prop :=
  ∀ (c : Config) (addr word : Word), c.valid = true →
    ((wrPayload c addr word).length = c.axiWrDrLen ∧
      (wrPayload c addr word).wordAt c.axiWrAddrLsb = addrPhase c.addrPhaseForm addr ∧
      (wrPayload c addr word).wordAt c.axiWrDataLsb = word ∧
      (∀ j, (j < c.axiWrAddrLsb ∨ c.axiWrAddrLsb + 32 ≤ j) → (j < c.axiWrDataLsb ∨ c.axiWrDataLsb + 32 ≤ j) →
        (wrPayload c addr word).bit j = false)) ∧
    ((rdPayload c addr).length = c.axiRdDrLen ∧
      (rdPayload c addr).wordAt c.axiRdAddrLsb = addrPhase c.addrPhaseForm addr ∧
      (∀ j, (j < c.axiRdAddrLsb ∨ c.axiRdAddrLsb + 32 ≤ j) → (rdPayload c addr).bit j = false)) ∧
    (∀ (r : Bits) (j : Nat), j < 32 → (rdWord c r).getLsbD j = r.bit (c.axiRdDataLsb + j)) ∧
    (Config.default.axiWrDrLen = 64 ∧ Config.default.axiWrAddrLsb = 32 ∧ Config.default.axiWrDataLsb = 0 ∧
      Config.default.axiRdDrLen = 32 ∧ Config.default.axiRdAddrLsb = 0 ∧ Config.default.axiRdDataLsb = 0)

/-- R161: every aligned address and word gives a payload of its own. -/
def Obligations.WritePayloadsAreDistinct : Prop :=
  ∀ (c : Config) (a b v w : Word), c.valid = true → a.toNat % 4 = 0 → b.toNat % 4 = 0 →
    wrPayload c a v = wrPayload c b w → a = b ∧ v = w

/-- AXI_WRITE completes under `HW` in a live session, the capture check passed: the scans of R154, what they
leave in the block, and nothing else (R160). -/
def Obligations.AxiWriteCompletesOnHardware : Prop :=
  ∀ (s : State) (addr word : Word), s.cfg.valid = true → s.cfg.backend = .hw → s.LiveSession →
    addr.toNat % 4 = 0 → Spec.checkPasses s.cfg (captured s 1 s.cfg.irLen) →
    exec (.axiWrite addr word) s = .next
      (Spec.answered
        (Spec.afterScan s (s.cfg.irLen + 1) (wrPayload s.cfg addr word)
          (Spec.scanPrims s .ir s.tap s.cfg.irAxiWrite ++
            Spec.scanPrims s .dr (.known .runTestIdle) (wrPayload s.cfg addr word) ++
            ticksPrims (idleTicks s.cfg.writeWaitTcks)))
        .ok .none)

/-- AXI_READ completes under `HW` in a live session, the capture checks passed: the scans of R154 without
and with a data instruction, the word that the retrieve capture holds, and nothing else (R170, R172). -/
def Obligations.AxiReadCompletesOnHardware : Prop :=
  ∀ (s : State) (addr : Word), s.cfg.valid = true → s.cfg.backend = .hw → s.LiveSession →
    addr.toNat % 4 = 0 → Spec.checkPasses s.cfg (captured s 1 s.cfg.irLen) →
    (s.cfg.irAxiReadData = none →
      exec (.axiRead addr) s = .next
        (Spec.answered
          (Spec.afterScan s (s.cfg.irLen + s.cfg.axiRdDrLen + 1) (rdPayload s.cfg addr)
            (Spec.scanPrims s .ir s.tap s.cfg.irAxiRead ++
              Spec.scanPrims s .dr (.known .runTestIdle) (rdPayload s.cfg addr) ++
              ticksPrims (idleTicks s.cfg.readWaitTcks) ++
              Spec.scanPrims s .dr (.known .runTestIdle) (rdPayload s.cfg addr)))
          .ok (.word ((captured s (s.cfg.irLen + s.cfg.axiRdDrLen + 1) s.cfg.axiRdDrLen).wordAt
            s.cfg.axiRdDataLsb)))) ∧
    (∀ d, s.cfg.irAxiReadData = some d →
      Spec.checkPasses s.cfg (captured s (s.cfg.irLen + s.cfg.axiRdDrLen + 1) s.cfg.irLen) →
      exec (.axiRead addr) s = .next
        (Spec.answered
          (Spec.afterScan s (2 * s.cfg.irLen + s.cfg.axiRdDrLen + 1) (rdPayload s.cfg addr)
            (Spec.scanPrims s .ir s.tap s.cfg.irAxiRead ++
              Spec.scanPrims s .dr (.known .runTestIdle) (rdPayload s.cfg addr) ++
              ticksPrims (idleTicks s.cfg.readWaitTcks) ++
              Spec.scanPrims s .ir (.known .runTestIdle) d ++
              Spec.scanPrims s .dr (.known .runTestIdle) (rdPayload s.cfg addr)))
          .ok (.word ((captured s (2 * s.cfg.irLen + s.cfg.axiRdDrLen + 1) s.cfg.axiRdDrLen).wordAt
            s.cfg.axiRdDataLsb))))

/-- R60: the emulation buffer's accesses. In range, AXI_READ answers the word of the four bytes by R55 and
changes nothing, and AXI_WRITE changes its four bytes and no other; out of range both answer `IO_ERROR` and
the buffer is unchanged. No session is needed (R173) and nothing is driven. -/
def Obligations.EmulationBufferAccesses : Prop :=
  ∀ (s : State) (addr word : Word), s.cfg.backend = .emul → addr.toNat % 4 = 0 →
    (addr.toNat + 4 ≤ s.cfg.emulLen →
      (∃ w, exec (.axiRead addr) s = .next (Spec.answered s .ok (.word w)) ∧
        ∀ k, k < 4 → wordByte s.cfg.byteOrder w k = Memory.read s.cfg s.emul (addr.toNat + k)) ∧
      (∃ m, exec (.axiWrite addr word) s = .next (Spec.answered { s with emul := m } .ok .none) ∧
        (∀ k, k < 4 → Memory.read s.cfg m (addr.toNat + k) = wordByte s.cfg.byteOrder word k) ∧
        ∀ a, (a < addr.toNat ∨ addr.toNat + 4 ≤ a) → Memory.read s.cfg m a = Memory.read s.cfg s.emul a)) ∧
    (s.cfg.emulLen < addr.toNat + 4 →
      exec (.axiRead addr) s = .next (Spec.answered s .ioError .none) ∧
      exec (.axiWrite addr word) s = .next (Spec.answered s .ioError .none))

/-- R55: which bits of a word are its byte `k`, and that the four bytes give the word back. -/
def Obligations.WordBytesFollowTheByteOrder : Prop :=
  (∀ (w : Word) (k j : Nat), k < 4 → j < 8 →
    (wordByte .le w k).getLsbD j = w.getLsbD (8 * k + j) ∧
    (wordByte .be w k).getLsbD j = w.getLsbD (24 - 8 * k + j)) ∧
  (∀ (order : Sys2Proof.ByteOrder) (w : Word),
    wordOfBytes order (wordByte order w 0) (wordByte order w 1) (wordByte order w 2) (wordByte order w 3) = w)

/-- R64 under `EMUL`: an AXI_READ answers the word of the last AXI_WRITE to its address, and a write to
another word does not change what it answers. -/
def Obligations.EmulationReadsTheLastWrite : Prop :=
  ∀ (s t u : State) (a b word : Word), s.cfg.backend = .emul → a.toNat % 4 = 0 → b.toNat % 4 = 0 →
    a.toNat + 4 ≤ s.cfg.emulLen → b.toNat + 4 ≤ s.cfg.emulLen →
    exec (.axiWrite a word) s = .next t → exec (.axiRead b) t = .next u →
    u.resp = some { status := .ok, data := .word (if b = a then word else memRead s.cfg s.emul b) }

/-- R256: the ticks of each command from Run-Test/Idle, one more from Test-Logic-Reset, and its pin
primitives; under `EMUL` the AXI commands take none. -/
def Obligations.TickCounts : Prop :=
  (∀ s t : State, s.cfg.valid = true → s.pinsReady = true → s.NoPinFault → exec .tapReset s = .next t →
    (wireTms (newEvents s t)).length = s.cfg.resetTcks ∧
    (newEvents s t).length = 3 * s.cfg.resetTcks + (if s.claimed then 0 else 1)) ∧
  (∀ (i : Instr) (s t : State) (ticks shifted : Nat), s.cfg.valid = true → s.cfg.backend = .hw →
    s.LiveSession → exec i s = .next t → t.resp.map Response.status = some .ok →
    (match i with
      | .shiftIr v => ticks = v.length + 6 ∧ shifted = v.length
      | .shiftDr v => ticks = v.length + 5 ∧ shifted = v.length
      | .axiWrite _ _ => ticks = (s.cfg.irLen + 6) + (s.cfg.axiWrDrLen + 5) + s.cfg.writeWaitTcks ∧
          shifted = s.cfg.irLen + s.cfg.axiWrDrLen
      | .axiRead _ => ticks = (s.cfg.irLen + 6) + 2 * (s.cfg.axiRdDrLen + 5) + s.cfg.readWaitTcks +
          (if s.cfg.irAxiReadData = none then 0 else s.cfg.irLen + 6) ∧
          shifted = s.cfg.irLen + 2 * s.cfg.axiRdDrLen + (if s.cfg.irAxiReadData = none then 0 else s.cfg.irLen)
      | .tapReset => False
      | .release => False) →
    (wireTms (newEvents s t)).length = ticks + (if s.tap = .known .testLogicReset then 1 else 0) ∧
    (newEvents s t).length = 3 * (wireTms (newEvents s t)).length + shifted) ∧
  (∀ s t : State, s.claimed = true → s.pinsReady = true → exec .release s = .next t →
    wireTms (newEvents s t) = [] ∧ (newEvents s t).length = 3) ∧
  (∀ (s t : State) (addr word : Word), s.cfg.backend = .emul →
    (exec (.axiWrite addr word) s = .next t ∨ exec (.axiRead addr) s = .next t) → newEvents s t = [])

/-! ## The host interface -/

/-- R221: acquire, release, and the hold of an acquire and of a command presented without the lock; for a
host that is the only one with something to do, no command being complete on the port. -/
def Obligations.TheChipLock : Prop :=
  ∀ (s : State) (h : HostId), s.fetch = .incomplete →
    (∀ g, s.hostQueue = [.acquire h g] → s.lock = none →
      step s = .next { s with hostQueue := [], lock := some h, lockAnswer := some (h, .granted) }) ∧
    (∀ g, s.hostQueue = [.acquire h g] → s.lock ≠ none → (s.cfg.lockWait = .unbounded ∨ g = false) →
      step s = .next s) ∧
    (s.hostQueue = [.acquire h true] → s.lock ≠ none → s.cfg.lockWait = .bounded →
      step s = .next { s with hostQueue := [], lockAnswer := some (h, .busy) }) ∧
    (s.hostQueue = [.release h] → s.lock = some h →
      step s = .next { s with hostQueue := [], lock := none, lockAnswer := some (h, .released) }) ∧
    (∀ ws, s.hostQueue = [.present h ws] → s.lock ≠ some h → step s = .next s)

/-- A host's command words reach the port when it holds the lock, and the step after that runs the command
(R80, R220, R221). -/
def Obligations.PresentedCommandsRun : Prop :=
  ∀ (s : State) (h : HostId) (i : Instr), s.cfg.valid = true → i.wf s.cfg = true → s.lock = some h →
    s.port = [] → s.presenter = none → s.hostQueue = [.present h (encode i)] →
    step s = .next { s with hostQueue := [], port := encode i, presenter := some h } ∧
    step { s with hostQueue := [], port := encode i, presenter := some h } =
      exec i { s with hostQueue := [] }

/-- "A command presented by a host `h` is performed only if `s.lock = h`" (R221), and only a release by the
holder takes the lock away: no command of another host runs between (R223, L1-4). -/
def Obligations.OnlyTheLockHolderIsServed : Prop :=
  ∀ s t : State, step s = .next t →
    ((t.resp ≠ s.resp ∨ t.trace ≠ s.trace ∨ t.emul ≠ s.emul ∨ t.tap ≠ s.tap ∨ t.drawNo ≠ s.drawNo) →
      ∃ h, s.presenter = some h ∧ s.lock = some h ∧ t.lock = some h) ∧
    (∀ h, s.lock = some h → t.lock ≠ some h →
      t.lock = none ∧ Spec.releases s.hostQueue h ∧ t.port = s.port ∧ t.resp = s.resp)

/-- A release of a lock that the host does not hold is the one fault (notes/assumptions/6.md), and no
command ever ends in a fault or a refusal (R200). -/
def Obligations.OnlyAWrongReleaseFaults : Prop :=
  (∀ (i : Instr) (s : State), ∃ t, exec i s = .next t) ∧
  (∀ s : State, (∃ t, step s = .next t) ∨ (step s = .fault .releaseWithoutLock ∧
    ∃ h, Spec.releases s.hostQueue h ∧ s.lock ≠ some h))

/-! ## The host macros -/

/-- R180: the address of word `i` of a patch, and that a misaligned base stops a macro at index 0. -/
def Obligations.PatchAddresses : Prop :=
  (∀ (base : Word) (i : Nat), (patchAddr base i).toNat = (base.toNat + 4 * i) % 2 ^ 32) ∧
  (∀ (base : Word) (i : Nat), (patchAddr base i).toNat % 4 = 0 ↔ base.toNat % 4 = 0) ∧
  (∀ (s : State) (base w : Word) (ws : List Word), base.toNat % 4 ≠ 0 →
    (s.cfg.backend = .emul ∨ (s.pinsReady = true ∧ s.claimed = true ∧ s.tap ≠ .unknown)) →
    (patchOffset (w :: ws) base s).1 = .patchError 0 .alignmentError ∧
    (verify (w :: ws) base s).1 = .verifyError 0 .alignmentError)

/-- R181 and R183: a macro performs its commands in order, stops at the first status other than OK (or the
first word that differs) and reports its index; it returns Ok only after all of them. -/
def Obligations.MacrosStopAtTheFirstFailure : Prop :=
  (∀ (s t : State) (ws : List Word) (base : Word),
    (patchOffset ws base s = (.ok, t) →
      t = Spec.performAll (patchCommands ws base) s ∧
      ∀ k, k < ws.length → (Spec.performAll ((patchCommands ws base).take (k + 1)) s).status = .ok) ∧
    (∀ k st, patchOffset ws base s = (.patchError k st, t) →
      k < ws.length ∧ st ≠ .ok ∧ t = Spec.performAll ((patchCommands ws base).take (k + 1)) s ∧
      t.status = st ∧
      ∀ j, j < k → (Spec.performAll ((patchCommands ws base).take (j + 1)) s).status = .ok)) ∧
  (∀ (s t : State) (ws : List Word) (base : Word),
    (verify ws base s = (.ok, t) →
      t = Spec.performAll (verifyCommands ws base) s ∧
      ∀ k, k < ws.length →
        (Spec.performAll ((verifyCommands ws base).take (k + 1)) s).status = .ok ∧
        ws[k]? = some (Spec.performAll ((verifyCommands ws base).take (k + 1)) s).responseWord) ∧
    (∀ k expected actual, verify ws base s = (.verifyMismatch k expected actual, t) →
      ws[k]? = some expected ∧ actual ≠ expected ∧
      t = Spec.performAll ((verifyCommands ws base).take (k + 1)) s ∧ t.status = .ok ∧
      t.responseWord = actual ∧
      ∀ j, j < k → (Spec.performAll ((verifyCommands ws base).take (j + 1)) s).status = .ok ∧
        ws[j]? = some (Spec.performAll ((verifyCommands ws base).take (j + 1)) s).responseWord) ∧
    (∀ k st, verify ws base s = (.verifyError k st, t) →
      k < ws.length ∧ st ≠ .ok ∧ t = Spec.performAll ((verifyCommands ws base).take (k + 1)) s ∧
      t.status = st ∧
      ∀ j, j < k → (Spec.performAll ((verifyCommands ws base).take (j + 1)) s).status = .ok ∧
        ws[j]? = some (Spec.performAll ((verifyCommands ws base).take (j + 1)) s).responseWord))

/-- R189: the block commands of each loader step, presented one after another, each after the answer to the
one before: a patch or verify step ends where the fail-fast macro ends (R181 to R183), `init` is TAP_RESET
unless power-good is wired and not asserted (R191), `teardown` is RELEASE, and the other two steps are none.
An `init` whose acquire ends with `Busy`, which a bounded wait may draw (R221), issues no command.
When a step takes and gives back the lock: that only `init` takes it, and that an `init` which fails at
TAP_RESET gives it back at the teardown only, against another reading of R221's "every exit path", are the
model's choice, and that an `init` which fails `NotPowered` gives it back at once is deduced
(notes/assumptions/18.md). -/
def Obligations.LoaderStepsAreTheMacros : Prop :=
  (∀ (s : State) (ws : List Word) (base : Word) (answer : LockAnswer),
    (LoaderStep.patchOffset ws base).run answer s = (patchOffset ws base s).2 ∧
    (LoaderStep.patch ws).run answer s = (patch ws s).2 ∧
    (LoaderStep.verify ws base).run answer s = (verify ws base s).2) ∧
  (∀ (s : State) (givesUp wired asserted : Bool),
    (LoaderStep.init givesUp wired asserted).run .granted s =
      if wired = true ∧ asserted = false then s else perform .tapReset s) ∧
  (∀ (s : State) (h : HostId) (wired asserted : Bool),
    s.fetch = .incomplete → s.hostQueue = (LoaderStep.init true wired asserted).opening h → s.lock ≠ none →
    s.cfg.lockWait = .bounded →
    step s = .next { s with hostQueue := [], lockAnswer := some (h, .busy) } ∧
    (LoaderStep.init true wired asserted).run .busy s = s ∧
    (∀ answers, (LoaderStep.init true wired asserted).nextAction h .busy answers = none) ∧
    (LoaderStep.init true wired asserted).closing h .busy = []) ∧
  (∀ (s : State) (answer : LockAnswer), LoaderStep.resetAsic.run answer s = s ∧
    LoaderStep.softResetArc.run answer s = s ∧ LoaderStep.teardown.run answer s = perform .release s) ∧
  (∀ (step : LoaderStep) (h : HostId) (givesUp : Bool),
    (step.opening h = [.acquire h givesUp] ↔ ∃ wired asserted, step = .init givesUp wired asserted) ∧
    (step.closing h .granted = [.release h] ↔ step = .teardown ∨ ∃ g, step = .init g true false))

/-- L1-1, the round trip under `EMUL` (R64, R181, R183): after PATCH_OFFSET, VERIFY with the same base
returns Ok, from every state and for every word sequence that fits the buffer. -/
def Obligations.PatchThenVerifySucceeds : Prop :=
  ∀ (s : State) (ws : List Word) (base : Word), s.cfg.backend = .emul → base.toNat % 4 = 0 →
    base.toNat + 4 * ws.length ≤ s.cfg.emulLen → s.cfg.emulLen ≤ 2 ^ 32 →
    (patchOffset ws base s).1 = .ok ∧ (verify ws base (patchOffset ws base s).2).1 = .ok

/-- L1-2: a buffer whose word `k` differs from the patch, the words before it as patched, is reported by
VERIFY at index `k`, with the word expected and the word found. -/
def Obligations.VerifyReportsTheFirstMismatch : Prop :=
  ∀ (s : State) (ws : List Word) (base : Word) (k : Nat) (w : Word), s.cfg.backend = .emul →
    base.toNat % 4 = 0 → base.toNat + 4 * ws.length ≤ s.cfg.emulLen → s.cfg.emulLen ≤ 2 ^ 32 →
    ws[k]? = some w → (∀ j, j < k → ws[j]? = some (memRead s.cfg s.emul (patchAddr base j))) →
    memRead s.cfg s.emul (patchAddr base k) ≠ w →
    (verify ws base s).1 = .verifyMismatch k w (memRead s.cfg s.emul (patchAddr base k))

/-- L1-5, under `EMUL`: patching the words of a blob leaves the blob in the buffer, byte for byte, under
either byte order, and nothing else changed there. -/
def Obligations.PatchLeavesTheBlobInTheBuffer : Prop :=
  ∀ (s t : State) (blob : List Byte) (ws : List Word), s.cfg.backend = .emul →
    bootcodeWords s.cfg.byteOrder blob = some ws → blob.length ≤ s.cfg.emulLen → s.cfg.emulLen ≤ 2 ^ 32 →
    patch ws s = (.ok, t) →
    (∀ a, a < blob.length → blob[a]? = some (Memory.read t.cfg t.emul a)) ∧
    (∀ a, blob.length ≤ a → Memory.read t.cfg t.emul a = Memory.read s.cfg s.emul a)

/-- R186: the words of a bootcode blob: word `i` from bytes `4i` to `4i+3` by `BYTE_ORDER`; a length that is
no multiple of 4 is refused, and no other. -/
def Obligations.BootcodeWords : Prop :=
  ∀ (order : Sys2Proof.ByteOrder) (blob : List Byte),
    (blob.length % 4 ≠ 0 → bootcodeWords order blob = none) ∧
    (blob.length % 4 = 0 → ∃ ws, bootcodeWords order blob = some ws ∧ 4 * ws.length = blob.length ∧
      (∀ i, i < ws.length → ws.getD i 0 = wordOfBytes order (blob.getD (4 * i) 0) (blob.getD (4 * i + 1) 0)
        (blob.getD (4 * i + 2) 0) (blob.getD (4 * i + 3) 0)) ∧
      wordsBytes order ws = blob)

/-! ## The target contract -/

/-- The mirror tracks the target (R37 item 1): if the block's mirror, when known, is the target's TAP state,
it is so after every command, whatever the pin layer answers; TAP_RESET finds it again from any state of the
target. -/
def Obligations.MirrorTracksTheTarget : Prop :=
  ∀ (W : TargetWorld) (i : Instr) (s t : State) (T : Target), s.cfg.valid = true → s.TapOk →
    (s.tap = .unknown ∨ s.tap = .known T.tap) → exec i s = .next t →
    t.tap = .unknown ∨ t.tap = .known (T.after W s t).tap

/-- R73, its first clause, for port instructions that differ and under either BIT_ORDER, by which the target
numbers its registers too (deduced, notes/assumptions/14.md): under the contract and with no pin failure, an AXI_WRITE that responds `OK` causes exactly one memory write, of its word
at its address, and no other access; that this one access is all the same where the address has no memory
behind it is the model's choice (notes/assumptions/21.md), for R51 has the contract hold only at addresses
that have some. With the core halted (R65), at an address that has memory behind it (R51),
and with no write in flight before, that write is the one change of memory when the command ends, if the target
needs no more than `WRITE_WAIT_TCKS` ticks. -/
def Obligations.HardwareWriteCausesOneWrite : Prop :=
  ∀ (W : TargetWorld) (s t : State) (T : Target) (addr word : Word), s.cfg.valid = true →
    s.cfg.backend = .hw → s.LiveSession → s.tap = .known T.tap →
    s.cfg.irAxiRead ≠ s.cfg.irAxiWrite → addr.toNat % 4 = 0 → exec (.axiWrite addr word) s = .next t →
    t.resp = some { status := .ok, data := .none } →
    (T.after W s t).accesses = T.accesses ++ [.write addr word] ∧
    (T.coreHalted = true → W.backed addr = true → T.writes = [] → W.writeTicks ≤ s.cfg.writeWaitTcks →
      (T.after W s t).mem = (addr, word) :: T.mem ∧ (T.after W s t).writes = [])

/-- R73, its second clause, for instruction codes that differ and under either BIT_ORDER, by which the target
numbers its registers too (deduced, notes/assumptions/14.md): under the contract, with the core halted (R65), at an address that has memory behind it (R51) and reads without a side
effect (R61), and with no write in flight (R64), an AXI_READ that responds `OK` answers the word at its address,
if the target needs no more ticks than R247 gives it, and it causes that read. Without a data instruction it
causes a second one of the same address, which R73 and R172 allow: that the second one always follows is the
model's choice (notes/assumptions/21.md). -/
def Obligations.HardwareReadReturnsTheTargetWord : Prop :=
  ∀ (W : TargetWorld) (s t : State) (T : Target) (addr w : Word), s.cfg.valid = true →
    s.cfg.backend = .hw → s.LiveSession → s.tap = .known T.tap →
    s.cfg.irAxiRead ≠ s.cfg.irAxiWrite →
    (∀ d, s.cfg.irAxiReadData = some d → d ≠ s.cfg.irAxiWrite ∧ d ≠ s.cfg.irAxiRead) →
    T.coreHalted = true → W.backed addr = true → W.sideEffectFree addr = true →
    T.writes = [] → addr.toNat % 4 = 0 → exec (.axiRead addr) s = .next t → T.drives W s t →
    t.resp = some { status := .ok, data := .word w } →
    W.readTicks ≤ 1 + s.cfg.readWaitTcks +
      (if s.cfg.irAxiReadData = none then 0 else s.cfg.irLen + 6) + 3 →
    w = Target.load W T.mem addr ∧
    (T.after W s t).accesses =
      T.accesses ++ (if s.cfg.irAxiReadData = none then [.read addr, .read addr] else [.read addr])

/-- R64 on hardware, for instruction codes that differ and under either BIT_ORDER, by which the target numbers
its registers too (deduced, notes/assumptions/14.md): under the contract,
with the core halted (R65), at an address that has memory behind it (R51, R62) and reads without a side effect
(R61), an AXI_READ right after an AXI_WRITE to its address answers the word written. -/
def Obligations.HardwareReadsTheLastWrite : Prop :=
  ∀ (W : TargetWorld) (s t u : State) (T : Target) (addr word w : Word), s.cfg.valid = true →
    s.cfg.backend = .hw → s.LiveSession → s.tap = .known T.tap →
    s.cfg.irAxiRead ≠ s.cfg.irAxiWrite →
    (∀ d, s.cfg.irAxiReadData = some d → d ≠ s.cfg.irAxiWrite ∧ d ≠ s.cfg.irAxiRead) →
    T.coreHalted = true → W.backed addr = true → W.sideEffectFree addr = true →
    T.writes = [] → addr.toNat % 4 = 0 → W.writeTicks ≤ s.cfg.writeWaitTcks →
    W.readTicks ≤ s.cfg.readWaitTcks →
    exec (.axiWrite addr word) s = .next t → t.resp = some { status := .ok, data := .none } →
    t.pinsReady = true → t.NoPinFault →
    exec (.axiRead addr) t = .next u → (T.after W s t).drives W t u →
    u.resp = some { status := .ok, data := .word w } → w = word

/-- R185: an AXI_WRITE under `HW` that a pin failure ends may leave its word's old value in the target, and may
leave the new one: for either, some behaviour of what the contract leaves open brings it about, at an address
that has memory behind it, and changes no other word. What a failed primitive does to memory is open in the
form of notes/assumptions/13.md, so other behaviours may leave another word there. -/
def Obligations.AFailedHardwareWriteMayLeaveTheOldOrTheNewWord : Prop :=
  ∀ (s t : State) (T : Target) (addr word : Word) (content : Word → Word), s.cfg.valid = true →
    s.cfg.backend = .hw → T.writes = [] → exec (.axiWrite addr word) s = .next t →
    t.resp = some { status := .ioError, data := .none } →
    ∀ new : Bool, ∃ W : TargetWorld, W.content = content ∧ W.backed addr = true ∧
      ∀ a, Target.load W (T.after W s t).mem a =
        if a = addr ∧ new = true then word else Target.load W T.mem a

/-- R250: the first TAP_RESET after a pin failure under `HW` may change any word of the target's memory: whatever
the command and the target (its core halted and no write in flight), and whatever words at whatever addresses,
some behaviour of what the contract leaves open has the TAP_RESET, which responds `OK`, leave just these words
there, by any accesses. The form of the havoc, one open effect at the first Test-Logic-Reset, is the model's
(notes/assumptions/13.md). -/
def Obligations.ResetAfterAPinFailureMayWriteAnyWord : Prop :=
  ∀ (i : Instr) (s t u : State) (T : Target) (stores : List (Word × Word)) (accesses : List TargetAccess),
    s.cfg.valid = true → s.cfg.backend = .hw → T.coreHalted = true → T.writes = [] → exec i s = .next t →
    t.resp = some { status := .ioError, data := .none } → t.pinsReady = true → t.NoPinFault →
    exec .tapReset t = .next u →
    u.resp = some { status := .ok, data := .none } ∧
    ∃ W : TargetWorld,
      ((T.after W s t).after W t u).mem = stores ++ (T.after W s t).mem ∧
      ((T.after W s t).after W t u).accesses = (T.after W s t).accesses ++ accesses
end

