-- ==== Sys2Proof/Laws/Config.lean ====
section
/-!
SUPPORT. What admissible parameters give the proofs (R10).
-/
namespace Sys2Proof

/-- What R10 asks of the parameters, as the proofs use it. -/
theorem Config.bounds_of_valid {c : Config} (h : c.valid = true) :
    5 ≤ c.resetTcks ∧ 1 ≤ c.maxShiftBits ∧ c.maxShiftBits ≤ 255 ∧ 1 ≤ c.irLen ∧ c.irAxiWrite.length = c.irLen ∧
      c.irAxiRead.length = c.irLen ∧ (∀ d, c.irAxiReadData = some d → d.length = c.irLen) ∧
      32 ≤ c.axiWrDrLen ∧ 32 ≤ c.axiRdDrLen ∧ c.axiWrDataLsb + 32 ≤ c.axiWrDrLen ∧
      c.axiWrAddrLsb + 32 ≤ c.axiWrDrLen ∧
      (c.axiWrDataLsb + 32 ≤ c.axiWrAddrLsb ∨ c.axiWrAddrLsb + 32 ≤ c.axiWrDataLsb) ∧
      c.axiRdAddrLsb + 32 ≤ c.axiRdDrLen ∧ c.axiRdDataLsb + 32 ≤ c.axiRdDrLen := by
  simp only [Config.valid, Config.sequencerOk, Config.codesOk, Config.payloadsOk, Bool.and_eq_true,
    decide_eq_true_eq, beq_iff_eq, Bool.or_eq_true] at h
  obtain ⟨⟨⟨⟨⟨⟨h1, h2⟩, h3⟩, ⟨⟨⟨h4, h5⟩, h6⟩, h7⟩, h8⟩, -⟩, h9⟩, -⟩ := h
  refine ⟨h1, h2, h3, h4, h6, h7, fun d hd => ?_, by omega, by omega, by omega, by omega, by omega, by omega, by omega⟩
  rw [hd] at h8
  simpa using h8

/-- The shift register's bound holds the codes and the payloads (R21). -/
theorem Config.le_shiftRegBits (c : Config) : c.maxShiftBits ≤ c.shiftRegBits ∧ c.irLen ≤ c.shiftRegBits ∧
    c.axiWrDrLen ≤ c.shiftRegBits ∧ c.axiRdDrLen ≤ c.shiftRegBits := by
  unfold Config.shiftRegBits
  omega

end Sys2Proof
end

