-- ==== Sys2Proof/Laws/Operands.lean ====
section
/-!
SUPPORT. The operand forms: bits of a vector's number, of its words, and of a payload.
-/
namespace Sys2Proof

theorem Bits.testBit_toNat (v : Bits) (j : Nat) : v.toNat.testBit j = v.bit j := by
  induction v generalizing j with
  | nil => simp [Bits.toNat, Bits.bit]
  | cons b rest ih =>
    have hc : Bits.toNat (b :: rest) = 2 * Bits.toNat rest + b.toNat := rfl
    rw [hc]
    cases j with
    | zero => cases b <;> simp [Bits.bit, Nat.testBit_zero]
    | succ j =>
      rw [Nat.testBit_succ]
      have : (2 * Bits.toNat rest + b.toNat) / 2 = Bits.toNat rest := by cases b <;> (simp; try omega)
      rw [this, ih]; rfl

theorem Bits.toNat_lt (v : Bits) : v.toNat < 2 ^ v.length := by
  induction v with
  | nil => simp [Bits.toNat]
  | cons b rest ih =>
    have hc : Bits.toNat (b :: rest) = 2 * Bits.toNat rest + b.toNat := rfl
    rw [hc, List.length_cons, Nat.pow_succ]
    cases b <;> simp <;> omega

@[simp] theorem Bits.getLsbD_toWord (v : Bits) (j : Nat) : v.toWord.getLsbD j = (decide (j < 32) && v.bit j) := by
  rw [Bits.toWord, BitVec.getLsbD_ofNat, Bits.testBit_toNat]

theorem Bits.bit_eq_false (v : Bits) {j : Nat} (h : v.length ≤ j) : v.bit j = false := by
  simp [Bits.bit, h]

theorem Bits.bit_map_range (n : Nat) (f : Nat → Bool) (j : Nat) :
    Bits.bit ((List.range n).map f) j = (decide (j < n) && f j) := by
  unfold Bits.bit
  rw [List.getD_eq_getElem?_getD, List.getElem?_map]
  by_cases h : j < n
  · simp [h]
  · simp [h]

/-- A vector is its length and its bits. -/
theorem Bits.ext_bit {v w : Bits} (hl : v.length = w.length) (h : ∀ j < v.length, v.bit j = w.bit j) : v = w := by
  apply List.ext_getElem hl
  intro j h1 h2
  have := h j h1
  simpa [Bits.bit, h1, h2] using this

@[simp] theorem Bits.length_ofWords (n : Nat) (ws : List Word) : (Bits.ofWords n ws).length = n := by
  simp [Bits.ofWords]

theorem Bits.bit_ofWords (n : Nat) (ws : List Word) (j : Nat) :
    (Bits.ofWords n ws).bit j = (decide (j < n) && (ws.getD (j / 32) 0).getLsbD (j % 32)) :=
  Bits.bit_map_range n _ j

@[simp] theorem Bits.length_toWords (v : Bits) : v.toWords.length = vectorWords v.length := by
  simp [Bits.toWords]

theorem Bits.getLsbD_getD_toWords (v : Bits) (k i : Nat) (hi : i < 32) :
    (v.toWords.getD k 0).getLsbD i = v.bit (32 * k + i) := by
  unfold Bits.toWords
  rw [List.getD_eq_getElem?_getD, List.getElem?_map]
  by_cases hk : k < vectorWords v.length
  · simp only [List.getElem?_range hk, Option.map_some, Option.getD_some, Bits.getLsbD_toWord, hi, decide_true,
      Bool.true_and]
    simp [Bits.bit, hi, List.getElem?_drop]
  · have : v.length ≤ 32 * k + i := by unfold vectorWords at hk; omega
    simp [hk, Bits.bit_eq_false v this]

/-- A vector is what its words carry (R83). -/
theorem Bits.ofWords_toWords (v : Bits) (rest : List Word) : Bits.ofWords v.length (v.toWords ++ rest) = v := by
  refine Bits.ext_bit (by simp) fun j hj => ?_
  simp only [Bits.length_ofWords] at hj
  have hk : j / 32 < v.toWords.length := by
    rw [Bits.length_toWords]; unfold vectorWords; omega
  rw [Bits.bit_ofWords, List.getD_append _ _ _ _ hk, Bits.getLsbD_getD_toWords _ _ _ (by omega)]
  simp [hj, Nat.div_add_mod]

theorem spareBitsClear_iff (n : Nat) (ws : List Word) :
    spareBitsClear n ws = true ↔ n % 32 = 0 ∨ ∀ i, n % 32 ≤ i → i < 32 → (ws.getD (n / 32) 0).getLsbD i = false := by
  unfold spareBitsClear
  simp only [Bool.or_eq_true, beq_iff_eq]
  constructor
  · rintro (h | h)
    · exact .inl h
    · refine .inr fun i hi hi' => ?_
      have := congrArg (fun x => x.getLsbD (i - n % 32)) h
      simpa [BitVec.getLsbD_ushiftRight, Nat.add_sub_cancel' hi] using this
  · rintro (h | h)
    · exact .inl h
    · refine .inr (BitVec.eq_of_getLsbD_eq fun i hi => ?_)
      rw [BitVec.getLsbD_ushiftRight]
      refine Eq.trans ?_ BitVec.getLsbD_zero.symm
      by_cases h32 : n % 32 + i < 32
      · exact h _ (by omega) h32
      · exact BitVec.getLsbD_of_ge _ _ (by omega)

/-- The words of a vector have no spare bit set (R83, R92). -/
theorem spareBitsClear_toWords (v : Bits) (rest : List Word) :
    spareBitsClear v.length (v.toWords ++ rest) = true := by
  rw [spareBitsClear_iff]
  by_cases h : v.length % 32 = 0
  · exact .inl h
  · refine .inr fun i hi hi' => ?_
    have hk : v.length / 32 < v.toWords.length := by
      rw [Bits.length_toWords]; unfold vectorWords; omega
    rw [List.getD_append _ _ _ _ hk, Bits.getLsbD_getD_toWords _ _ _ hi']
    exact Bits.bit_eq_false v (by omega)

/-- Words whose spare bits are clear are the words of the vector they carry: one vector has one encoding
(R83, R87). -/
theorem Bits.toWords_ofWords (n : Nat) (ws : List Word) (hl : ws.length = vectorWords n)
    (hc : spareBitsClear n ws = true) : (Bits.ofWords n ws).toWords = ws := by
  apply List.ext_getElem
  · simp [hl]
  · intro k h1 h2
    refine BitVec.eq_of_getLsbD_eq fun i hi => ?_
    have := Bits.getLsbD_getD_toWords (Bits.ofWords n ws) k i hi
    rw [List.getD_eq_getElem _ _ h1] at this
    rw [this, Bits.bit_ofWords]
    have hd : (32 * k + i) / 32 = k := by omega
    have hm : (32 * k + i) % 32 = i := by omega
    rw [hd, hm, List.getD_eq_getElem _ _ h2]
    by_cases hn : 32 * k + i < n
    · simp [hn]
    · have hv : k < vectorWords n := by rw [← hl]; exact h2
      have hkn : k = n / 32 := by unfold vectorWords at hv; omega
      rcases (spareBitsClear_iff n ws).mp hc with h | h
      · unfold vectorWords at hv; omega
      · have := h i (by omega) hi
        rw [← hkn, List.getD_eq_getElem _ _ h2] at this
        simp [hn, this]

theorem Bits.getLsbD_wordAt (v : Bits) (lo i : Nat) (hi : i < 32) : (v.wordAt lo).getLsbD i = v.bit (lo + i) := by
  rw [Bits.wordAt, Bits.getLsbD_toWord, Bits.bit_map_range]
  simp [hi]

@[simp] theorem length_wrPayload (c : Config) (a w : Word) : (wrPayload c a w).length = c.axiWrDrLen := by
  simp [wrPayload]

@[simp] theorem length_rdPayload (c : Config) (a : Word) : (rdPayload c a).length = c.axiRdDrLen := by
  simp [rdPayload]

theorem bit_wrPayload (c : Config) (a w : Word) (j : Nat) : (wrPayload c a w).bit j =
    (decide (j < c.axiWrDrLen) &&
      (fieldBit c.axiWrAddrLsb (addrPhase c.addrPhaseForm a) j || fieldBit c.axiWrDataLsb w j)) :=
  Bits.bit_map_range _ _ j

theorem bit_rdPayload (c : Config) (a : Word) (j : Nat) : (rdPayload c a).bit j =
    (decide (j < c.axiRdDrLen) && fieldBit c.axiRdAddrLsb (addrPhase c.addrPhaseForm a) j) :=
  Bits.bit_map_range _ _ j

end Sys2Proof
end

