-- ==== Sys2Proof/Laws/State.lean ====
section
/-!
SUPPORT. What each update of the state does to each field: the simp lemmas that let no later proof unfold
a record update.
-/
namespace Sys2Proof.Machine


/-! ## respond -/

@[simp] theorem State.respond_cfg (s : State) (st : Status) (data : RespData) : (s.respond st data).cfg = s.cfg := rfl
@[simp] theorem State.respond_tap (s : State) (st : Status) (data : RespData) : (s.respond st data).tap = s.tap := rfl
@[simp] theorem State.respond_claimed (s : State) (st : Status) (data : RespData) : (s.respond st data).claimed = s.claimed := rfl
@[simp] theorem State.respond_tck (s : State) (st : Status) (data : RespData) : (s.respond st data).tck = s.tck := rfl
@[simp] theorem State.respond_tms (s : State) (st : Status) (data : RespData) : (s.respond st data).tms = s.tms := rfl
@[simp] theorem State.respond_tdi (s : State) (st : Status) (data : RespData) : (s.respond st data).tdi = s.tdi := rfl
@[simp] theorem State.respond_srOut (s : State) (st : Status) (data : RespData) : (s.respond st data).srOut = s.srOut := rfl
@[simp] theorem State.respond_srIn (s : State) (st : Status) (data : RespData) : (s.respond st data).srIn = s.srIn := rfl
@[simp] theorem State.respond_resp (s : State) (st : Status) (data : RespData) : (s.respond st data).resp = some { status := st, data := data } := rfl
@[simp] theorem State.respond_lock (s : State) (st : Status) (data : RespData) : (s.respond st data).lock = s.lock := rfl
@[simp] theorem State.respond_emul (s : State) (st : Status) (data : RespData) : (s.respond st data).emul = s.emul := rfl
@[simp] theorem State.respond_refused (s : State) (st : Status) (data : RespData) : (s.respond st data).refused = s.refused := rfl
@[simp] theorem State.respond_port (s : State) (st : Status) (data : RespData) : (s.respond st data).port = s.port := rfl
@[simp] theorem State.respond_presenter (s : State) (st : Status) (data : RespData) : (s.respond st data).presenter = s.presenter := rfl
@[simp] theorem State.respond_hostQueue (s : State) (st : Status) (data : RespData) : (s.respond st data).hostQueue = s.hostQueue := rfl
@[simp] theorem State.respond_lockAnswer (s : State) (st : Status) (data : RespData) : (s.respond st data).lockAnswer = s.lockAnswer := rfl
@[simp] theorem State.respond_answers (s : State) (st : Status) (data : RespData) : (s.respond st data).answers = s.answers.tail := rfl
@[simp] theorem State.respond_drawNo (s : State) (st : Status) (data : RespData) : (s.respond st data).drawNo = s.drawNo + 1 := rfl
@[simp] theorem State.respond_trace (s : State) (st : Status) (data : RespData) : (s.respond st data).trace = s.trace := rfl

/-! ## illegalCommand -/

@[simp] theorem State.illegalCommand_cfg (s : State) : (s.illegalCommand).cfg = s.cfg := rfl
@[simp] theorem State.illegalCommand_tap (s : State) : (s.illegalCommand).tap = s.tap := rfl
@[simp] theorem State.illegalCommand_claimed (s : State) : (s.illegalCommand).claimed = s.claimed := rfl
@[simp] theorem State.illegalCommand_tck (s : State) : (s.illegalCommand).tck = s.tck := rfl
@[simp] theorem State.illegalCommand_tms (s : State) : (s.illegalCommand).tms = s.tms := rfl
@[simp] theorem State.illegalCommand_tdi (s : State) : (s.illegalCommand).tdi = s.tdi := rfl
@[simp] theorem State.illegalCommand_srOut (s : State) : (s.illegalCommand).srOut = s.srOut := rfl
@[simp] theorem State.illegalCommand_srIn (s : State) : (s.illegalCommand).srIn = s.srIn := rfl
@[simp] theorem State.illegalCommand_resp (s : State) : (s.illegalCommand).resp = some { status := .illegalCommand, data := .none } := rfl
@[simp] theorem State.illegalCommand_lock (s : State) : (s.illegalCommand).lock = s.lock := rfl
@[simp] theorem State.illegalCommand_emul (s : State) : (s.illegalCommand).emul = s.emul := rfl
@[simp] theorem State.illegalCommand_refused (s : State) : (s.illegalCommand).refused = true := rfl
@[simp] theorem State.illegalCommand_port (s : State) : (s.illegalCommand).port = s.port := rfl
@[simp] theorem State.illegalCommand_presenter (s : State) : (s.illegalCommand).presenter = s.presenter := rfl
@[simp] theorem State.illegalCommand_hostQueue (s : State) : (s.illegalCommand).hostQueue = s.hostQueue := rfl
@[simp] theorem State.illegalCommand_lockAnswer (s : State) : (s.illegalCommand).lockAnswer = s.lockAnswer := rfl
@[simp] theorem State.illegalCommand_answers (s : State) : (s.illegalCommand).answers = s.answers.tail := rfl
@[simp] theorem State.illegalCommand_drawNo (s : State) : (s.illegalCommand).drawNo = s.drawNo + 1 := rfl
@[simp] theorem State.illegalCommand_trace (s : State) : (s.illegalCommand).trace = s.trace := rfl

/-! ## takeWords -/

@[simp] theorem State.takeWords_cfg (s : State) (n : Nat) : (s.takeWords n).cfg = s.cfg := rfl
@[simp] theorem State.takeWords_tap (s : State) (n : Nat) : (s.takeWords n).tap = s.tap := rfl
@[simp] theorem State.takeWords_claimed (s : State) (n : Nat) : (s.takeWords n).claimed = s.claimed := rfl
@[simp] theorem State.takeWords_tck (s : State) (n : Nat) : (s.takeWords n).tck = s.tck := rfl
@[simp] theorem State.takeWords_tms (s : State) (n : Nat) : (s.takeWords n).tms = s.tms := rfl
@[simp] theorem State.takeWords_tdi (s : State) (n : Nat) : (s.takeWords n).tdi = s.tdi := rfl
@[simp] theorem State.takeWords_srOut (s : State) (n : Nat) : (s.takeWords n).srOut = s.srOut := rfl
@[simp] theorem State.takeWords_srIn (s : State) (n : Nat) : (s.takeWords n).srIn = s.srIn := rfl
@[simp] theorem State.takeWords_resp (s : State) (n : Nat) : (s.takeWords n).resp = s.resp := rfl
@[simp] theorem State.takeWords_lock (s : State) (n : Nat) : (s.takeWords n).lock = s.lock := rfl
@[simp] theorem State.takeWords_emul (s : State) (n : Nat) : (s.takeWords n).emul = s.emul := rfl
@[simp] theorem State.takeWords_refused (s : State) (n : Nat) : (s.takeWords n).refused = s.refused := rfl
@[simp] theorem State.takeWords_port (s : State) (n : Nat) : (s.takeWords n).port = s.port.drop n := rfl
@[simp] theorem State.takeWords_presenter (s : State) (n : Nat) : (s.takeWords n).presenter = if (s.port.drop n).isEmpty then none else s.presenter := rfl
@[simp] theorem State.takeWords_hostQueue (s : State) (n : Nat) : (s.takeWords n).hostQueue = s.hostQueue := rfl
@[simp] theorem State.takeWords_lockAnswer (s : State) (n : Nat) : (s.takeWords n).lockAnswer = s.lockAnswer := rfl
@[simp] theorem State.takeWords_answers (s : State) (n : Nat) : (s.takeWords n).answers = s.answers := rfl
@[simp] theorem State.takeWords_drawNo (s : State) (n : Nat) : (s.takeWords n).drawNo = s.drawNo := rfl
@[simp] theorem State.takeWords_trace (s : State) (n : Nat) : (s.takeWords n).trace = s.trace := rfl

/-! ## putWords -/

@[simp] theorem State.putWords_cfg (s : State) (h : HostId) (ws : List Word) : (s.putWords h ws).cfg = s.cfg := rfl
@[simp] theorem State.putWords_tap (s : State) (h : HostId) (ws : List Word) : (s.putWords h ws).tap = s.tap := rfl
@[simp] theorem State.putWords_claimed (s : State) (h : HostId) (ws : List Word) : (s.putWords h ws).claimed = s.claimed := rfl
@[simp] theorem State.putWords_tck (s : State) (h : HostId) (ws : List Word) : (s.putWords h ws).tck = s.tck := rfl
@[simp] theorem State.putWords_tms (s : State) (h : HostId) (ws : List Word) : (s.putWords h ws).tms = s.tms := rfl
@[simp] theorem State.putWords_tdi (s : State) (h : HostId) (ws : List Word) : (s.putWords h ws).tdi = s.tdi := rfl
@[simp] theorem State.putWords_srOut (s : State) (h : HostId) (ws : List Word) : (s.putWords h ws).srOut = s.srOut := rfl
@[simp] theorem State.putWords_srIn (s : State) (h : HostId) (ws : List Word) : (s.putWords h ws).srIn = s.srIn := rfl
@[simp] theorem State.putWords_resp (s : State) (h : HostId) (ws : List Word) : (s.putWords h ws).resp = s.resp := rfl
@[simp] theorem State.putWords_lock (s : State) (h : HostId) (ws : List Word) : (s.putWords h ws).lock = s.lock := rfl
@[simp] theorem State.putWords_emul (s : State) (h : HostId) (ws : List Word) : (s.putWords h ws).emul = s.emul := rfl
@[simp] theorem State.putWords_refused (s : State) (h : HostId) (ws : List Word) : (s.putWords h ws).refused = s.refused := rfl
@[simp] theorem State.putWords_port (s : State) (h : HostId) (ws : List Word) : (s.putWords h ws).port = s.port ++ ws := rfl
@[simp] theorem State.putWords_presenter (s : State) (h : HostId) (ws : List Word) : (s.putWords h ws).presenter = if (s.port ++ ws).isEmpty then none else some h := rfl
@[simp] theorem State.putWords_hostQueue (s : State) (h : HostId) (ws : List Word) : (s.putWords h ws).hostQueue = s.hostQueue := rfl
@[simp] theorem State.putWords_lockAnswer (s : State) (h : HostId) (ws : List Word) : (s.putWords h ws).lockAnswer = s.lockAnswer := rfl
@[simp] theorem State.putWords_answers (s : State) (h : HostId) (ws : List Word) : (s.putWords h ws).answers = s.answers := rfl
@[simp] theorem State.putWords_drawNo (s : State) (h : HostId) (ws : List Word) : (s.putWords h ws).drawNo = s.drawNo := rfl
@[simp] theorem State.putWords_trace (s : State) (h : HostId) (ws : List Word) : (s.putWords h ws).trace = s.trace := rfl

/-! ## setLine -/

@[simp] theorem State.setLine_cfg (s : State) (line : Line) (l : Level) : (s.setLine line l).cfg = s.cfg := by
  cases line <;> rfl
@[simp] theorem State.setLine_tap (s : State) (line : Line) (l : Level) : (s.setLine line l).tap = s.tap := by
  cases line <;> rfl
@[simp] theorem State.setLine_claimed (s : State) (line : Line) (l : Level) : (s.setLine line l).claimed = s.claimed := by
  cases line <;> rfl
@[simp] theorem State.setLine_tck (s : State) (line : Line) (l : Level) :
    (s.setLine line l).tck = if line = .tck then l else s.tck := by cases line <;> rfl
@[simp] theorem State.setLine_tms (s : State) (line : Line) (l : Level) :
    (s.setLine line l).tms = if line = .tms then l else s.tms := by cases line <;> rfl
@[simp] theorem State.setLine_tdi (s : State) (line : Line) (l : Level) :
    (s.setLine line l).tdi = if line = .tdi then l else s.tdi := by cases line <;> rfl
@[simp] theorem State.setLine_srOut (s : State) (line : Line) (l : Level) : (s.setLine line l).srOut = s.srOut := by
  cases line <;> rfl
@[simp] theorem State.setLine_srIn (s : State) (line : Line) (l : Level) : (s.setLine line l).srIn = s.srIn := by
  cases line <;> rfl
@[simp] theorem State.setLine_resp (s : State) (line : Line) (l : Level) : (s.setLine line l).resp = s.resp := by
  cases line <;> rfl
@[simp] theorem State.setLine_lock (s : State) (line : Line) (l : Level) : (s.setLine line l).lock = s.lock := by
  cases line <;> rfl
@[simp] theorem State.setLine_emul (s : State) (line : Line) (l : Level) : (s.setLine line l).emul = s.emul := by
  cases line <;> rfl
@[simp] theorem State.setLine_refused (s : State) (line : Line) (l : Level) : (s.setLine line l).refused = s.refused := by
  cases line <;> rfl
@[simp] theorem State.setLine_port (s : State) (line : Line) (l : Level) : (s.setLine line l).port = s.port := by
  cases line <;> rfl
@[simp] theorem State.setLine_presenter (s : State) (line : Line) (l : Level) : (s.setLine line l).presenter = s.presenter := by
  cases line <;> rfl
@[simp] theorem State.setLine_hostQueue (s : State) (line : Line) (l : Level) : (s.setLine line l).hostQueue = s.hostQueue := by
  cases line <;> rfl
@[simp] theorem State.setLine_lockAnswer (s : State) (line : Line) (l : Level) : (s.setLine line l).lockAnswer = s.lockAnswer := by
  cases line <;> rfl
@[simp] theorem State.setLine_answers (s : State) (line : Line) (l : Level) : (s.setLine line l).answers = s.answers := by
  cases line <;> rfl
@[simp] theorem State.setLine_drawNo (s : State) (line : Line) (l : Level) : (s.setLine line l).drawNo = s.drawNo := by
  cases line <;> rfl
@[simp] theorem State.setLine_trace (s : State) (line : Line) (l : Level) : (s.setLine line l).trace = s.trace := by
  cases line <;> rfl

/-! ## the effect of a pin primitive -/

@[simp] theorem PinPrim.effect_cfg (p : PinPrim) (s : State) : (p.effect s).cfg = s.cfg := by
  cases p <;> simp [PinPrim.effect]
@[simp] theorem PinPrim.effect_tap (p : PinPrim) (s : State) : (p.effect s).tap = s.tap := by
  cases p <;> simp [PinPrim.effect]
@[simp] theorem PinPrim.effect_claimed (p : PinPrim) (s : State) : (p.effect s).claimed = s.claimed := by
  cases p <;> simp [PinPrim.effect]
@[simp] theorem PinPrim.effect_srOut (p : PinPrim) (s : State) : (p.effect s).srOut = s.srOut := by
  cases p <;> simp [PinPrim.effect]
@[simp] theorem PinPrim.effect_srIn (p : PinPrim) (s : State) : (p.effect s).srIn = s.srIn := by
  cases p <;> simp [PinPrim.effect]
@[simp] theorem PinPrim.effect_resp (p : PinPrim) (s : State) : (p.effect s).resp = s.resp := by
  cases p <;> simp [PinPrim.effect]
@[simp] theorem PinPrim.effect_lock (p : PinPrim) (s : State) : (p.effect s).lock = s.lock := by
  cases p <;> simp [PinPrim.effect]
@[simp] theorem PinPrim.effect_emul (p : PinPrim) (s : State) : (p.effect s).emul = s.emul := by
  cases p <;> simp [PinPrim.effect]
@[simp] theorem PinPrim.effect_refused (p : PinPrim) (s : State) : (p.effect s).refused = s.refused := by
  cases p <;> simp [PinPrim.effect]
@[simp] theorem PinPrim.effect_port (p : PinPrim) (s : State) : (p.effect s).port = s.port := by
  cases p <;> simp [PinPrim.effect]
@[simp] theorem PinPrim.effect_presenter (p : PinPrim) (s : State) : (p.effect s).presenter = s.presenter := by
  cases p <;> simp [PinPrim.effect]
@[simp] theorem PinPrim.effect_hostQueue (p : PinPrim) (s : State) : (p.effect s).hostQueue = s.hostQueue := by
  cases p <;> simp [PinPrim.effect]
@[simp] theorem PinPrim.effect_lockAnswer (p : PinPrim) (s : State) : (p.effect s).lockAnswer = s.lockAnswer := by
  cases p <;> simp [PinPrim.effect]
@[simp] theorem PinPrim.effect_answers (p : PinPrim) (s : State) : (p.effect s).answers = s.answers := by
  cases p <;> simp [PinPrim.effect]
@[simp] theorem PinPrim.effect_drawNo (p : PinPrim) (s : State) : (p.effect s).drawNo = s.drawNo := by
  cases p <;> simp [PinPrim.effect]
@[simp] theorem PinPrim.effect_trace (p : PinPrim) (s : State) : (p.effect s).trace = s.trace := by
  cases p <;> simp [PinPrim.effect]

/-! ## the parts of a command being performed -/

@[simp] theorem State.begin_st (s : State) : s.begin.st = s := rfl
@[simp] theorem State.begin_prims (s : State) : s.begin.prims = 0 := rfl
@[simp] theorem State.begin_reads (s : State) : s.begin.reads = 0 := rfl
@[simp] theorem Run.tried_prims (r : Run) (p : PinPrim) (ok : Bool) : (r.tried p ok).prims = r.prims + 1 := rfl
@[simp] theorem Run.tried_reads (r : Run) (p : PinPrim) (ok : Bool) :
    (r.tried p ok).reads = r.reads + (if p = .readTdo then 1 else 0) := rfl
@[simp] theorem Run.performed_prims (r : Run) (p : PinPrim) : (r.performed p).prims = r.prims + 1 := rfl
@[simp] theorem Run.performed_reads (r : Run) (p : PinPrim) :
    (r.performed p).reads = r.reads + (if p = .readTdo then 1 else 0) := rfl
@[simp] theorem Run.afterTick_prims (r : Run) (t : Tick) : (r.afterTick t).prims = r.prims := rfl
@[simp] theorem Run.afterTick_reads (r : Run) (t : Tick) : (r.afterTick t).reads = r.reads := rfl
@[simp] theorem Run.loadShift_prims (r : Run) (v : Bits) : (r.loadShift v).prims = r.prims := rfl
@[simp] theorem Run.loadShift_reads (r : Run) (v : Bits) : (r.loadShift v).reads = r.reads := rfl
@[simp] theorem Run.tried_cfg (r : Run) (p : PinPrim) (ok : Bool) : (r.tried p ok).st.cfg = r.st.cfg := rfl
@[simp] theorem Run.tried_tap (r : Run) (p : PinPrim) (ok : Bool) : (r.tried p ok).st.tap = r.st.tap := rfl
@[simp] theorem Run.tried_claimed (r : Run) (p : PinPrim) (ok : Bool) : (r.tried p ok).st.claimed = r.st.claimed := rfl
@[simp] theorem Run.tried_tck (r : Run) (p : PinPrim) (ok : Bool) : (r.tried p ok).st.tck = r.st.tck := rfl
@[simp] theorem Run.tried_tms (r : Run) (p : PinPrim) (ok : Bool) : (r.tried p ok).st.tms = r.st.tms := rfl
@[simp] theorem Run.tried_tdi (r : Run) (p : PinPrim) (ok : Bool) : (r.tried p ok).st.tdi = r.st.tdi := rfl
@[simp] theorem Run.tried_srOut (r : Run) (p : PinPrim) (ok : Bool) : (r.tried p ok).st.srOut = r.st.srOut := rfl
@[simp] theorem Run.tried_srIn (r : Run) (p : PinPrim) (ok : Bool) : (r.tried p ok).st.srIn = r.st.srIn := rfl
@[simp] theorem Run.tried_resp (r : Run) (p : PinPrim) (ok : Bool) : (r.tried p ok).st.resp = r.st.resp := rfl
@[simp] theorem Run.tried_lock (r : Run) (p : PinPrim) (ok : Bool) : (r.tried p ok).st.lock = r.st.lock := rfl
@[simp] theorem Run.tried_emul (r : Run) (p : PinPrim) (ok : Bool) : (r.tried p ok).st.emul = r.st.emul := rfl
@[simp] theorem Run.tried_refused (r : Run) (p : PinPrim) (ok : Bool) : (r.tried p ok).st.refused = r.st.refused := rfl
@[simp] theorem Run.tried_port (r : Run) (p : PinPrim) (ok : Bool) : (r.tried p ok).st.port = r.st.port := rfl
@[simp] theorem Run.tried_presenter (r : Run) (p : PinPrim) (ok : Bool) : (r.tried p ok).st.presenter = r.st.presenter := rfl
@[simp] theorem Run.tried_hostQueue (r : Run) (p : PinPrim) (ok : Bool) : (r.tried p ok).st.hostQueue = r.st.hostQueue := rfl
@[simp] theorem Run.tried_lockAnswer (r : Run) (p : PinPrim) (ok : Bool) : (r.tried p ok).st.lockAnswer = r.st.lockAnswer := rfl
@[simp] theorem Run.tried_answers (r : Run) (p : PinPrim) (ok : Bool) : (r.tried p ok).st.answers = r.st.answers := rfl
@[simp] theorem Run.tried_drawNo (r : Run) (p : PinPrim) (ok : Bool) : (r.tried p ok).st.drawNo = r.st.drawNo := rfl
@[simp] theorem Run.tried_trace (r : Run) (p : PinPrim) (ok : Bool) : (r.tried p ok).st.trace = r.st.trace ++ [{ prim := p, ok := ok }] := rfl
@[simp] theorem Run.performed_cfg (r : Run) (p : PinPrim) : (r.performed p).st.cfg = r.st.cfg := by
  simp [Run.performed]
@[simp] theorem Run.performed_tap (r : Run) (p : PinPrim) : (r.performed p).st.tap = r.st.tap := by
  simp [Run.performed]
@[simp] theorem Run.performed_claimed (r : Run) (p : PinPrim) : (r.performed p).st.claimed = r.st.claimed := by
  simp [Run.performed]
@[simp] theorem Run.performed_srOut (r : Run) (p : PinPrim) : (r.performed p).st.srOut = r.st.srOut := by
  simp [Run.performed]
@[simp] theorem Run.performed_srIn (r : Run) (p : PinPrim) : (r.performed p).st.srIn = r.st.srIn := by
  simp [Run.performed]
@[simp] theorem Run.performed_resp (r : Run) (p : PinPrim) : (r.performed p).st.resp = r.st.resp := by
  simp [Run.performed]
@[simp] theorem Run.performed_lock (r : Run) (p : PinPrim) : (r.performed p).st.lock = r.st.lock := by
  simp [Run.performed]
@[simp] theorem Run.performed_emul (r : Run) (p : PinPrim) : (r.performed p).st.emul = r.st.emul := by
  simp [Run.performed]
@[simp] theorem Run.performed_refused (r : Run) (p : PinPrim) : (r.performed p).st.refused = r.st.refused := by
  simp [Run.performed]
@[simp] theorem Run.performed_port (r : Run) (p : PinPrim) : (r.performed p).st.port = r.st.port := by
  simp [Run.performed]
@[simp] theorem Run.performed_presenter (r : Run) (p : PinPrim) : (r.performed p).st.presenter = r.st.presenter := by
  simp [Run.performed]
@[simp] theorem Run.performed_hostQueue (r : Run) (p : PinPrim) : (r.performed p).st.hostQueue = r.st.hostQueue := by
  simp [Run.performed]
@[simp] theorem Run.performed_lockAnswer (r : Run) (p : PinPrim) : (r.performed p).st.lockAnswer = r.st.lockAnswer := by
  simp [Run.performed]
@[simp] theorem Run.performed_answers (r : Run) (p : PinPrim) : (r.performed p).st.answers = r.st.answers := by
  simp [Run.performed]
@[simp] theorem Run.performed_drawNo (r : Run) (p : PinPrim) : (r.performed p).st.drawNo = r.st.drawNo := by
  simp [Run.performed]
@[simp] theorem Run.performed_trace (r : Run) (p : PinPrim) : (r.performed p).st.trace = r.st.trace ++ [{ prim := p, ok := true }] := by
  simp [Run.performed]
@[simp] theorem Run.afterTick_cfg (r : Run) (t : Tick) : (r.afterTick t).st.cfg = r.st.cfg := rfl
@[simp] theorem Run.afterTick_tap (r : Run) (t : Tick) : (r.afterTick t).st.tap = r.st.tap.next t.tms := rfl
@[simp] theorem Run.afterTick_claimed (r : Run) (t : Tick) : (r.afterTick t).st.claimed = r.st.claimed := rfl
@[simp] theorem Run.afterTick_tck (r : Run) (t : Tick) : (r.afterTick t).st.tck = r.st.tck := rfl
@[simp] theorem Run.afterTick_tms (r : Run) (t : Tick) : (r.afterTick t).st.tms = r.st.tms := rfl
@[simp] theorem Run.afterTick_tdi (r : Run) (t : Tick) : (r.afterTick t).st.tdi = r.st.tdi := rfl
@[simp] theorem Run.afterTick_srOut (r : Run) (t : Tick) : (r.afterTick t).st.srOut = r.st.srOut := rfl
@[simp] theorem Run.afterTick_resp (r : Run) (t : Tick) : (r.afterTick t).st.resp = r.st.resp := rfl
@[simp] theorem Run.afterTick_lock (r : Run) (t : Tick) : (r.afterTick t).st.lock = r.st.lock := rfl
@[simp] theorem Run.afterTick_emul (r : Run) (t : Tick) : (r.afterTick t).st.emul = r.st.emul := rfl
@[simp] theorem Run.afterTick_refused (r : Run) (t : Tick) : (r.afterTick t).st.refused = r.st.refused := rfl
@[simp] theorem Run.afterTick_port (r : Run) (t : Tick) : (r.afterTick t).st.port = r.st.port := rfl
@[simp] theorem Run.afterTick_presenter (r : Run) (t : Tick) : (r.afterTick t).st.presenter = r.st.presenter := rfl
@[simp] theorem Run.afterTick_hostQueue (r : Run) (t : Tick) : (r.afterTick t).st.hostQueue = r.st.hostQueue := rfl
@[simp] theorem Run.afterTick_lockAnswer (r : Run) (t : Tick) : (r.afterTick t).st.lockAnswer = r.st.lockAnswer := rfl
@[simp] theorem Run.afterTick_answers (r : Run) (t : Tick) : (r.afterTick t).st.answers = r.st.answers := rfl
@[simp] theorem Run.afterTick_drawNo (r : Run) (t : Tick) : (r.afterTick t).st.drawNo = r.st.drawNo := rfl
@[simp] theorem Run.afterTick_trace (r : Run) (t : Tick) : (r.afterTick t).st.trace = r.st.trace := rfl
@[simp] theorem Run.loadShift_cfg (r : Run) (v : Bits) : (r.loadShift v).st.cfg = r.st.cfg := rfl
@[simp] theorem Run.loadShift_tap (r : Run) (v : Bits) : (r.loadShift v).st.tap = r.st.tap := rfl
@[simp] theorem Run.loadShift_claimed (r : Run) (v : Bits) : (r.loadShift v).st.claimed = r.st.claimed := rfl
@[simp] theorem Run.loadShift_tck (r : Run) (v : Bits) : (r.loadShift v).st.tck = r.st.tck := rfl
@[simp] theorem Run.loadShift_tms (r : Run) (v : Bits) : (r.loadShift v).st.tms = r.st.tms := rfl
@[simp] theorem Run.loadShift_tdi (r : Run) (v : Bits) : (r.loadShift v).st.tdi = r.st.tdi := rfl
@[simp] theorem Run.loadShift_srOut (r : Run) (v : Bits) : (r.loadShift v).st.srOut = v := rfl
@[simp] theorem Run.loadShift_srIn (r : Run) (v : Bits) : (r.loadShift v).st.srIn = Bits.zero v.length := rfl
@[simp] theorem Run.loadShift_resp (r : Run) (v : Bits) : (r.loadShift v).st.resp = r.st.resp := rfl
@[simp] theorem Run.loadShift_lock (r : Run) (v : Bits) : (r.loadShift v).st.lock = r.st.lock := rfl
@[simp] theorem Run.loadShift_emul (r : Run) (v : Bits) : (r.loadShift v).st.emul = r.st.emul := rfl
@[simp] theorem Run.loadShift_refused (r : Run) (v : Bits) : (r.loadShift v).st.refused = r.st.refused := rfl
@[simp] theorem Run.loadShift_port (r : Run) (v : Bits) : (r.loadShift v).st.port = r.st.port := rfl
@[simp] theorem Run.loadShift_presenter (r : Run) (v : Bits) : (r.loadShift v).st.presenter = r.st.presenter := rfl
@[simp] theorem Run.loadShift_hostQueue (r : Run) (v : Bits) : (r.loadShift v).st.hostQueue = r.st.hostQueue := rfl
@[simp] theorem Run.loadShift_lockAnswer (r : Run) (v : Bits) : (r.loadShift v).st.lockAnswer = r.st.lockAnswer := rfl
@[simp] theorem Run.loadShift_answers (r : Run) (v : Bits) : (r.loadShift v).st.answers = r.st.answers := rfl
@[simp] theorem Run.loadShift_drawNo (r : Run) (v : Bits) : (r.loadShift v).st.drawNo = r.st.drawNo := rfl
@[simp] theorem Run.loadShift_trace (r : Run) (v : Bits) : (r.loadShift v).st.trace = r.st.trace := rfl

end Sys2Proof.Machine
end

