-- ==== Sys2Proof/Laws/Ops.lean ====
section
/-!
SUPPORT. What each shared operation of a command can do: a primitive, primitives in order, a tick, ticks in
order, the scan, the reset sequence, the idle wait and the bridge's selection.
-/
namespace Sys2Proof.Machine

/-! ## The draws do not change while a command runs -/

theorem State.okAt_congr {s t : State} (ha : t.answers = s.answers) (hd : t.drawNo = s.drawNo) (k : Nat) :
    t.okAt k = s.okAt k := by
  simp only [State.okAt, ha, hd]

theorem State.tdoAt_congr {s t : State} (ha : t.answers = s.answers) (hd : t.drawNo = s.drawNo) (k : Nat) :
    t.tdoAt k = s.tdoAt k := by
  simp only [State.tdoAt, ha, hd]

/-- What a command being performed leaves alone: everything but the mirror, the session, the lines, the
shift register and the trace. -/
def State.Keeps (s t : State) : Prop :=
  t = { s with
    tap := t.tap, claimed := t.claimed, tck := t.tck, tms := t.tms, tdi := t.tdi, srOut := t.srOut
    srIn := t.srIn, trace := t.trace }

theorem State.Keeps.refl (s : State) : s.Keeps s := rfl

theorem State.Keeps.trans {s t u : State} (h : s.Keeps t) (h' : t.Keeps u) : s.Keeps u := by
  unfold State.Keeps at *
  rw [h', h]

theorem State.Keeps.cfg_eq {s t : State} (h : s.Keeps t) : t.cfg = s.cfg := by rw [h]
theorem State.Keeps.answers_eq {s t : State} (h : s.Keeps t) : t.answers = s.answers := by rw [h]
theorem State.Keeps.drawNo_eq {s t : State} (h : s.Keeps t) : t.drawNo = s.drawNo := by rw [h]

theorem State.Keeps.okAt_eq {s t : State} (h : s.Keeps t) (k : Nat) : t.okAt k = s.okAt k :=
  State.okAt_congr h.answers_eq h.drawNo_eq k

theorem State.Keeps.tdoAt_eq {s t : State} (h : s.Keeps t) (k : Nat) : t.tdoAt k = s.tdoAt k :=
  State.tdoAt_congr h.answers_eq h.drawNo_eq k

theorem State.Keeps.captured_eq {s t : State} (h : s.Keeps t) (first n : Nat) :
    captured t first n = captured s first n := by
  unfold captured
  rw [h.cfg_eq]
  simp only [h.tdoAt_eq]

theorem State.keeps_setLine (s : State) (line : Line) (l : Level) : s.Keeps (s.setLine line l) := by
  cases line <;> rfl

theorem PinPrim.keeps_effect (p : PinPrim) (s : State) : s.Keeps (p.effect s) := by
  cases p with
  | set line b => exact s.keeps_setLine line _
  | readTdo => rfl
  | toggle => rfl
  | releaseLine line => exact s.keeps_setLine line _

theorem Run.keeps_tried (r : Run) (p : PinPrim) (ok : Bool) : r.st.Keeps (r.tried p ok).st := rfl

theorem Run.keeps_performed (r : Run) (p : PinPrim) : r.st.Keeps (r.performed p).st :=
  (r.keeps_tried p true).trans (p.keeps_effect _)

theorem Run.keeps_afterTick (r : Run) (t : Tick) : r.st.Keeps (r.afterTick t).st := rfl

theorem Run.keeps_loadShift (r : Run) (v : Bits) : r.st.Keeps (r.loadShift v).st := rfl

/-! ## Composition -/

/-- The state of a command at its end or where it stands. -/
def Drive.run : Drive → Run
  | .going r => r
  | .ended _ r => r

@[simp] theorem Drive.run_going (r : Run) : (Drive.going r).run = r := rfl
@[simp] theorem Drive.run_ended (e : Status) (r : Run) : (Drive.ended e r).run = r := rfl
@[simp] theorem Drive.andThen_going (r : Run) (f : Run → Drive) : (Drive.going r).andThen f = f r := rfl
@[simp] theorem Drive.andThen_ended (e : Status) (r : Run) (f : Run → Drive) :
    (Drive.ended e r).andThen f = .ended e r := rfl
@[simp] theorem Drive.finish_going (r : Run) (data : State → RespData) :
    (Drive.going r).finish data = r.st.respond .ok (data r.st) := rfl
@[simp] theorem Drive.finish_ended (e : Status) (r : Run) (data : State → RespData) :
    (Drive.ended e r).finish data = r.st.respond e .none := rfl

theorem Drive.andThen_assoc (d : Drive) (f g : Run → Drive) :
    (d.andThen f).andThen g = d.andThen fun r => (f r).andThen g := by
  cases d <;> rfl

/-- A sequence goes on only if both parts do. -/
theorem Drive.andThen_eq_going {d : Drive} {f : Run → Drive} {r' : Run} (h : d.andThen f = .going r') :
    ∃ r, d = .going r ∧ f r = .going r' := by
  cases d with
  | going r => exact ⟨r, rfl, h⟩
  | ended e r => simp at h

/-- A sequence ends in its first part, or goes through it and ends in its second. -/
theorem Drive.andThen_eq_ended {d : Drive} {f : Run → Drive} {e : Status} {r' : Run}
    (h : d.andThen f = .ended e r') : d = .ended e r' ∨ ∃ r, d = .going r ∧ f r = .ended e r' := by
  cases d with
  | going r => exact .inr ⟨r, rfl, h⟩
  | ended e' r => exact .inl h

/-! ## Primitives -/

/-- One primitive: it succeeds with its effect, or the command ends with the pin failure of R206. -/
theorem doPrim_cases (p : PinPrim) (r : Run) :
    (r.nextOk = true ∧ doPrim p r = .going (r.performed p)) ∨
      (r.nextOk = false ∧ doPrim p r = r.pinFailure p) := by
  unfold doPrim
  cases r.nextOk <;> simp

/-- Primitives in order: all succeed, or the first that fails ends the command. -/
theorem doPrims_cases (ps : List PinPrim) (r : Run) :
    doPrims ps r = .going (ps.foldl Run.performed r) ∨
      ∃ pre p post, ps = pre ++ p :: post ∧
        doPrims ps r = (pre.foldl Run.performed r).pinFailure p := by
  induction ps generalizing r with
  | nil => exact .inl rfl
  | cons p rest ih =>
    rcases doPrim_cases p r with ⟨-, h⟩ | ⟨-, h⟩
    · simp only [doPrims, h, Drive.andThen_going, List.foldl_cons]
      rcases ih (r.performed p) with h' | ⟨pre, q, post, hps, h'⟩
      · exact .inl h'
      · exact .inr ⟨p :: pre, q, post, by simp [hps], h'⟩
    · exact .inr ⟨[], p, rest, rfl, by simp [doPrims, h, Run.pinFailure]⟩

theorem Run.keeps_foldl_performed (ps : List PinPrim) (r : Run) :
    r.st.Keeps (ps.foldl Run.performed r).st := by
  induction ps generalizing r with
  | nil => rfl
  | cons p rest ih => exact (r.keeps_performed p).trans (ih (r.performed p))

theorem Run.foldl_performed_prims (ps : List PinPrim) (r : Run) :
    (ps.foldl Run.performed r).prims = r.prims + ps.length := by
  induction ps generalizing r with
  | nil => simp
  | cons p rest ih => simp [ih]; omega

theorem Run.foldl_performed_trace (ps : List PinPrim) (r : Run) :
    (ps.foldl Run.performed r).st.trace = r.st.trace ++ okEvents ps := by
  induction ps generalizing r with
  | nil => simp [okEvents]
  | cons p rest ih => simp [ih, okEvents]

/-- Primitives none of which fails. -/
theorem doPrims_going (ps : List PinPrim) (r : Run) (h : ∀ k, r.st.okAt k = true) :
    doPrims ps r = .going (ps.foldl Run.performed r) := by
  induction ps generalizing r with
  | nil => rfl
  | cons p rest ih =>
    have hp : doPrim p r = .going (r.performed p) := by
      rcases doPrim_cases p r with ⟨-, h'⟩ | ⟨h', -⟩
      · exact h'
      · simp [Run.nextOk, h] at h'
    simp only [doPrims, hp, Drive.andThen_going, List.foldl_cons]
    exact ih _ fun k => ((r.keeps_performed p).okAt_eq k).trans (h k)

/-! ## Ticks -/

/-- What a tick without a pin failure leaves (R113). -/
def Run.ticked (r : Run) (t : Tick) : Run where
  st :=
    { r.st with
      tck := .low
      tms := Level.ofBool t.tms
      tdi := Level.ofBool t.tdi
      tap := r.st.tap.next t.tms
      srIn := match t.sample with
        | none => r.st.srIn
        | some j => r.st.srIn.setBit j (r.st.tdoAt (r.reads + 1))
      trace := r.st.trace ++ okEvents t.prims }
  prims := r.prims + t.prims.length
  reads := r.reads + (if t.sample.isSome then 1 else 0)

theorem foldl_tick_prims (r : Run) (t : Tick) : (t.prims.foldl Run.performed r).afterTick t = r.ticked t := by
  obtain ⟨tms, tdi, sample⟩ := t
  cases sample <;>
    simp [Tick.prims, Run.ticked, Run.afterTick, Run.performed, Run.tried, PinPrim.effect, State.setLine,
      okEvents, State.tdoAt, Nat.add_assoc]

theorem Run.keeps_ticked (r : Run) (t : Tick) : r.st.Keeps (r.ticked t).st := rfl

theorem Run.keeps_foldl_ticked (ts : List Tick) (r : Run) : r.st.Keeps (ts.foldl Run.ticked r).st := by
  induction ts generalizing r with
  | nil => rfl
  | cons t rest ih => exact (r.keeps_ticked t).trans (ih (r.ticked t))

theorem Run.foldl_ticked_trace (ts : List Tick) (r : Run) :
    (ts.foldl Run.ticked r).st.trace = r.st.trace ++ okEvents (ticksPrims ts) := by
  induction ts generalizing r with
  | nil => simp [okEvents, ticksPrims]
  | cons t rest ih => simp [ih, okEvents, ticksPrims, Run.ticked]

theorem Run.foldl_ticked_tap (ts : List Tick) (r : Run) :
    (ts.foldl Run.ticked r).st.tap = r.st.tap.walk (ts.map Tick.tms) := by
  induction ts generalizing r with
  | nil => rfl
  | cons t rest ih => rw [List.foldl_cons, ih]; rfl

/-- One tick: it takes place, or one of its primitives ends the command (R113, R206). -/
theorem doTick_cases (t : Tick) (r : Run) :
    doTick t r = .going (r.ticked t) ∨
      ∃ pre p post, t.prims = pre ++ p :: post ∧ doTick t r = (pre.foldl Run.performed r).pinFailure p := by
  unfold doTick
  rcases doPrims_cases t.prims r with h | ⟨pre, p, post, hps, h⟩
  · exact .inl (by rw [h, Drive.andThen_going, foldl_tick_prims])
  · exact .inr ⟨pre, p, post, hps, by rw [h]; rfl⟩

theorem doTick_going (t : Tick) (r : Run) (h : ∀ k, r.st.okAt k = true) :
    doTick t r = .going (r.ticked t) := by
  rw [doTick, doPrims_going _ _ h, Drive.andThen_going, foldl_tick_prims]

/-- Ticks none of whose primitives fails. -/
theorem doTicks_going (ts : List Tick) (r : Run) (h : ∀ k, r.st.okAt k = true) :
    doTicks ts r = .going (ts.foldl Run.ticked r) := by
  induction ts generalizing r with
  | nil => rfl
  | cons t rest ih =>
    simp only [doTicks, doTick_going t r h, Drive.andThen_going, List.foldl_cons]
    exact ih _ fun k => ((r.keeps_ticked t).okAt_eq k).trans (h k)

/-- Ticks in order: all take place, or a primitive of one of them ends the command. -/
theorem doTicks_cases (ts : List Tick) (r : Run) :
    doTicks ts r = .going (ts.foldl Run.ticked r) ∨
      ∃ before t after pre p post, ts = before ++ t :: after ∧ t.prims = pre ++ p :: post ∧
        doTicks ts r = (pre.foldl Run.performed (before.foldl Run.ticked r)).pinFailure p := by
  induction ts generalizing r with
  | nil => exact .inl rfl
  | cons t rest ih =>
    rcases doTick_cases t r with h | ⟨pre, p, post, hps, h⟩
    · simp only [doTicks, h, Drive.andThen_going, List.foldl_cons]
      rcases ih (r.ticked t) with h' | ⟨before, u, after, pre, p, post, hts, hps, h'⟩
      · exact .inl h'
      · exact .inr ⟨t :: before, u, after, pre, p, post, by simp [hts], hps, h'⟩
    · exact .inr ⟨[], t, rest, pre, p, post, rfl, hps, by rw [doTicks, h]; rfl⟩

theorem doTicks_append (ts us : List Tick) (r : Run) :
    doTicks (ts ++ us) r = (doTicks ts r).andThen (doTicks us) := by
  induction ts generalizing r with
  | nil => rfl
  | cons t rest ih =>
    simp only [List.cons_append, doTicks]
    rw [Drive.andThen_assoc]
    congr 1
    funext r
    exact ih r

/-! ## How a part of a command goes: the invariant of every part -/

/-- The levels of the output lines. -/
def State.lines (s : State) : Level × Level × Level := (s.tck, s.tms, s.tdi)

/-- What a successful primitive does to the levels (R26). -/
def PinPrim.onLines (p : PinPrim) (l : Level × Level × Level) : Level × Level × Level :=
  match p with
  | .set .tck b => (Level.ofBool b, l.2)
  | .set .tms b => (l.1, Level.ofBool b, l.2.2)
  | .set .tdi b => (l.1, l.2.1, Level.ofBool b)
  | .readTdo => l
  | .toggle => (.low, l.2)
  | .releaseLine .tck => (.z, l.2)
  | .releaseLine .tms => (l.1, .z, l.2.2)
  | .releaseLine .tdi => (l.1, l.2.1, .z)

/-- What successful primitives do to the levels, in order. -/
def linesAfter (ps : List PinPrim) (l : Level × Level × Level) : Level × Level × Level :=
  ps.foldl (fun l p => p.onLines l) l

theorem linesAfter_append (ps qs : List PinPrim) (l : Level × Level × Level) :
    linesAfter (ps ++ qs) l = linesAfter qs (linesAfter ps l) := List.foldl_append

theorem Run.performed_lines (r : Run) (p : PinPrim) : (r.performed p).st.lines = p.onLines r.st.lines := by
  rcases p with ⟨line, b⟩ | _ | _ | line <;> try cases line
  all_goals rfl

/-- What every part of a command does: it goes on or ends; it keeps what commands keep; some primitives
succeed, in order, and they alone move the lines; and a failed one is the last, and then the mirror is
unknown and the status `IO_ERROR` (R206). -/
def Drive.Sound (r : Run) (d : Drive) : Prop :=
  r.st.Keeps d.run.st ∧ ∃ ps, d.run.st.lines = linesAfter ps r.st.lines ∧
    (∀ k, r.prims < k → k ≤ r.prims + ps.length → r.st.okAt k = true) ∧
    match d with
    | .going r' => r'.st.trace = r.st.trace ++ okEvents ps ∧ r'.prims = r.prims + ps.length
    | .ended e r' =>
      (e = .ioError ∧ r'.st.tap = .unknown ∧ r.st.okAt (r.prims + ps.length + 1) = false ∧
        ∃ p, r'.st.trace = r.st.trace ++ okEvents ps ++ [{ prim := p, ok := false }]) ∨
      (e = .protocolError ∧ r'.st.trace = r.st.trace ++ okEvents ps)

/-- A run that has performed no primitive since. -/
theorem Drive.sound_of_same {r r' : Run} (hk : r.st.Keeps r'.st) (hl : r'.st.lines = r.st.lines)
    (ht : r'.st.trace = r.st.trace) (hp : r'.prims = r.prims) : Drive.Sound r (.going r') :=
  ⟨hk, [], hl, fun k h h' => by simp at h'; omega, by simp [ht, okEvents], by simp [hp]⟩

theorem Drive.sound_going (r : Run) : Drive.Sound r (.going r) :=
  Drive.sound_of_same (State.Keeps.refl _) rfl rfl rfl

theorem okEvents_append (ps qs : List PinPrim) : okEvents (ps ++ qs) = okEvents ps ++ okEvents qs := by
  simp [okEvents]

theorem Drive.sound_andThen {r : Run} {d : Drive} {f : Run → Drive} (h : d.Sound r)
    (hf : ∀ r', (f r').Sound r') : (d.andThen f).Sound r := by
  cases d with
  | ended e r' => exact h
  | going r' =>
    obtain ⟨hk, ps, hl, hok, ht, hp⟩ := h
    obtain ⟨hk', qs, hl', hok', h'⟩ := hf r'
    rw [Drive.andThen_going]
    simp only [Drive.run_going] at hk hl
    refine ⟨hk.trans hk', ps ++ qs, ?_, ?_, ?_⟩
    · rw [hl', hl, linesAfter_append]
    · intro k h1 h2
      rw [List.length_append] at h2
      by_cases hx : k ≤ r.prims + ps.length
      · exact hok k h1 hx
      · rw [← hk.okAt_eq]; exact hok' k (by omega) (by omega)
    · cases hd : f r' with
      | going r'' =>
        rw [hd] at h'
        exact ⟨by rw [h'.1, ht, okEvents_append, List.append_assoc], by rw [h'.2, hp, List.length_append]; omega⟩
      | ended e r'' =>
        rw [hd] at h'
        rcases h' with ⟨he, hu, hn, p, hq⟩ | ⟨he, hq⟩
        · refine .inl ⟨he, hu, ?_, p, by rw [hq, ht, okEvents_append]; simp⟩
          rw [← hk.okAt_eq, List.length_append, ← Nat.add_assoc, ← hp]; exact hn
        · exact .inr ⟨he, by rw [hq, ht, okEvents_append, List.append_assoc]⟩

theorem doPrim_sound (p : PinPrim) (r : Run) : (doPrim p r).Sound r := by
  rcases doPrim_cases p r with ⟨hn, h⟩ | ⟨hn, h⟩ <;> rw [h]
  · refine ⟨r.keeps_performed p, [p], r.performed_lines p, fun k h1 h2 => ?_, by simp [okEvents], rfl⟩
    rw [List.length_singleton] at h2
    rw [show k = r.prims + 1 by omega]; exact hn
  · exact ⟨rfl, [], rfl, fun k h1 h2 => by simp at h2; omega,
      .inl ⟨rfl, rfl, hn, p, by simp [Run.tried, okEvents]⟩⟩

theorem doPrims_sound (ps : List PinPrim) (r : Run) : (doPrims ps r).Sound r := by
  induction ps generalizing r with
  | nil => exact Drive.sound_going r
  | cons p rest ih => exact Drive.sound_andThen (doPrim_sound p r) ih

theorem doTick_sound (t : Tick) (r : Run) : (doTick t r).Sound r :=
  Drive.sound_andThen (doPrims_sound t.prims r) fun _ => Drive.sound_of_same rfl rfl rfl rfl

theorem doTicks_sound (ts : List Tick) (r : Run) : (doTicks ts r).Sound r := by
  induction ts generalizing r with
  | nil => exact Drive.sound_going r
  | cons t rest ih => exact Drive.sound_andThen (doTick_sound t r) ih

theorem loadShift_sound {r : Run} {v : Bits} {d : Drive} (h : d.Sound (r.loadShift v)) : d.Sound r :=
  ⟨(r.keeps_loadShift v).trans h.1, h.2⟩

theorem scan_sound (kind : ScanKind) (v : Bits) (r : Run) : (scan kind v r).Sound r :=
  Drive.sound_andThen (doTicks_sound _ r) fun _ => loadShift_sound (doTicks_sound _ _)

theorem resetSeq_sound (r : Run) : (resetSeq r).Sound r :=
  Drive.sound_andThen (doTicks_sound _ r) fun _ => Drive.sound_of_same rfl rfl rfl rfl

theorem idleWait_sound (k : Nat) (r : Run) : (idleWait k r).Sound r := doTicks_sound _ r

theorem bridgeSelect_sound (code : Bits) (r : Run) : (bridgeSelect code r).Sound r := by
  refine Drive.sound_andThen (scan_sound .ir code r) fun r' => ?_
  split
  · exact Drive.sound_going r'
  · exact ⟨State.Keeps.refl _, [], rfl, fun k h h' => by simp at h'; omega, .inr ⟨rfl, by simp [okEvents]⟩⟩

/-- Where no primitive fails, no part of a command ends with a pin failure. -/
theorem Drive.Sound.no_pinFailure {r r' : Run} {e : Status} (h : (Drive.ended e r').Sound r)
    (hok : ∀ k, r.st.okAt k = true) : e = .protocolError := by
  obtain ⟨-, ps, -, -, ⟨-, -, hn, -⟩ | ⟨he, -⟩⟩ := h
  · rw [hok] at hn; exact absurd hn (by simp)
  · exact he

/-! ## The scan and the reset sequence without a pin failure -/

theorem shiftIndex_lt (order : BitOrder) {n i : Nat} (h : i < n) : shiftIndex order n i < n := by
  cases order
  · exact h
  · simp only [shiftIndex]; omega

theorem shiftIndex_shiftIndex (order : BitOrder) {n i : Nat} (h : i < n) :
    shiftIndex order n (shiftIndex order n i) = i := by
  cases order
  · rfl
  · simp only [shiftIndex]; omega

theorem shiftTicks_tms (order : BitOrder) (v : Bits) (h : 1 ≤ v.length) :
    (shiftTicks order v).map Tick.tms = List.replicate (v.length - 1) false ++ [true] := by
  obtain ⟨m, hm⟩ : ∃ m, v.length = m + 1 := ⟨v.length - 1, by omega⟩
  simp only [shiftTicks, hm, List.map_map, List.range_succ, List.map_append, List.map_cons, List.map_nil,
    Nat.add_sub_cancel]
  congr 1
  · apply List.ext_getElem
    · simp
    · intro i h1 h2
      simp at h1
      simp [shiftTick, hm]
      omega
  · simp [shiftTick, hm]

theorem Mirror.walk_append (m : Mirror) (a b : List Bool) : m.walk (a ++ b) = (m.walk a).walk b := by
  simp [Mirror.walk]

theorem Mirror.walk_replicate {m : Mirror} {b : Bool} (h : m.next b = m) (n : Nat) :
    m.walk (List.replicate n b) = m := by
  induction n with
  | zero => rfl
  | succ n ih => simp only [Mirror.walk, List.replicate_succ, List.foldl_cons, h]; exact ih

/-- A scan's ticks take the mirror from an idle state to Run-Test/Idle (R117). -/
theorem scanTicks_walk (order : BitOrder) (kind : ScanKind) (m : Mirror) (v : Bits) (h : 1 ≤ v.length)
    (hm : m = .known .testLogicReset ∨ m = .known .runTestIdle) :
    m.walk ((scanTicks order kind m v).map Tick.tms) = .known .runTestIdle := by
  have hs : ∀ t, (t = .shiftIr ∨ t = .shiftDr) → (Mirror.known t).walk (List.replicate (v.length - 1) false) = .known t := by
    intro t ht
    exact Mirror.walk_replicate (by rcases ht with rfl | rfl <;> rfl) _
  simp only [scanTicks, List.map_append, shiftTicks_tms order v h, Mirror.walk_append]
  rcases hm with rfl | rfl <;> cases kind <;>
    simp only [gotoIdle, walkIn, walkOut, Tick.plain, if_true, List.map_cons, List.map_nil, Mirror.walk,
      List.foldl_cons, List.foldl_nil, Mirror.next, TapState.next, Bool.false_eq_true, if_false,
      reduceCtorEq, Mirror.known.injEq] <;>
    simp only [← Mirror.walk.eq_def, hs _ (.inl rfl), hs _ (.inr rfl)]

/-- The shift ticks fill `s.sr_in` with the TDO samples, bit `j` from the tick that presents bit `j`
(R116). -/
theorem foldl_shiftTicks (order : BitOrder) (v : Bits) (r : Run) (m : Nat) (hm : m ≤ v.length)
    (hl : r.st.srIn.length = v.length) :
    let r' := ((List.range m).map (shiftTick order v)).foldl Run.ticked r
    r'.reads = r.reads + m ∧ r'.st.srOut = r.st.srOut ∧ r'.st.srIn.length = v.length ∧
      (∀ i < m, r'.st.srIn.getD (shiftIndex order v.length i) false = r.st.tdoAt (r.reads + 1 + i)) := by
  induction m with
  | zero => simp [hl]
  | succ m ih =>
    obtain ⟨h1, h2, h3, h4⟩ := ih (by omega)
    have hk := Run.keeps_foldl_ticked ((List.range m).map (shiftTick order v)) r
    rw [List.range_succ, List.map_append, List.foldl_append]
    generalize ((List.range m).map (shiftTick order v)).foldl Run.ticked r = q at h1 h2 h3 h4 hk
    refine ⟨by simp [Run.ticked, shiftTick, h1]; omega, by simp [Run.ticked, h2], ?_, ?_⟩
    · simp [Run.ticked, shiftTick, Bits.setBit, h3]
    · intro i hi
      simp only [List.map_cons, List.map_nil, List.foldl_cons, List.foldl_nil, Run.ticked, shiftTick,
        Bits.setBit]
      by_cases him : i = m
      · subst him
        rw [List.getD_eq_getElem?_getD, List.getElem?_set_self (by rw [h3]; exact shiftIndex_lt order (by omega)),
          Option.getD_some, hk.tdoAt_eq, h1]
        congr 1; omega
      · have hne : shiftIndex order v.length m ≠ shiftIndex order v.length i := by
          intro he
          have := congrArg (shiftIndex order v.length) he
          rw [shiftIndex_shiftIndex order (by omega), shiftIndex_shiftIndex order (by omega)] at this
          omega
        rw [List.getD_eq_getElem?_getD, List.getElem?_set_ne hne, ← List.getD_eq_getElem?_getD]
        exact h4 i (by omega)

theorem captured_of_bits (s : State) (first : Nat) (r : Bits) (n : Nat) (hl : r.length = n)
    (h : ∀ i < n, r.getD (shiftIndex s.cfg.bitOrder n i) false = s.tdoAt (first + i)) :
    r = captured s first n := by
  apply List.ext_getElem
  · simp [captured, hl]
  · intro j h1 h2
    have hj : j < n := by omega
    have := h (shiftIndex s.cfg.bitOrder n j) (shiftIndex_lt _ hj)
    rw [shiftIndex_shiftIndex _ hj, List.getD_eq_getElem _ _ h1] at this
    simp [captured, this]

theorem Run.foldl_ticked_plain (ts : List Tick) (r : Run) (h : ∀ t ∈ ts, t.sample = none) :
    (ts.foldl Run.ticked r).reads = r.reads ∧ (ts.foldl Run.ticked r).st.srIn = r.st.srIn ∧
      (ts.foldl Run.ticked r).st.srOut = r.st.srOut := by
  induction ts generalizing r with
  | nil => simp
  | cons t rest ih =>
    obtain ⟨h1, h2, h3⟩ := ih (r.ticked t) fun u hu => h u (by simp [hu])
    have ht := h t (by simp)
    simp only [List.foldl_cons, h1, h2, h3]
    simp [Run.ticked, ht]

theorem Run.foldl_ticked_prims (ts : List Tick) (r : Run) :
    (ts.foldl Run.ticked r).prims = r.prims + (ticksPrims ts).length := by
  induction ts generalizing r with
  | nil => simp [ticksPrims]
  | cons t rest ih => simp [ih, ticksPrims, Run.ticked]; omega

theorem Run.foldl_ticked_claimed (ts : List Tick) (r : Run) :
    (ts.foldl Run.ticked r).st.claimed = r.st.claimed := by
  induction ts generalizing r with
  | nil => rfl
  | cons t rest ih => rw [List.foldl_cons, ih]; rfl

/-- After ticks, the lines hold the levels of the last one. -/
theorem Run.foldl_ticked_lines (ts : List Tick) (t : Tick) (r : Run) :
    ((ts ++ [t]).foldl Run.ticked r).st.tck = .low ∧
      ((ts ++ [t]).foldl Run.ticked r).st.tms = Level.ofBool t.tms ∧
      ((ts ++ [t]).foldl Run.ticked r).st.tdi = Level.ofBool t.tdi := by
  rw [List.foldl_append]
  exact ⟨rfl, rfl, rfl⟩

/-- What a scan without a pin failure leaves (R116, R117). -/
def Run.scanned (kind : ScanKind) (v : Bits) (r : Run) : Run where
  st :=
    { r.st with
      tap := .known .runTestIdle
      tck := .low
      tms := .low
      tdi := .low
      srOut := v
      srIn := captured r.st (r.reads + 1) v.length
      trace := r.st.trace ++ okEvents (ticksPrims (scanTicks r.st.cfg.bitOrder kind r.st.tap v)) }
  prims := r.prims + (ticksPrims (scanTicks r.st.cfg.bitOrder kind r.st.tap v)).length
  reads := r.reads + v.length

theorem walkTicks_plain (kind : ScanKind) (m : Mirror) : ∀ t ∈ gotoIdle m ++ walkIn kind, t.sample = none := by
  cases kind <;> simp only [gotoIdle, walkIn] <;> split <;> decide

theorem walkOut_plain : ∀ t ∈ walkOut, t.sample = none := by
  decide

/-- The ticks of a scan, all of them, leave what R117 says. -/
theorem foldl_scan (kind : ScanKind) (v : Bits) (r : Run) (hv : 1 ≤ v.length)
    (hm : r.st.tap = .known .testLogicReset ∨ r.st.tap = .known .runTestIdle) :
    (shiftTicks r.st.cfg.bitOrder v ++ walkOut).foldl Run.ticked
      (((gotoIdle r.st.tap ++ walkIn kind).foldl Run.ticked r).loadShift v) = r.scanned kind v := by
  have hk := Run.keeps_foldl_ticked (gotoIdle r.st.tap ++ walkIn kind) r
  have hp := Run.foldl_ticked_plain (gotoIdle r.st.tap ++ walkIn kind) r (walkTicks_plain kind _)
  have htr := Run.foldl_ticked_trace (gotoIdle r.st.tap ++ walkIn kind) r
  have htap := Run.foldl_ticked_tap (gotoIdle r.st.tap ++ walkIn kind) r
  have hpr := Run.foldl_ticked_prims (gotoIdle r.st.tap ++ walkIn kind) r
  have hcl := Run.foldl_ticked_claimed (gotoIdle r.st.tap ++ walkIn kind) r
  generalize (gotoIdle r.st.tap ++ walkIn kind).foldl Run.ticked r = q at hk hp htr htap hpr hcl
  have hkA := Run.keeps_foldl_ticked (shiftTicks r.st.cfg.bitOrder v) (q.loadShift v)
  have hkB := Run.keeps_foldl_ticked (shiftTicks r.st.cfg.bitOrder v ++ walkOut) (q.loadShift v)
  have hB := Run.foldl_ticked_trace (shiftTicks r.st.cfg.bitOrder v ++ walkOut) (q.loadShift v)
  have hBt := Run.foldl_ticked_tap (shiftTicks r.st.cfg.bitOrder v ++ walkOut) (q.loadShift v)
  have hBp := Run.foldl_ticked_prims (shiftTicks r.st.cfg.bitOrder v ++ walkOut) (q.loadShift v)
  have hBc := Run.foldl_ticked_claimed (shiftTicks r.st.cfg.bitOrder v ++ walkOut) (q.loadShift v)
  have hS := foldl_shiftTicks r.st.cfg.bitOrder v (q.loadShift v) v.length le_rfl
    (by simp [Bits.zero])
  have hlines := Run.foldl_ticked_lines (shiftTicks r.st.cfg.bitOrder v ++ [Tick.plain true])
    (Tick.plain false) (q.loadShift v)
  have hout := Run.foldl_ticked_plain walkOut
    ((shiftTicks r.st.cfg.bitOrder v).foldl Run.ticked (q.loadShift v)) walkOut_plain
  have hw : shiftTicks r.st.cfg.bitOrder v ++ [Tick.plain true] ++ [Tick.plain false] =
      shiftTicks r.st.cfg.bitOrder v ++ walkOut := by simp [walkOut]
  rw [hw] at hlines
  rw [← List.foldl_append] at hout
  obtain ⟨s1, s2, s3, s4⟩ := hS
  change (((shiftTicks r.st.cfg.bitOrder v).foldl Run.ticked (q.loadShift v)).reads) = _ at s1
  change (((shiftTicks r.st.cfg.bitOrder v).foldl Run.ticked (q.loadShift v)).st.srOut) = _ at s2
  change (((shiftTicks r.st.cfg.bitOrder v).foldl Run.ticked (q.loadShift v)).st.srIn.length) = _ at s3
  have hin := captured_of_bits r.st (r.reads + 1)
    ((shiftTicks r.st.cfg.bitOrder v).foldl Run.ticked (q.loadShift v)).st.srIn v.length s3 (by
      intro i hi
      have := s4 i hi
      change (((shiftTicks r.st.cfg.bitOrder v).foldl Run.ticked (q.loadShift v)).st.srIn.getD _ _) = _ at this
      rw [this, (hk.trans (q.keeps_loadShift v)).tdoAt_eq, Run.loadShift_reads, hp.1])
  have hreads := hout.1.trans s1
  rw [Run.loadShift_reads, hp.1] at hreads
  generalize (shiftTicks r.st.cfg.bitOrder v ++ walkOut).foldl Run.ticked (q.loadShift v) = z at *
  have hKz : r.st.Keeps z.st := (hk.trans (q.keeps_loadShift v)).trans hkB
  have htapz : z.st.tap = .known .runTestIdle := by
    rw [hBt, Run.loadShift_tap, htap, ← Mirror.walk_append, ← List.map_append]
    have := scanTicks_walk r.st.cfg.bitOrder kind r.st.tap v hv hm
    rw [scanTicks] at this
    simpa [List.append_assoc] using this
  obtain ⟨zst, zp, zr⟩ := z
  simp only at hout hB hBp hBc hlines hKz htapz hreads
  unfold Run.scanned
  congr 1
  · rw [hKz, htapz, hlines.1, hlines.2.1, hlines.2.2, hout.2.1, hout.2.2, s2, hin, hB, hBc]
    simp [htr, hcl, Level.ofBool, Tick.plain, scanTicks, ticksPrims, okEvents]
  · rw [hBp, Run.loadShift_prims, hpr]
    simp [scanTicks, ticksPrims]; omega

/-- A scan from an idle state goes through and leaves what R117 says, or a pin failure ends it (R206). -/
theorem scan_cases (kind : ScanKind) (v : Bits) (r : Run) (hv : 1 ≤ v.length)
    (hm : r.st.tap = .known .testLogicReset ∨ r.st.tap = .known .runTestIdle) :
    scan kind v r = .going (r.scanned kind v) ∨ ∃ r', scan kind v r = .ended .ioError r' := by
  unfold scan
  rcases doTicks_cases (gotoIdle r.st.tap ++ walkIn kind) r with h | ⟨_, _, _, _, _, _, _, _, h⟩
  · rw [h, Drive.andThen_going, (Run.keeps_foldl_ticked (gotoIdle r.st.tap ++ walkIn kind) r).cfg_eq]
    rcases doTicks_cases (shiftTicks r.st.cfg.bitOrder v ++ walkOut)
      (((gotoIdle r.st.tap ++ walkIn kind).foldl Run.ticked r).loadShift v) with h' | ⟨_, _, _, _, _, _, _, _, h'⟩
    · exact .inl (by rw [h', foldl_scan kind v r hv hm])
    · exact .inr ⟨_, h'⟩
  · exact .inr ⟨_, by rw [h]; rfl⟩

/-- A scan without a pin failure (R117). -/
theorem scan_going (kind : ScanKind) (v : Bits) (r : Run) (h : ∀ k, r.st.okAt k = true) (hv : 1 ≤ v.length)
    (hm : r.st.tap = .known .testLogicReset ∨ r.st.tap = .known .runTestIdle) :
    scan kind v r = .going (r.scanned kind v) := by
  have hk := Run.keeps_foldl_ticked (gotoIdle r.st.tap ++ walkIn kind) r
  unfold scan
  rw [doTicks_going _ _ h, Drive.andThen_going, doTicks_going _ _ fun k =>
    ((hk.trans (Run.keeps_loadShift _ v)).okAt_eq k).trans (h k), hk.cfg_eq, foldl_scan kind v r hv hm]

/-- What a reset sequence without a pin failure leaves (R118). -/
def Run.wasReset (r : Run) : Run where
  st :=
    { r.st with
      tap := .known .testLogicReset
      tck := .low
      tms := .high
      tdi := .low
      trace := r.st.trace ++ okEvents (ticksPrims (resetTicks r.st.cfg)) }
  prims := r.prims + (ticksPrims (resetTicks r.st.cfg)).length
  reads := r.reads

/-- The ticks of the reset sequence, and its last assignment. -/
theorem foldl_resetTicks (r : Run) (hn : 1 ≤ r.st.cfg.resetTcks) :
    { (resetTicks r.st.cfg).foldl Run.ticked r with
      st := { ((resetTicks r.st.cfg).foldl Run.ticked r).st with tap := .known .testLogicReset } } = r.wasReset := by
  have hk := Run.keeps_foldl_ticked (resetTicks r.st.cfg) r
  have hp := Run.foldl_ticked_plain (resetTicks r.st.cfg) r fun t ht => by
    rw [List.eq_of_mem_replicate ht]; rfl
  have htr := Run.foldl_ticked_trace (resetTicks r.st.cfg) r
  have hpr := Run.foldl_ticked_prims (resetTicks r.st.cfg) r
  have hcl := Run.foldl_ticked_claimed (resetTicks r.st.cfg) r
  have hl := Run.foldl_ticked_lines (List.replicate (r.st.cfg.resetTcks - 1) (Tick.plain true)) (Tick.plain true) r
  have hw : List.replicate (r.st.cfg.resetTcks - 1) (Tick.plain true) ++ [Tick.plain true] = resetTicks r.st.cfg := by
    rw [resetTicks, ← List.replicate_succ', Nat.sub_add_cancel hn]
  rw [hw] at hl
  unfold Run.wasReset
  generalize (resetTicks r.st.cfg).foldl Run.ticked r = z at *
  obtain ⟨zst, zp, zr⟩ := z
  simp only at hp htr hpr hcl hl hk
  rw [hk]
  simp only [hl, hcl, htr, hpr, hp, Level.ofBool, Tick.plain, if_true, Bool.false_eq_true, if_false]

/-- The reset sequence goes through and leaves what R118 says, or a pin failure ends it (R206). -/
theorem resetSeq_cases (r : Run) (hn : 1 ≤ r.st.cfg.resetTcks) :
    resetSeq r = .going r.wasReset ∨ ∃ r', resetSeq r = .ended .ioError r' := by
  unfold resetSeq
  rcases doTicks_cases (resetTicks r.st.cfg) r with h | ⟨_, _, _, _, _, _, _, _, h⟩
  · exact .inl (by rw [h, Drive.andThen_going, foldl_resetTicks r hn])
  · exact .inr ⟨_, by rw [h]; rfl⟩

/-- The reset sequence without a pin failure (R118). -/
theorem resetSeq_going (r : Run) (h : ∀ k, r.st.okAt k = true) (hn : 1 ≤ r.st.cfg.resetTcks) :
    resetSeq r = .going r.wasReset := by
  rw [resetSeq, doTicks_going _ _ h, Drive.andThen_going, foldl_resetTicks r hn]

/-- What an idle wait leaves that follows a scan, without a pin failure (R120). -/
def Run.waited (n : Nat) (r : Run) : Run where
  st := { r.st with trace := r.st.trace ++ okEvents (ticksPrims (idleTicks n)) }
  prims := r.prims + (ticksPrims (idleTicks n)).length
  reads := r.reads

theorem foldl_idleTicks (n : Nat) (r : Run) (htap : r.st.tap = .known .runTestIdle) (hc : r.st.tck = .low)
    (hm : r.st.tms = .low) (hd : r.st.tdi = .low) : (idleTicks n).foldl Run.ticked r = r.waited n := by
  induction n generalizing r with
  | zero => simp [idleTicks, ticksPrims, okEvents, Run.waited]
  | succ n ih =>
    have ht : r.ticked (Tick.plain false) = r.waited 1 := by
      obtain ⟨⟨⟩, _, _⟩ := r
      simp only at htap hc hm hd
      simp [Run.ticked, Run.waited, Tick.plain, Level.ofBool, htap, hc, hm, hd, Mirror.next, TapState.next,
        Tick.prims, idleTicks, ticksPrims]
    have hs : (idleTicks (n + 1)).foldl Run.ticked r = (idleTicks n).foldl Run.ticked (r.ticked (Tick.plain false)) := rfl
    rw [hs, ht, ih (r.waited 1) htap hc hm hd]
    simp [Run.waited, idleTicks, ticksPrims, okEvents, List.replicate_succ, Tick.prims, Tick.plain]
    omega

/-- An idle wait after a scan goes through, or a pin failure ends it (R120, R206). -/
theorem idleWait_cases (n : Nat) (r : Run) (htap : r.st.tap = .known .runTestIdle) (hc : r.st.tck = .low)
    (hm : r.st.tms = .low) (hd : r.st.tdi = .low) :
    idleWait n r = .going (r.waited n) ∨ ∃ r', idleWait n r = .ended .ioError r' := by
  unfold idleWait
  rcases doTicks_cases (idleTicks n) r with h | ⟨_, _, _, _, _, _, _, _, h⟩
  · exact .inl (by rw [h, foldl_idleTicks n r htap hc hm hd])
  · exact .inr ⟨_, h⟩

/-- An idle wait after a scan, without a pin failure (R120). -/
theorem idleWait_going (n : Nat) (r : Run) (h : ∀ k, r.st.okAt k = true)
    (htap : r.st.tap = .known .runTestIdle) (hc : r.st.tck = .low) (hm : r.st.tms = .low) (hd : r.st.tdi = .low) :
    idleWait n r = .going (r.waited n) := by
  rw [idleWait, doTicks_going _ _ h, foldl_idleTicks n r htap hc hm hd]

/-- The bridge's selection: the scan goes through and the capture check decides, or a pin failure ends it
(R153, R206, R207). -/
theorem bridgeSelect_cases (code : Bits) (r : Run) (hv : 1 ≤ code.length)
    (hm : r.st.tap = .known .testLogicReset ∨ r.st.tap = .known .runTestIdle) :
    (captureOk r.st.cfg.irCaptureCheck (captured r.st (r.reads + 1) code.length) = true ∧
        bridgeSelect code r = .going (r.scanned .ir code)) ∨
      (captureOk r.st.cfg.irCaptureCheck (captured r.st (r.reads + 1) code.length) = false ∧
        bridgeSelect code r = .ended .protocolError (r.scanned .ir code)) ∨
      ∃ r', bridgeSelect code r = .ended .ioError r' := by
  unfold bridgeSelect
  rcases scan_cases .ir code r hv hm with h | ⟨r', h⟩
  · rw [h, Drive.andThen_going]
    cases hc : captureOk r.st.cfg.irCaptureCheck (captured r.st (r.reads + 1) code.length)
    · exact .inr (.inl ⟨rfl, if_neg (by simpa [Run.scanned] using hc)⟩)
    · exact .inl ⟨rfl, if_pos (by simpa [Run.scanned] using hc)⟩
  · exact .inr (.inr ⟨r', by rw [h]; rfl⟩)

/-- The bridge's selection without a pin failure: the scan, and then the capture check decides (R153,
R207). -/
theorem bridgeSelect_going (code : Bits) (r : Run) (h : ∀ k, r.st.okAt k = true) (hv : 1 ≤ code.length)
    (hm : r.st.tap = .known .testLogicReset ∨ r.st.tap = .known .runTestIdle) :
    bridgeSelect code r =
      if captureOk r.st.cfg.irCaptureCheck (captured r.st (r.reads + 1) code.length) then
        .going (r.scanned .ir code)
      else .ended .protocolError (r.scanned .ir code) := by
  rw [bridgeSelect, scan_going _ _ _ h hv hm]
  rfl

end Sys2Proof.Machine
end

