-- ==== Sys2Proof/Laws/Commands.lean ====
section
/-!
SUPPORT. What a whole command can do, said once: the parts it is driven by, what every command leaves
alone, and how each command ends.
-/
namespace Sys2Proof.Machine

/-! ## What the parts of a command keep beside `Keeps` -/

/-- The session, the clock line outside a pulse, and the shift register's bound `n`. -/
def State.Within (n : Nat) (s t : State) : Prop :=
  t.claimed = s.claimed ∧ (s.tck ≠ .high → t.tck ≠ .high) ∧
    (s.srOut.length ≤ n → t.srOut.length ≤ n) ∧ (s.srIn.length ≤ n → t.srIn.length ≤ n)

theorem State.Within.refl (n : Nat) (s : State) : s.Within n s := ⟨rfl, id, id, id⟩

theorem State.Within.trans {n : Nat} {s t u : State} (h : s.Within n t) (h' : t.Within n u) : s.Within n u :=
  ⟨h'.1.trans h.1, h'.2.1 ∘ h.2.1, h'.2.2.1 ∘ h.2.2.1, h'.2.2.2 ∘ h.2.2.2⟩

theorem Run.within_performed (n : Nat) (r : Run) (p : PinPrim) (hp : p ≠ .set .tck true) :
    r.st.Within n (r.performed p).st := by
  refine ⟨?_, ?_, ?_, ?_⟩ <;> rcases p with ⟨line, b⟩ | _ | _ | line <;> try cases line
  all_goals simp_all [Run.performed, Run.tried, PinPrim.effect, State.setLine, Level.ofBool]

theorem Run.within_foldl_performed (n : Nat) (ps : List PinPrim) (r : Run) (hp : ∀ p ∈ ps, p ≠ .set .tck true) :
    r.st.Within n (ps.foldl Run.performed r).st := by
  induction ps generalizing r with
  | nil => exact State.Within.refl n _
  | cons p rest ih =>
    exact (r.within_performed n p (hp p (by simp))).trans (ih _ fun q hq => hp q (by simp [hq]))

theorem Tick.prims_ne (t : Tick) : ∀ p ∈ t.prims, p ≠ .set .tck true := by
  obtain ⟨a, b, c⟩ := t
  cases c <;> simp [Tick.prims]

theorem Run.within_ticked (n : Nat) (r : Run) (t : Tick) : r.st.Within n (r.ticked t).st := by
  refine ⟨rfl, fun _ => by simp [Run.ticked], id, ?_⟩
  unfold Run.ticked
  cases t.sample <;> simp [Bits.setBit]

theorem Run.within_loadShift (r : Run) (v : Bits) {n : Nat} (hv : v.length ≤ n) :
    r.st.Within n (r.loadShift v).st :=
  ⟨rfl, id, fun _ => hv, fun _ => by simpa [Run.loadShift, Bits.zero] using hv⟩

theorem pinFailure_within (n : Nat) (r : Run) (ps : List PinPrim) (p : PinPrim)
    (hp : ∀ q ∈ ps, q ≠ .set .tck true) : r.st.Within n ((ps.foldl Run.performed r).pinFailure p).run.st :=
  (r.within_foldl_performed n ps hp).trans ⟨rfl, id, id, id⟩

theorem doTick_within (n : Nat) (t : Tick) (r : Run) : r.st.Within n (doTick t r).run.st := by
  rcases doTick_cases t r with h | ⟨pre, p, post, hps, h⟩
  · rw [h]; exact r.within_ticked n t
  · rw [h]; exact pinFailure_within n r pre p fun q hq => t.prims_ne q (by simp [hps, hq])

theorem Drive.within_andThen {n : Nat} {r : Run} {d : Drive} {f : Run → Drive} (h : r.st.Within n d.run.st)
    (hf : ∀ r' : Run, r'.st.Within n (f r').run.st) : r.st.Within n (d.andThen f).run.st := by
  cases d with
  | ended e r' => exact h
  | going r' => exact h.trans (hf r')

theorem doTicks_within (n : Nat) (ts : List Tick) (r : Run) : r.st.Within n (doTicks ts r).run.st := by
  induction ts generalizing r with
  | nil => exact State.Within.refl n _
  | cons t rest ih => exact Drive.within_andThen (doTick_within n t r) ih

theorem scan_within (kind : ScanKind) (v : Bits) (r : Run) {n : Nat} (hv : v.length ≤ n) :
    r.st.Within n (scan kind v r).run.st :=
  Drive.within_andThen (doTicks_within n _ r) fun r' => (r'.within_loadShift v hv).trans (doTicks_within n _ _)

theorem resetSeq_within (n : Nat) (r : Run) : r.st.Within n (resetSeq r).run.st :=
  Drive.within_andThen (doTicks_within n _ r) fun _ => ⟨rfl, id, id, id⟩

theorem idleWait_within (n k : Nat) (r : Run) : r.st.Within n (idleWait k r).run.st := doTicks_within n _ r

theorem bridgeSelect_within (code : Bits) (r : Run) {n : Nat} (hv : code.length ≤ n) :
    r.st.Within n (bridgeSelect code r).run.st := by
  refine Drive.within_andThen (scan_within .ir code r hv) fun r' => ?_
  split <;> exact State.Within.refl n _

/-! ## The drives of the commands -/

/-- TAP_RESET's drive (R131). -/
def State.tapResetDrive (s : State) : Drive := (claimPins s.begin).andThen resetSeq

theorem claimPins_sound (r : Run) : (claimPins r).Sound r := by
  unfold claimPins
  split
  · exact Drive.sound_going r
  · exact doPrim_sound _ { r with st := { r.st with claimed := true } }

theorem tapResetDrive_sound (s : State) : s.tapResetDrive.Sound s.begin :=
  Drive.sound_andThen (claimPins_sound _) resetSeq_sound

theorem writeScans_sound (addr word : Word) (r : Run) : (writeScans addr word r).Sound r :=
  Drive.sound_andThen (bridgeSelect_sound _ r) fun r =>
    Drive.sound_andThen (scan_sound _ _ r) fun r => idleWait_sound _ r

theorem selectReadData_sound (r : Run) : (selectReadData r).Sound r := by
  unfold selectReadData
  split
  · exact Drive.sound_going r
  · exact bridgeSelect_sound _ r

theorem readScans_sound (addr : Word) (r : Run) : (readScans addr r).Sound r :=
  Drive.sound_andThen (bridgeSelect_sound _ r) fun r =>
    Drive.sound_andThen (scan_sound _ _ r) fun r =>
      Drive.sound_andThen (idleWait_sound _ r) fun r =>
        Drive.sound_andThen (selectReadData_sound r) fun r => scan_sound _ _ r

/-- `within_andThen`, the second part knowing that the first kept what commands keep. -/
theorem Drive.within_andThen_of_sound {n : Nat} {r : Run} {d : Drive} {f : Run → Drive} (hs : d.Sound r)
    (h : r.st.Within n d.run.st) (hf : ∀ r' : Run, r'.st.cfg = r.st.cfg → r'.st.Within n (f r').run.st) :
    r.st.Within n (d.andThen f).run.st := by
  cases d with
  | ended e r' => exact h
  | going r' => exact h.trans (hf r' hs.1.cfg_eq)

theorem writeScans_within (addr word : Word) (r : Run) (hv : r.st.cfg.irAxiWrite.length = r.st.cfg.irLen) :
    r.st.Within r.st.cfg.shiftRegBits (writeScans addr word r).run.st := by
  obtain ⟨-, h1, h2, -⟩ := r.st.cfg.le_shiftRegBits
  refine Drive.within_andThen_of_sound (bridgeSelect_sound _ r) (bridgeSelect_within _ r (by omega)) fun r' hc => ?_
  exact Drive.within_andThen (scan_within _ _ r' (by rw [length_wrPayload, hc]; exact h2))
    fun _ => idleWait_within _ _ _

theorem readScans_within (addr : Word) (r : Run) (hv : r.st.cfg.irAxiRead.length = r.st.cfg.irLen)
    (hd : ∀ d, r.st.cfg.irAxiReadData = some d → d.length = r.st.cfg.irLen) :
    r.st.Within r.st.cfg.shiftRegBits (readScans addr r).run.st := by
  obtain ⟨-, h1, -, h2⟩ := r.st.cfg.le_shiftRegBits
  refine Drive.within_andThen_of_sound (bridgeSelect_sound _ r) (bridgeSelect_within _ r (by omega)) fun r₁ c₁ => ?_
  refine Drive.within_andThen_of_sound (scan_sound _ _ r₁)
    (scan_within _ _ r₁ (by rw [length_rdPayload, c₁]; exact h2)) fun r₂ c₂ => ?_
  refine Drive.within_andThen_of_sound (idleWait_sound _ r₂) (idleWait_within _ _ r₂) fun r₃ c₃ => ?_
  refine Drive.within_andThen_of_sound (selectReadData_sound r₃) ?_ fun r₄ c₄ =>
    scan_within _ _ r₄ (by rw [length_rdPayload, c₄, c₃, c₂, c₁]; exact h2)
  unfold selectReadData
  split
  · exact State.Within.refl _ _
  · next d hx =>
    rw [c₃, c₂, c₁] at hx
    exact bridgeSelect_within d r₃ (by rw [hd d hx]; exact h1)

/-! ## Every command -/

/-- How a command can go: RELEASE; an answer without a pin primitive; or a drive, whose end it is. -/
theorem exec_cases {i : Instr} {s t : State} (h : exec i s = .next t) :
    (i = .release ∧ t = s.release) ∨
      (i ≠ .release ∧ ∃ st data m f, t = ({ s with emul := m, refused := f } : State).respond st data ∧
        (s.cfg.backend = .hw → m = s.emul)) ∨
      (i ≠ .release ∧ ∃ (d : Drive) (data : State → RespData), t = d.finish data ∧ d.Sound s.begin) := by
  cases i with
  | tapReset =>
    simp only [exec, execTapReset, State.tapReset, Host.Outcome.next.injEq] at h
    split at h <;> subst h
    · exact .inr (.inr ⟨by simp, _, _, rfl, tapResetDrive_sound s⟩)
    · exact .inr (.inl ⟨by simp, _, _, s.emul, s.refused, rfl, fun _ => rfl⟩)
  | shiftIr v | shiftDr v =>
    simp only [exec, execShiftIr, execShiftDr, State.rawShift, Host.Outcome.next.injEq] at h
    split at h <;> [skip; split at h] <;> subst h
    · exact .inr (.inl ⟨by simp, _, _, s.emul, true, rfl, fun _ => rfl⟩)
    · exact .inr (.inr ⟨by simp, _, _, rfl, scan_sound _ v _⟩)
    · exact .inr (.inl ⟨by simp, _, _, s.emul, s.refused, rfl, fun _ => rfl⟩)
  | axiWrite addr word =>
    simp only [exec, execAxiWrite, Host.Outcome.next.injEq] at h
    cases hb : s.cfg.backend <;> simp only [hb, State.emulWrite, State.hwWrite] at h
    · split at h <;> [skip; split at h] <;> subst h
      · exact .inr (.inl ⟨by simp, _, _, s.emul, s.refused, rfl, fun _ => rfl⟩)
      · exact .inr (.inl ⟨by simp, _, _, s.emul, s.refused, rfl, fun _ => rfl⟩)
      · exact .inr (.inr ⟨by simp, _, _, rfl, writeScans_sound addr word _⟩)
    · split at h <;> [skip; split at h] <;> subst h
      · exact .inr (.inl ⟨by simp, _, _, s.emul, s.refused, rfl, fun _ => rfl⟩)
      · exact .inr (.inl ⟨by simp, _, _, s.emul, s.refused, rfl, fun _ => rfl⟩)
      · exact .inr (.inl ⟨by simp, _, _, _, s.refused, rfl, by simp⟩)
  | axiRead addr =>
    simp only [exec, execAxiRead, Host.Outcome.next.injEq] at h
    cases hb : s.cfg.backend <;> simp only [hb, State.emulRead, State.hwRead] at h
    · split at h <;> [skip; split at h] <;> subst h
      · exact .inr (.inl ⟨by simp, _, _, s.emul, s.refused, rfl, fun _ => rfl⟩)
      · exact .inr (.inl ⟨by simp, _, _, s.emul, s.refused, rfl, fun _ => rfl⟩)
      · exact .inr (.inr ⟨by simp, _, _, rfl, readScans_sound addr _⟩)
    · split at h <;> [skip; split at h] <;> subst h
      · exact .inr (.inl ⟨by simp, _, _, s.emul, s.refused, rfl, fun _ => rfl⟩)
      · exact .inr (.inl ⟨by simp, _, _, s.emul, s.refused, rfl, fun _ => rfl⟩)
      · exact .inr (.inl ⟨by simp, _, _, s.emul, s.refused, rfl, by simp⟩)
  | release =>
    simp only [exec, execRelease, Host.Outcome.next.injEq] at h
    exact .inl ⟨rfl, h.symm⟩

theorem releaseStep_keeps (r : Run) (line : Line) : r.st.Keeps (releaseStep r line).st := by
  unfold releaseStep
  split
  · exact r.keeps_performed _
  · exact r.keeps_tried _ _

theorem releasePins_keeps (r : Run) : r.st.Keeps (releasePins r).st :=
  ((releaseStep_keeps r .tck).trans (releaseStep_keeps _ .tms)).trans (releaseStep_keeps _ .tdi)

theorem releaseStep_trace (r : Run) (line : Line) :
    ∃ e, (releaseStep r line).st.trace = r.st.trace ++ [e] := by
  unfold releaseStep
  split
  · exact ⟨_, Run.performed_trace r _⟩
  · exact ⟨_, rfl⟩

theorem releaseStep_frame (r : Run) (line : Line) :
    (releaseStep r line).st.srOut = r.st.srOut ∧ (releaseStep r line).st.srIn = r.st.srIn ∧
      (r.st.tck ≠ .high → (releaseStep r line).st.tck ≠ .high) := by
  unfold releaseStep
  split
  · cases line <;> simp [PinPrim.effect, State.setLine, Run.performed, Run.tried]
  · exact ⟨rfl, rfl, id⟩

/-- What RELEASE does beside the session and the lines: nothing (R140). -/
theorem release_frame (s : State) : s.release.tap = .unknown ∧ s.release.claimed = false ∧
    s.release.srOut = s.srOut ∧ s.release.srIn = s.srIn ∧ s.release.emul = s.emul ∧
    s.release.refused = s.refused ∧ (s.tck ≠ .high → s.release.tck ≠ .high) := by
  unfold State.release
  split
  · have h1 := releaseStep_frame s.begin .tck
    have h2 := releaseStep_frame (releaseStep s.begin .tck) .tms
    have h3 := releaseStep_frame (releaseStep (releaseStep s.begin .tck) .tms) .tdi
    have hk := releasePins_keeps s.begin
    refine ⟨rfl, rfl, ?_, ?_, ?_, ?_, ?_⟩
    · exact h3.1.trans (h2.1.trans h1.1)
    · exact h3.2.1.trans (h2.2.1.trans h1.2.1)
    · change (releasePins s.begin).st.emul = s.emul
      rw [hk]; rfl
    · change (releasePins s.begin).st.refused = s.refused
      rw [hk]; rfl
    · exact fun h => h3.2.2 (h2.2.2 (h1.2.2 h))
  · exact ⟨rfl, rfl, rfl, rfl, rfl, rfl, id⟩

/-- What every command leaves alone (R20, R35): the parameters, the lock, the port and the hosts; and what
it adds to the trace. -/
theorem exec_frame {i : Instr} {s t : State} (h : exec i s = .next t) :
    t.cfg = s.cfg ∧ t.lock = s.lock ∧ t.port = s.port ∧ t.presenter = s.presenter ∧
      t.hostQueue = s.hostQueue ∧ t.lockAnswer = s.lockAnswer ∧ t.answers = s.answers.tail ∧
      t.drawNo = s.drawNo + 1 ∧ t.resp.isSome ∧ ∃ es, t.trace = s.trace ++ es := by
  rcases exec_cases h with ⟨-, rfl⟩ | ⟨-, st, data, m, f, rfl, -⟩ | ⟨-, d, data, rfl, hd⟩
  · by_cases hc : (s.claimed && s.pinsReady) = true
    · have hk := releasePins_keeps s.begin
      obtain ⟨e1, h1⟩ := releaseStep_trace s.begin .tck
      obtain ⟨e2, h2⟩ := releaseStep_trace (releaseStep s.begin .tck) .tms
      obtain ⟨e3, h3⟩ := releaseStep_trace (releaseStep (releaseStep s.begin .tck) .tms) .tdi
      have htr : (releasePins s.begin).st.trace = s.trace ++ [e1, e2, e3] := by
        simp only [releasePins, h3, h2, h1]; simp [State.begin]
      simp only [State.release, hc, if_true, State.respond]
      rw [hk]
      exact ⟨rfl, rfl, rfl, rfl, rfl, rfl, rfl, rfl, rfl, _, htr⟩
    · simp only [State.release, hc]
      exact ⟨rfl, rfl, rfl, rfl, rfl, rfl, rfl, rfl, rfl, [], by simp⟩
  · exact ⟨rfl, rfl, rfl, rfl, rfl, rfl, rfl, rfl, rfl, [], by simp⟩
  · obtain ⟨hk, ps, -, -, hd⟩ := hd
    cases d with
    | going r =>
      simp only [Drive.run_going] at hk
      simp only [Drive.finish_going, State.respond]
      rw [hk]
      exact ⟨rfl, rfl, rfl, rfl, rfl, rfl, rfl, rfl, rfl, _, hd.1⟩
    | ended e r =>
      simp only [Drive.run_ended] at hk
      have htr : ∃ es, r.st.trace = s.trace ++ es := by
        rcases hd with ⟨-, -, -, p, htr⟩ | ⟨-, htr⟩
        · exact ⟨_, by rw [htr, List.append_assoc]; rfl⟩
        · exact ⟨_, htr⟩
      simp only [Drive.finish_ended, State.respond]
      rw [hk]
      exact ⟨rfl, rfl, rfl, rfl, rfl, rfl, rfl, rfl, rfl, htr⟩

/-! ## How each drive goes -/

/-- The run after a claim of the pins that no failure stops (R131). -/
def Run.claimedPins (r : Run) : Run :=
  if r.st.claimed then r
  else { r with st := { r.st with claimed := true } }.performed (.set .tck false)

theorem claimPins_cases (r : Run) : claimPins r = .going r.claimedPins ∨
    ∃ r', claimPins r = .ended .ioError r' ∧ r'.st.claimed = true ∧ (r.st.tck ≠ .high → r'.st.tck ≠ .high) ∧
      r'.st.srOut = r.st.srOut ∧ r'.st.srIn = r.st.srIn := by
  unfold claimPins Run.claimedPins
  split
  · exact .inl rfl
  · rcases doPrim_cases (.set .tck false) { r with st := { r.st with claimed := true } } with ⟨-, h⟩ | ⟨-, h⟩
    · exact .inl h
    · exact .inr ⟨_, h, rfl, id, rfl, rfl⟩

/-- TAP_RESET's drive goes through, or a pin failure ends it (R131, R206). -/
theorem tapResetDrive_cases (s : State) (hv : s.cfg.valid = true) :
    s.tapResetDrive = .going s.begin.claimedPins.wasReset ∨ ∃ r', s.tapResetDrive = .ended .ioError r' := by
  unfold State.tapResetDrive
  rcases claimPins_cases s.begin with h | ⟨r', h, -⟩
  · rw [h, Drive.andThen_going]
    refine resetSeq_cases _ ?_
    have hc : s.begin.claimedPins.st.cfg = s.cfg := by unfold Run.claimedPins; split <;> rfl
    rw [hc]
    have := (Config.bounds_of_valid hv).1
    omega
  · exact .inr ⟨r', by rw [h]; rfl⟩

/-- The run after the scans of a write that no failure stops (R154). -/
def Run.wrote (addr word : Word) (r : Run) : Run :=
  ((r.scanned .ir r.st.cfg.irAxiWrite).scanned .dr (wrPayload r.st.cfg addr word)).waited r.st.cfg.writeWaitTcks

/-- The scans of a write go through; or the capture check ends them after the first; or a pin failure does
(R160). -/
theorem writeScans_cases (addr word : Word) (r : Run) (hv : r.st.cfg.valid = true) (hm : r.st.IdleTap) :
    (captureOk r.st.cfg.irCaptureCheck (captured r.st (r.reads + 1) r.st.cfg.irLen) = true ∧
        writeScans addr word r = .going (r.wrote addr word)) ∨
      (captureOk r.st.cfg.irCaptureCheck (captured r.st (r.reads + 1) r.st.cfg.irLen) = false ∧
        writeScans addr word r = .ended .protocolError (r.scanned .ir r.st.cfg.irAxiWrite)) ∨
      ∃ r', writeScans addr word r = .ended .ioError r' := by
  obtain ⟨-, -, -, hir, hwr, -, -, hwl, -⟩ := Config.bounds_of_valid hv
  unfold writeScans
  rcases bridgeSelect_cases r.st.cfg.irAxiWrite r (by omega) hm with ⟨hc, h⟩ | ⟨hc, h⟩ | ⟨r', h⟩
  · rw [hwr] at hc
    rw [h, Drive.andThen_going]
    rcases scan_cases .dr (wrPayload r.st.cfg addr word) (r.scanned .ir r.st.cfg.irAxiWrite)
      (by rw [length_wrPayload]; omega) (.inr rfl) with h | ⟨r', h⟩
    · change scan .dr (wrPayload (r.scanned .ir r.st.cfg.irAxiWrite).st.cfg addr word) _ = _ at h
      rw [h, Drive.andThen_going]
      rcases idleWait_cases r.st.cfg.writeWaitTcks
        ((r.scanned .ir r.st.cfg.irAxiWrite).scanned .dr (wrPayload r.st.cfg addr word)) rfl rfl rfl rfl with h | ⟨r', h⟩
      · exact .inl ⟨hc, h⟩
      · exact .inr (.inr ⟨r', h⟩)
    · change scan .dr (wrPayload (r.scanned .ir r.st.cfg.irAxiWrite).st.cfg addr word) _ = _ at h
      exact .inr (.inr ⟨r', by rw [h]; rfl⟩)
  · rw [hwr] at hc
    exact .inr (.inl ⟨hc, by rw [h]; rfl⟩)
  · exact .inr (.inr ⟨r', by rw [h]; rfl⟩)

/-- The run after the address phase of a read that no failure stops (R154). -/
def Run.addressed (addr : Word) (r : Run) : Run :=
  ((r.scanned .ir r.st.cfg.irAxiRead).scanned .dr (rdPayload r.st.cfg addr)).waited r.st.cfg.readWaitTcks

/-- The address phase of a read goes through; or the capture check ends it; or a pin failure does (R170). -/
theorem addressPhase_cases (addr : Word) (r : Run) (hv : r.st.cfg.valid = true) (hm : r.st.IdleTap) (f : Run → Drive) :
    (captureOk r.st.cfg.irCaptureCheck (captured r.st (r.reads + 1) r.st.cfg.irLen) = true ∧
        ((bridgeSelect r.st.cfg.irAxiRead r).andThen fun r =>
          (scan .dr (rdPayload r.st.cfg addr) r).andThen fun r =>
            (idleWait r.st.cfg.readWaitTcks r).andThen f) = f (r.addressed addr)) ∨
      (captureOk r.st.cfg.irCaptureCheck (captured r.st (r.reads + 1) r.st.cfg.irLen) = false ∧
        ((bridgeSelect r.st.cfg.irAxiRead r).andThen fun r =>
          (scan .dr (rdPayload r.st.cfg addr) r).andThen fun r =>
            (idleWait r.st.cfg.readWaitTcks r).andThen f) =
          .ended .protocolError (r.scanned .ir r.st.cfg.irAxiRead)) ∨
      ∃ r', ((bridgeSelect r.st.cfg.irAxiRead r).andThen fun r =>
          (scan .dr (rdPayload r.st.cfg addr) r).andThen fun r =>
            (idleWait r.st.cfg.readWaitTcks r).andThen f) = .ended .ioError r' := by
  obtain ⟨-, -, -, hir, -, hrd, -, -, hrl, -⟩ := Config.bounds_of_valid hv
  rcases bridgeSelect_cases r.st.cfg.irAxiRead r (by omega) hm with ⟨hc, h⟩ | ⟨hc, h⟩ | ⟨r', h⟩
  · rw [hrd] at hc
    rw [h, Drive.andThen_going]
    rcases scan_cases .dr (rdPayload r.st.cfg addr) (r.scanned .ir r.st.cfg.irAxiRead)
      (by rw [length_rdPayload]; omega) (.inr rfl) with h | ⟨r', h⟩
    · change scan .dr (rdPayload (r.scanned .ir r.st.cfg.irAxiRead).st.cfg addr) _ = _ at h
      rw [h, Drive.andThen_going]
      rcases idleWait_cases r.st.cfg.readWaitTcks
        ((r.scanned .ir r.st.cfg.irAxiRead).scanned .dr (rdPayload r.st.cfg addr)) rfl rfl rfl rfl with h | ⟨r', h⟩
      · change idleWait ((r.scanned .ir r.st.cfg.irAxiRead).scanned .dr (rdPayload r.st.cfg addr)).st.cfg.readWaitTcks _ = _ at h
        rw [h]
        exact .inl ⟨hc, rfl⟩
      · change idleWait ((r.scanned .ir r.st.cfg.irAxiRead).scanned .dr (rdPayload r.st.cfg addr)).st.cfg.readWaitTcks _ = _ at h
        rw [h]
        exact .inr (.inr ⟨r', rfl⟩)
    · change scan .dr (rdPayload (r.scanned .ir r.st.cfg.irAxiRead).st.cfg addr) _ = _ at h
      exact .inr (.inr ⟨r', by rw [h]; rfl⟩)
  · rw [hrd] at hc
    exact .inr (.inl ⟨hc, by rw [h]; rfl⟩)
  · exact .inr (.inr ⟨r', by rw [h]; rfl⟩)

/-- The run after a read's data instruction that no failure stops (R154). -/
def Run.dataSelected (r : Run) : Run :=
  match r.st.cfg.irAxiReadData with
  | none => r
  | some d => r.scanned .ir d

/-- The data instruction of a read is selected, if there is one; or its capture check ends the command; or a
pin failure does (R170). -/
theorem selectReadData_cases (r : Run) (hv : r.st.cfg.valid = true) (hm : r.st.tap = .known .runTestIdle) :
    ((∀ d, r.st.cfg.irAxiReadData = some d →
          captureOk r.st.cfg.irCaptureCheck (captured r.st (r.reads + 1) r.st.cfg.irLen) = true) ∧
        selectReadData r = .going r.dataSelected) ∨
      (∃ d, r.st.cfg.irAxiReadData = some d ∧
        captureOk r.st.cfg.irCaptureCheck (captured r.st (r.reads + 1) r.st.cfg.irLen) = false ∧
        selectReadData r = .ended .protocolError (r.scanned .ir d)) ∨
      ∃ r', selectReadData r = .ended .ioError r' := by
  obtain ⟨-, -, -, hir, -, -, hd, -⟩ := Config.bounds_of_valid hv
  unfold selectReadData Run.dataSelected
  cases hx : r.st.cfg.irAxiReadData with
  | none => exact .inl ⟨by simp, rfl⟩
  | some d =>
    have hl := hd d hx
    rcases bridgeSelect_cases d r (by omega) (.inr hm) with ⟨hc, h⟩ | ⟨hc, h⟩ | ⟨r', h⟩
    · rw [hl] at hc
      exact .inl ⟨fun _ _ => hc, h⟩
    · rw [hl] at hc
      exact .inr (.inl ⟨d, rfl, hc, h⟩)
    · exact .inr (.inr ⟨r', h⟩)

theorem Run.dataSelected_frame (r : Run) (hm : r.st.tap = .known .runTestIdle) :
    r.dataSelected.st.cfg = r.st.cfg ∧ r.dataSelected.st.tap = .known .runTestIdle := by
  unfold Run.dataSelected
  split
  · exact ⟨rfl, hm⟩
  · exact ⟨rfl, rfl⟩

/-- The run after the scans of a read that no failure stops (R154, R172). -/
def Run.readBack (addr : Word) (r : Run) : Run :=
  (r.addressed addr).dataSelected.scanned .dr (rdPayload r.st.cfg addr)

/-- The scans of a read go through; or a capture check ends them after its IR scan, the access port's or the
data instruction's; or a pin failure does (R170). -/
theorem readScans_cases (addr : Word) (r : Run) (hv : r.st.cfg.valid = true) (hm : r.st.IdleTap) :
    (captureOk r.st.cfg.irCaptureCheck (captured r.st (r.reads + 1) r.st.cfg.irLen) = true ∧
        (∀ d, r.st.cfg.irAxiReadData = some d → captureOk r.st.cfg.irCaptureCheck
          (captured (r.addressed addr).st ((r.addressed addr).reads + 1) r.st.cfg.irLen) = true) ∧
        readScans addr r = .going (r.readBack addr)) ∨
      (captureOk r.st.cfg.irCaptureCheck (captured r.st (r.reads + 1) r.st.cfg.irLen) = false ∧
        readScans addr r = .ended .protocolError (r.scanned .ir r.st.cfg.irAxiRead)) ∨
      (∃ d, r.st.cfg.irAxiReadData = some d ∧
        captureOk r.st.cfg.irCaptureCheck (captured r.st (r.reads + 1) r.st.cfg.irLen) = true ∧
        captureOk r.st.cfg.irCaptureCheck
          (captured (r.addressed addr).st ((r.addressed addr).reads + 1) r.st.cfg.irLen) = false ∧
        readScans addr r = .ended .protocolError ((r.addressed addr).scanned .ir d)) ∨
      ∃ r', readScans addr r = .ended .ioError r' := by
  unfold readScans
  rcases addressPhase_cases addr r hv hm fun r =>
      (selectReadData r).andThen fun r => scan .dr (rdPayload r.st.cfg addr) r with ⟨hc, h⟩ | ⟨hc, h⟩ | ⟨r', h⟩
  · rw [h]
    obtain ⟨h1, h2⟩ := (r.addressed addr).dataSelected_frame rfl
    rcases selectReadData_cases (r.addressed addr) hv rfl with ⟨hd, h⟩ | ⟨d, hd, hc', h⟩ | ⟨r', h⟩
    · rw [h, Drive.andThen_going]
      obtain ⟨-, -, -, -, -, -, -, -, hrl, -⟩ := Config.bounds_of_valid hv
      rcases scan_cases .dr (rdPayload r.st.cfg addr) (r.addressed addr).dataSelected
        (by rw [length_rdPayload]; omega) (.inr h2) with h | ⟨r', h⟩
      · exact .inl ⟨hc, hd, by rw [h1]; exact h⟩
      · exact .inr (.inr (.inr ⟨r', by rw [h1]; exact h⟩))
    · exact .inr (.inr (.inl ⟨d, hd, hc, hc', by rw [h]; rfl⟩))
    · exact .inr (.inr (.inr ⟨r', by rw [h]; rfl⟩))
  · exact .inr (.inl ⟨hc, h⟩)
  · exact .inr (.inr (.inr ⟨r', h⟩))

end Sys2Proof.Machine
end

