-- ==== Sys2Proof/Laws/PerInstr.lean ====
section
/-!
SUPPORT. Statements about every command as syntax, one lemma per constructor.
-/
namespace Sys2Proof.Laws

/-- The fields of a header word (R81). -/
theorem headerWord_fields (op : Opcode) (len : Nat) (h : len < 256) :
    headerOp (headerWord op len) = (opcodeCode op).toNat ∧ headerLen (headerWord op len) = len ∧
      reservedClear (headerWord op len) = true := by
  have hs : (BitVec.ofNat 32 len <<< 8) = BitVec.ofNat 32 (len * 256) := by
    apply BitVec.eq_of_toNat_eq
    simp [BitVec.toNat_shiftLeft, Nat.shiftLeft_eq]
  have key : ∀ (c : Nat), c < 8 → BitVec.ofNat 32 c ||| BitVec.ofNat 32 (len * 256) = BitVec.ofNat 32 (c + len * 256) := by
    intro c hc
    apply BitVec.eq_of_toNat_eq
    rw [BitVec.toNat_or]
    simp only [BitVec.toNat_ofNat]
    rw [Nat.mod_eq_of_lt (by omega), Nat.mod_eq_of_lt (by omega), Nat.mod_eq_of_lt (by omega)]
    have := Nat.two_pow_add_eq_or_of_lt (i := 8) (b := c) (by omega) len
    rw [Nat.or_comm, show len * 256 = 2 ^ 8 * len by omega]
    omega
  have fields : ∀ (c : Nat), c < 8 → headerOp (BitVec.ofNat 32 (c + len * 256)) = c ∧
      headerLen (BitVec.ofNat 32 (c + len * 256)) = len ∧
      reservedClear (BitVec.ofNat 32 (c + len * 256)) = true := by
    intro c hc
    refine ⟨?_, ?_, ?_⟩
    · simp only [headerOp, BitVec.extractLsb'_toNat, BitVec.toNat_ofNat, Nat.shiftRight_eq_div_pow]; omega
    · simp only [headerLen, BitVec.extractLsb'_toNat, BitVec.toNat_ofNat, Nat.shiftRight_eq_div_pow]; omega
    · simp only [reservedClear, Bool.and_eq_true, beq_iff_eq]
      constructor <;> apply BitVec.eq_of_toNat_eq <;>
        simp only [BitVec.extractLsb'_toNat, BitVec.toNat_ofNat, Nat.shiftRight_eq_div_pow] <;>
        (change _ = 0; omega)
  unfold headerWord
  rw [hs]
  cases op <;> simp only [opcodeCode] <;> first
    | (rw [show (1 : Word) = BitVec.ofNat 32 1 from rfl, key 1 (by omega)]; exact fields 1 (by omega))
    | (rw [show (2 : Word) = BitVec.ofNat 32 2 from rfl, key 2 (by omega)]; exact fields 2 (by omega))
    | (rw [show (3 : Word) = BitVec.ofNat 32 3 from rfl, key 3 (by omega)]; exact fields 3 (by omega))
    | (rw [show (4 : Word) = BitVec.ofNat 32 4 from rfl, key 4 (by omega)]; exact fields 4 (by omega))
    | (rw [show (5 : Word) = BitVec.ofNat 32 5 from rfl, key 5 (by omega)]; exact fields 5 (by omega))
    | (rw [show (6 : Word) = BitVec.ofNat 32 6 from rfl, key 6 (by omega)]; exact fields 6 (by omega))

theorem opcodeOf_code (op : Opcode) : opcodeOf (opcodeCode op).toNat = some op := by
  cases op <;> rfl

/-- The header check passes on a header word whose length the opcode admits (R86). -/
theorem checkHeader_headerWord (c : Config) (op : Opcode) (len : Nat) (h : len < 256)
    (hl : lengthProblem c op len = none) : checkHeader c (headerWord op len) = .ok op := by
  obtain ⟨h1, h2, h3⟩ := headerWord_fields op len h
  simp only [checkHeader, h1, h2, h3, opcodeOf_code, hl, Bool.not_true, Bool.false_eq_true, if_false]

namespace HeaderFits

/-- Every well-formed command's words begin with a valid header, and are as many as that header asks for
(R85, R86). -/
def Statement (i : Instr) : Prop :=
  ∀ c : Config, c.maxShiftBits ≤ 255 → i.wf c = true →
    ∃ h rest, encode i = h :: rest ∧ checkHeader c h = .ok i.opcode ∧
      (encode i).length = commandLength c h

theorem of_header {c : Config} {i : Instr} {len : Nat} {rest : List Word}
    (he : encode i = headerWord i.opcode len :: rest) (hlen : len < 256)
    (hp : lengthProblem c i.opcode len = none) (hr : rest.length = operandWords i.opcode len) :
    ∃ h rest, encode i = h :: rest ∧ checkHeader c h = .ok i.opcode ∧
      (encode i).length = commandLength c h := by
  have hc := checkHeader_headerWord c i.opcode len hlen hp
  refine ⟨_, _, he, hc, ?_⟩
  simp only [commandLength, hc, (headerWord_fields i.opcode len hlen).2.1, he, List.length_cons, hr, Nat.add_comm]

theorem tapReset : Statement .tapReset := fun _ _ _ => of_header (len := 0) rfl (by omega) rfl rfl

theorem shiftIr (v : Bits) : Statement (.shiftIr v) := by
  intro c hm hw
  have hw' : 1 ≤ v.length ∧ v.length ≤ c.maxShiftBits := by simpa [Instr.wf, shiftLengthOk] using hw
  refine of_header (len := v.length) rfl (by omega) ?_ (by simp [operandWords, Instr.opcode])
  simp [lengthProblem, Instr.opcode, shiftLengthOk, hw'.1, hw'.2]

theorem shiftDr (v : Bits) : Statement (.shiftDr v) := by
  intro c hm hw
  have hw' : 1 ≤ v.length ∧ v.length ≤ c.maxShiftBits := by simpa [Instr.wf, shiftLengthOk] using hw
  refine of_header (len := v.length) rfl (by omega) ?_ (by simp [operandWords, Instr.opcode])
  simp [lengthProblem, Instr.opcode, shiftLengthOk, hw'.1, hw'.2]

theorem axiWrite (addr word : Word) : Statement (.axiWrite addr word) :=
  fun _ _ _ => of_header (len := 0) rfl (by omega) rfl rfl

theorem axiRead (addr : Word) : Statement (.axiRead addr) := fun _ _ _ => of_header (len := 0) rfl (by omega) rfl rfl

theorem release : Statement .release := fun _ _ _ => of_header (len := 0) rfl (by omega) rfl rfl

end HeaderFits

end Sys2Proof.Laws
end

