-- ==== Sys2Proof/Laws/Decode.lean ====
section
/-!
SUPPORT. What the decoder can answer, said once: the header check, the operands of a SHIFT, and a whole
command.
-/
namespace Sys2Proof

theorem headerOp_eq (h : Word) : headerOp h = h.toNat % 16 := by
  simp [headerOp, BitVec.extractLsb'_toNat]

theorem headerLen_eq (h : Word) : headerLen h = h.toNat / 256 % 256 := by
  simp [headerLen, BitVec.extractLsb'_toNat, Nat.shiftRight_eq_div_pow]

theorem reservedClear_iff (h : Word) : reservedClear h = true ↔ h.toNat / 16 % 16 = 0 ∧ h.toNat / 65536 = 0 := by
  simp only [reservedClear, Bool.and_eq_true, beq_iff_eq]
  rw [← BitVec.toNat_inj, ← BitVec.toNat_inj]
  simp [BitVec.extractLsb'_toNat, Nat.shiftRight_eq_div_pow]
  have := h.isLt
  omega

theorem opcodeOf_eq_some (n : Nat) (o : Opcode) : opcodeOf n = some o ↔ n = (opcodeCode o).toNat := by
  rcases n with _ | _ | _ | _ | _ | _ | _ | n <;> cases o <;> simp [opcodeOf, opcodeCode]

theorem lengthProblem_eq_none (c : Config) (o : Opcode) (n : Nat) : lengthProblem c o n = none ↔
    if o = .shiftIr ∨ o = .shiftDr then 1 ≤ n ∧ n ≤ c.maxShiftBits else n = 0 := by
  cases o <;> simp [lengthProblem, shiftLengthOk]

/-- The header check answers an opcode exactly when the header is that opcode's and passes (R86). -/
theorem checkHeader_eq_ok (c : Config) (h : Word) (o : Opcode) : checkHeader c h = .ok o ↔
    opcodeOf (headerOp h) = some o ∧ reservedClear h = true ∧ lengthProblem c o (headerLen h) = none := by
  unfold checkHeader
  cases ho : opcodeOf (headerOp h) with
  | none => simp
  | some o' =>
    cases hr : reservedClear h
    · simp
    · by_cases he : o' = o
      · subst he; cases hl : lengthProblem c o' (headerLen h) <;> simp [hl]
      · cases hl : lengthProblem c o' (headerLen h) <;> simp [he, hl]

/-- A header that passes is the header word of its opcode and length (R81). -/
theorem eq_headerWord {c : Config} {h : Word} {o : Opcode} (hc : checkHeader c h = .ok o) :
    h = headerWord o (headerLen h) := by
  obtain ⟨ho, hr, -⟩ := (checkHeader_eq_ok c h o).1 hc
  rw [opcodeOf_eq_some, headerOp_eq] at ho
  have hlen : headerLen h < 256 := by rw [headerLen_eq]; omega
  obtain ⟨h1, h2, h3⟩ := Laws.headerWord_fields o (headerLen h) hlen
  rw [headerOp_eq] at h1
  rw [headerLen_eq] at h2
  rw [reservedClear_iff] at h3 hr
  rw [headerLen_eq] at *
  apply BitVec.eq_of_toNat_eq
  have := h.isLt
  have := (headerWord o (h.toNat / 256 % 256)).isLt
  omega

theorem decodeShift_eq_command (mk : Bits → Instr) (n : Nat) (ws : List Word) (i : Instr) (k : Nat) :
    decodeShift mk n ws = .command i k ↔
      spareBitsClear n ws = true ∧ mk (Bits.ofWords n ws) = i ∧ 1 + vectorWords n = k := by
  unfold decodeShift
  split <;> simp_all

theorem decodeShift_eq_illegal (mk : Bits → Instr) (n : Nat) (ws : List Word) (why : IllegalReason) (k : Nat) :
    decodeShift mk n ws = .illegal why k ↔
      spareBitsClear n ws = false ∧ IllegalReason.operandBits = why ∧ 1 + vectorWords n = k := by
  unfold decodeShift
  split <;> simp_all

/-- A valid header with all its operand words (R88). -/
theorem decode_of_ok {c : Config} {h : Word} {rest : List Word} {o : Opcode} (hc : checkHeader c h = .ok o)
    (hl : operandWords o (headerLen h) ≤ rest.length) :
    decode c (h :: rest) = decodeOperands o (headerLen h) (rest.take (operandWords o (headerLen h))) := by
  simp only [decode, hc]
  exact if_neg (by omega)

/-- A command comes from a valid header with all its operand words (R88). -/
theorem decode_cons_eq_command {c : Config} {h : Word} {rest : List Word} {i : Instr} {n : Nat}
    (hd : decode c (h :: rest) = .command i n) :
    ∃ o, checkHeader c h = .ok o ∧ operandWords o (headerLen h) ≤ rest.length ∧
      decodeOperands o (headerLen h) (rest.take (operandWords o (headerLen h))) = .command i n := by
  cases hc : checkHeader c h with
  | error e => simp [decode, hc] at hd
  | ok o =>
    by_cases hl : rest.length < operandWords o (headerLen h)
    · simp [decode, hc, hl] at hd
    · exact ⟨o, rfl, by omega, by rw [decode_of_ok hc (by omega)] at hd; exact hd⟩

/-- A command takes at least its header (R85). -/
theorem decode_command_pos {c : Config} {ws : List Word} {i : Instr} {n : Nat} (hd : decode c ws = .command i n) :
    1 ≤ n := by
  cases ws with
  | nil => simp [decode] at hd
  | cons h rest =>
    obtain ⟨o, -, -, hd⟩ := decode_cons_eq_command hd
    cases o <;> simp only [decodeOperands, decodeShift_eq_command, Decoded.command.injEq] at hd <;> omega

/-- A SHIFT the decoder answers has a length that the parameters admit (R86). -/
theorem decode_command_wf {c : Config} {ws : List Word} {i : Instr} {n : Nat} (hd : decode c ws = .command i n) :
    i.wf c = true := by
  cases ws with
  | nil => simp [decode] at hd
  | cons h rest =>
    obtain ⟨o, hc, -, hd⟩ := decode_cons_eq_command hd
    obtain ⟨-, -, hl⟩ := (checkHeader_eq_ok c h o).1 hc
    rw [lengthProblem_eq_none] at hl
    cases o <;> simp only [decodeOperands, decodeShift_eq_command, Decoded.command.injEq] at hd <;>
      first
        | (obtain ⟨rfl, -⟩ := hd; rfl)
        | (obtain ⟨-, rfl, -⟩ := hd; simpa [Instr.wf, shiftLengthOk] using hl)

end Sys2Proof
end

