-- ==== Sys2Proof/Laws/HostMacros.lean ====
section
/-!
SUPPORT. Which command a loader step presents next.
-/
namespace Sys2Proof.Machine

/-- While every answer lets the host go on, it presents the next command of the step. -/
theorem LoaderStep.nextCommand_of_goesOn (step : LoaderStep) (answers : List (Status × Word))
    (h : ∀ k a, answers[k]? = some a → step.goesOn k a.1 a.2 = true) :
    step.nextCommand answers = step.commands[answers.length]? := by
  unfold LoaderStep.nextCommand
  rw [if_pos]
  simp only [List.all_eq_true, List.mem_mapIdx]
  rintro b ⟨i, hi, rfl⟩
  exact h i _ (List.getElem?_eq_getElem hi)

/-- After an answer that stops the host it presents nothing more. -/
theorem LoaderStep.nextCommand_of_stop (step : LoaderStep) (answers : List (Status × Word)) (a : Status × Word)
    (h : step.goesOn answers.length a.1 a.2 = false) : step.nextCommand (answers ++ [a]) = none := by
  unfold LoaderStep.nextCommand
  rw [if_neg]
  simp [List.mapIdx_append, h]

/-- A step that presents nothing leaves the block as it is. -/
theorem LoaderStep.runFrom_of_none (step : LoaderStep) (fuel : Nat) (answers : List (Status × Word)) (s : State)
    (h : step.nextCommand answers = none) : step.runFrom fuel answers s = s := by
  cases fuel <;> simp [LoaderStep.runFrom, h]

end Sys2Proof.Machine
end

