-- ==== Sys2Proof/Laws/Memory.lean ====
section
/-!
SUPPORT. The emulation buffer: reading after writing, and that every operation keeps the canonical form.
-/
namespace Sys2Proof.Machine

theorem Memory.lookup_erase (m : Memory) (a x : Nat) :
    Memory.lookup (Memory.erase m a) x = if x = a then none else Memory.lookup m x := by
  induction m with
  | nil => simp [Memory.erase, Memory.lookup]
  | cons p rest ih =>
    obtain ⟨y, b⟩ := p
    simp only [Memory.erase, List.filter_cons] at ih ⊢
    by_cases hy : y = a
    · subst hy
      simp only [ne_eq, not_true_eq_false, decide_false, Bool.false_eq_true, if_false, ih, Memory.lookup]
      by_cases hx : x = y
      · simp [hx]
      · simp [hx, Ne.symm hx]
    · simp only [ne_eq, hy, not_false_eq_true, decide_true, if_true, Memory.lookup, ih]
      by_cases hx : y = x
      · subst hx; simp [hy]
      · simp [hx]

theorem Memory.lookup_put (m : Memory) (a : Nat) (b : Byte) (x : Nat) :
    Memory.lookup (Memory.put m a b) x = if x = a then some b else Memory.lookup m x := by
  induction m with
  | nil => simp only [Memory.put, Memory.lookup, eq_comm]
  | cons p rest ih =>
    obtain ⟨y, c⟩ := p
    simp only [Memory.put]
    split
    · simp only [Memory.lookup, eq_comm]
    · split
      · rename_i h1 h2
        subst h2
        simp only [Memory.lookup]
        by_cases hx : x = a
        · simp [hx]
        · simp [hx, Ne.symm hx]
      · rename_i h1 h2
        simp only [Memory.lookup, ih]
        by_cases hx : y = x
        · subst hx; simp [Ne.symm h2]
        · simp [hx]

/-- A byte read after a byte written. -/
theorem Memory.read_write (c : Config) (m : Memory) (a : Nat) (b : Byte) (x : Nat) :
    Memory.read c (Memory.write c m a b) x = if x = a then b else Memory.read c m x := by
  unfold Memory.write Memory.read
  split
  · rename_i h
    rw [Memory.lookup_erase]
    by_cases hx : x = a
    · simp [hx, h]
    · simp [hx]
  · rw [Memory.lookup_put]
    by_cases hx : x = a
    · simp [hx]
    · simp [hx]

/-- The byte that a word write leaves at an address. -/
theorem Memory.read_memWrite (c : Config) (m : Memory) (addr v : Word) (x : Nat) :
    Memory.read c (memWrite c m addr v) x =
      if addr.toNat ≤ x ∧ x < addr.toNat + 4 then wordByte c.byteOrder v (x - addr.toNat)
      else Memory.read c m x := by
  have hr : List.range 4 = [0, 1, 2, 3] := rfl
  simp only [memWrite, hr, List.foldl, Memory.read_write]
  by_cases h3 : x = addr.toNat + 3
  · subst h3; simp
  by_cases h2 : x = addr.toNat + 2
  · subst h2; simp
  by_cases h1 : x = addr.toNat + 1
  · subst h1; simp
  by_cases h0 : x = addr.toNat
  · subst h0; simp
  have : ¬(addr.toNat ≤ x ∧ x < addr.toNat + 4) := by omega
  simp [h0, h1, h2, h3, this]

theorem wordOfBytes_wordByte (order : ByteOrder) (v : Word) :
    wordOfBytes order (wordByte order v 0) (wordByte order v 1) (wordByte order v 2) (wordByte order v 3) = v := by
  cases order <;> simp only [wordOfBytes, wordByte] <;> ext i hi <;>
    simp only [BitVec.getElem_append, BitVec.getElem_extractLsb'] <;> split <;> try split <;> try split
  all_goals (rw [← BitVec.getLsbD_eq_getElem]; congr 1; omega)

/-- The bytes of a word made of four bytes are those bytes (R55). -/
theorem wordByte_wordOfBytes (order : ByteOrder) (b0 b1 b2 b3 : Byte) :
    wordByte order (wordOfBytes order b0 b1 b2 b3) 0 = b0 ∧ wordByte order (wordOfBytes order b0 b1 b2 b3) 1 = b1 ∧
      wordByte order (wordOfBytes order b0 b1 b2 b3) 2 = b2 ∧ wordByte order (wordOfBytes order b0 b1 b2 b3) 3 = b3 := by
  cases order <;> refine ⟨?_, ?_, ?_, ?_⟩ <;> simp only [wordOfBytes, wordByte] <;> ext i hi <;>
    simp only [← BitVec.getLsbD_eq_getElem, BitVec.getLsbD_extractLsb', BitVec.getLsbD_append, hi, decide_true,
      Bool.true_and] <;> repeat' split
  all_goals first | omega | (congr 1; omega)


/-- A word read back right after it was written (R64 under `EMUL`). -/
theorem memRead_memWrite (c : Config) (m : Memory) (addr v : Word) :
    memRead c (memWrite c m addr v) addr = v := by
  have h0 := Memory.read_memWrite c m addr v addr.toNat
  have h1 := Memory.read_memWrite c m addr v (addr.toNat + 1)
  have h2 := Memory.read_memWrite c m addr v (addr.toNat + 2)
  have h3 := Memory.read_memWrite c m addr v (addr.toNat + 3)
  simp at h0 h1 h2 h3
  rw [memRead, h0, h1, h2, h3, wordOfBytes_wordByte]

/-- A word elsewhere reads as before. -/
theorem memRead_memWrite_of_disjoint (c : Config) (m : Memory) (addr other v : Word)
    (h : other.toNat + 4 ≤ addr.toNat ∨ addr.toNat + 4 ≤ other.toNat) :
    memRead c (memWrite c m addr v) other = memRead c m other := by
  have key : ∀ k, k < 4 →
      Memory.read c (memWrite c m addr v) (other.toNat + k) = Memory.read c m (other.toNat + k) := by
    intro k hk
    rw [Memory.read_memWrite, if_neg]
    omega
  have h0 := key 0 (by omega)
  rw [Nat.add_zero] at h0
  rw [memRead, memRead, h0, key 1 (by omega), key 2 (by omega), key 3 (by omega)]

theorem Memory.mem_erase {m : Memory} {a : Nat} {p : Host.Cell} (h : p ∈ Memory.erase m a) : p ∈ m :=
  (List.mem_filter.mp h).1

theorem Memory.mem_put {m : Memory} {a : Nat} {b : Byte} {p : Host.Cell} (h : p ∈ Memory.put m a b) :
    p = (a, b) ∨ p ∈ m := by
  induction m with
  | nil => simpa [Memory.put] using h
  | cons q rest ih =>
    obtain ⟨y, c⟩ := q
    simp only [Memory.put] at h
    split at h
    · simpa using h
    · split at h
      · simp only [List.mem_cons] at h ⊢
        tauto
      · simp only [List.mem_cons] at h ⊢
        rcases h with h | h
        · exact .inr (.inl h)
        · rcases ih h with h | h
          · exact .inl h
          · exact .inr (.inr h)

theorem Memory.erase_wf (c : Config) (m : Memory) (a : Nat) (h : Memory.wf c m) :
    Memory.wf c (Memory.erase m a) :=
  ⟨h.1.filter _, fun p hp => h.2 p (Memory.mem_erase hp)⟩

theorem Memory.put_pairwise (m : Memory) (a : Nat) (b : Byte) (h : m.Pairwise (fun p q => p.1 < q.1)) :
    (Memory.put m a b).Pairwise (fun p q => p.1 < q.1) := by
  induction m with
  | nil => simp [Memory.put]
  | cons q rest ih =>
    obtain ⟨y, c⟩ := q
    have hr := List.pairwise_cons.mp h
    simp only [Memory.put]
    split
    · rename_i hlt
      refine List.pairwise_cons.mpr ⟨fun p hp => ?_, h⟩
      rcases List.mem_cons.mp hp with hp | hp
      · subst hp; exact hlt
      · exact lt_trans hlt (hr.1 p hp)
    · split
      · rename_i _ heq
        subst heq
        exact List.pairwise_cons.mpr ⟨fun p hp => hr.1 p hp, hr.2⟩
      · rename_i hge hne
        refine List.pairwise_cons.mpr ⟨fun p hp => ?_, ih hr.2⟩
        rcases Memory.mem_put hp with hp | hp
        · subst hp; show y < a; omega
        · exact hr.1 p hp

/-- Writing a byte inside the buffer keeps the canonical form. -/
theorem Memory.write_wf (c : Config) (m : Memory) (a : Nat) (b : Byte) (ha : a < c.emulLen)
    (h : Memory.wf c m) : Memory.wf c (Memory.write c m a b) := by
  unfold Memory.write
  split
  · exact Memory.erase_wf c m a h
  · rename_i hb
    refine ⟨Memory.put_pairwise m a b h.1, fun p hp => ?_⟩
    rcases Memory.mem_put hp with hp | hp
    · subst hp; exact ⟨ha, hb⟩
    · exact h.2 p hp

/-- Writing a word inside the buffer keeps the canonical form. -/
theorem memWrite_wf (c : Config) (m : Memory) (addr v : Word) (hr : inBuffer c addr = true)
    (h : Memory.wf c m) : Memory.wf c (memWrite c m addr v) := by
  have hl : addr.toNat + 4 ≤ c.emulLen := by simpa [inBuffer] using hr
  have h4 : List.range 4 = [0, 1, 2, 3] := rfl
  simp only [memWrite, h4, List.foldl]
  refine Memory.write_wf c _ _ _ (by omega) (Memory.write_wf c _ _ _ (by omega)
    (Memory.write_wf c _ _ _ (by omega) (Memory.write_wf c _ _ _ (by omega) h)))

/-- In the canonical form, the byte at an address decides its entry. -/
theorem Memory.lookup_of_wf (c : Config) (m : Memory) (h : Memory.wf c m) (a : Nat) :
    Memory.lookup m a = if Memory.read c m a = initByte c a then none else some (Memory.read c m a) := by
  have key : ∀ m : Memory, (∀ p ∈ m, p.2 ≠ initByte c p.1) → ∀ b, Memory.lookup m a = some b → b ≠ initByte c a := by
    intro m
    induction m with
    | nil => intro _ b hb; simp [Memory.lookup] at hb
    | cons p rest ih =>
      obtain ⟨y, d⟩ := p
      intro hm b hb
      simp only [Memory.lookup] at hb
      split at hb
      · rename_i hy
        cases hb
        have := hm (y, d) (by simp)
        rwa [hy] at this
      · exact ih (fun q hq => hm q (by simp [hq])) b hb
  unfold Memory.read
  cases hl : Memory.lookup m a with
  | none => simp
  | some b => simp [key m (fun p hp => (h.2 p hp).2) b hl]

end Sys2Proof.Machine
end

