-- ==== Sys2Proof/Laws/Observe.lean ====
section
/-!
SUPPORT. What the wire shows of ticks: their TMS and TDI levels, in order (R96).
-/
namespace Sys2Proof.Machine

theorem newEvents_of_append {s t : State} {es : List PinEvent} (h : t.trace = s.trace ++ es) :
    newEvents s t = es := by
  rw [newEvents, h, List.drop_left]

theorem ticksPrims_append (ts us : List Tick) : ticksPrims (ts ++ us) = ticksPrims ts ++ ticksPrims us := by
  simp [ticksPrims]

theorem ticksPrims_cons (t : Tick) (ts : List Tick) : ticksPrims (t :: ts) = t.prims ++ ticksPrims ts := by
  simp [ticksPrims]

/-- A tick shows as one clock pulse with its two levels. -/
theorem wireTicks_tick (t : Tick) (rest : List PinEvent) (a b : Bool) :
    wireTicks (okEvents t.prims ++ rest) a b = (t.tms, t.tdi) :: wireTicks rest t.tms t.tdi := by
  obtain ⟨tms, tdi, sample⟩ := t
  cases sample <;> rfl

/-- Ticks show as clock pulses with their levels, and the lines keep those of the last one. -/
theorem wireTicks_ticks (ts : List Tick) (rest : List PinEvent) (a b : Bool) :
    ∃ a' b', wireTicks (okEvents (ticksPrims ts) ++ rest) a b =
      ts.map (fun t => (t.tms, t.tdi)) ++ wireTicks rest a' b' := by
  induction ts generalizing a b with
  | nil => exact ⟨a, b, rfl⟩
  | cons t ts ih =>
    obtain ⟨a', b', h⟩ := ih t.tms t.tdi
    refine ⟨a', b', ?_⟩
    rw [ticksPrims_cons, okEvents_append, List.append_assoc, wireTicks_tick, h]
    rfl

theorem wireTicks_okTicks (ts : List Tick) (a b : Bool) :
    wireTicks (okEvents (ticksPrims ts)) a b = ts.map fun t => (t.tms, t.tdi) := by
  obtain ⟨a', b', h⟩ := wireTicks_ticks ts [] a b
  simpa [wireTicks] using h

@[simp] theorem wireTms_okTicks (ts : List Tick) : wireTms (okEvents (ticksPrims ts)) = ts.map Tick.tms := by
  rw [wireTms, wireTicks_okTicks, List.map_map]; rfl

@[simp] theorem wireTdi_okTicks (ts : List Tick) : wireTdi (okEvents (ticksPrims ts)) = ts.map Tick.tdi := by
  rw [wireTdi, wireTicks_okTicks, List.map_map]; rfl

/-- TCK driven low before the first tick shows no clock pulse. -/
theorem wireTicks_set_tck (v : Bool) (rest : List PinEvent) (a b : Bool) :
    wireTicks ({ prim := .set .tck v, ok := true } :: rest) a b = wireTicks rest a b := rfl

@[simp] theorem length_okEvents (ps : List PinPrim) : (okEvents ps).length = ps.length := by simp [okEvents]

/-- Three primitives a tick, and one more where it samples (R113). -/
theorem length_ticksPrims (ts : List Tick) :
    (ticksPrims ts).length = 3 * ts.length + (ts.filter fun t => t.sample.isSome).length := by
  induction ts with
  | nil => rfl
  | cons t ts ih =>
    rw [ticksPrims_cons, List.length_append, ih]
    obtain ⟨a, b, c⟩ := t
    cases c <;> simp [Tick.prims] <;> omega

/-- The ticks of a scan (R117). -/
theorem length_scanTicks (order : BitOrder) (kind : ScanKind) (m : Mirror) (v : Bits) :
    (scanTicks order kind m v).length =
      (match kind with
        | .ir => v.length + 6
        | .dr => v.length + 5) + (if m = .known .testLogicReset then 1 else 0) := by
  unfold scanTicks gotoIdle
  cases kind <;> split <;> simp [walkIn, walkOut, shiftTicks]

/-- A scan samples once per bit (R117). -/
theorem samples_scanTicks (order : BitOrder) (kind : ScanKind) (m : Mirror) (v : Bits) :
    ((scanTicks order kind m v).filter fun t => t.sample.isSome).length = v.length := by
  have h : (shiftTicks order v).filter (fun t => t.sample.isSome) = shiftTicks order v :=
    List.filter_eq_self.2 fun t ht => by
      obtain ⟨i, -, rfl⟩ := List.mem_map.1 ht
      rfl
  unfold scanTicks gotoIdle
  cases kind <;> split <;>
    simp only [List.filter_append, List.length_append, h] <;> simp [walkIn, walkOut, Tick.plain, shiftTicks]

/-- The primitives of a scan (R117). -/
theorem length_scanTicks_prims (order : BitOrder) (kind : ScanKind) (m : Mirror) (v : Bits) :
    (ticksPrims (scanTicks order kind m v)).length = 3 * (scanTicks order kind m v).length + v.length := by
  rw [length_ticksPrims, samples_scanTicks]

/-- The states that a scan's or any ticks enter end where the walk ends. -/
theorem Mirror.visits_append (m : Mirror) (xs ys : List Bool) :
    m.visits (xs ++ ys) = m.visits xs ++ (m.walk xs).visits ys := by
  induction xs generalizing m with
  | nil => rfl
  | cons b xs ih => rw [List.cons_append, Mirror.visits, ih]; rfl

/-- The mirror does not move where a level keeps it. -/
theorem Mirror.visits_replicate {m : Mirror} {b : Bool} (h : m.next b = m) (n : Nat) :
    m.visits (List.replicate n b) = List.replicate n m := by
  induction n with
  | zero => rfl
  | succ n ih => rw [List.replicate_succ, Mirror.visits, h, ih, List.replicate_succ]

end Sys2Proof.Machine
end

