-- ==== Sys2Proof/Laws/Step.lean ====
section
/-!
SUPPORT. What one step can do, said once.
-/
namespace Sys2Proof.Machine

/-- The action picked has a step and comes from the queue; the rest is the queue without it. -/
theorem pickAction_eq_some {s : State} {held : List HostId} {queue : List HostAction} {a : HostAction}
    {rest : List HostAction} (h : pickAction s held queue = some (a, rest)) :
    ∃ pre post, queue = pre ++ a :: post ∧ rest = pre ++ post ∧ a.enabled s = true := by
  induction queue generalizing held rest with
  | nil => simp [pickAction] at h
  | cons b q ih =>
    simp only [pickAction] at h
    split at h
    · next hb =>
      simp only [Option.some.injEq, Prod.mk.injEq] at h
      obtain ⟨rfl, rfl⟩ := h
      exact ⟨[], q, rfl, rfl, by simp at hb; exact hb.2⟩
    · cases hp : pickAction s (b.host :: held) q with
      | none => simp [hp] at h
      | some p =>
        obtain ⟨a', rest'⟩ := p
        simp only [hp, Option.map_some, Option.some.injEq, Prod.mk.injEq] at h
        obtain ⟨rfl, rfl⟩ := h
        obtain ⟨pre, post, rfl, rfl, he⟩ := ih hp
        exact ⟨b :: pre, post, rfl, rfl, he⟩

/-- Words on the port are performed only for a presenter that holds the lock (R221). -/
theorem State.portLive_iff (s : State) : s.portLive = true ↔ ∃ h, s.presenter = some h ∧ s.lock = some h := by
  unfold State.portLive
  cases hp : s.presenter with
  | none => simp
  | some g => simp only [Option.isSome_some, Bool.true_and, beq_iff_eq, Option.some.injEq, exists_eq_left']; exact eq_comm

theorem State.fetch_eq_command {s : State} {i : Instr} {n : Nat} (h : s.fetch = .command i n) :
    (∃ g, s.presenter = some g ∧ s.lock = some g) ∧ decode s.cfg s.port = .command i n := by
  unfold State.fetch at h
  split at h
  · next hl => exact ⟨s.portLive_iff.1 hl, h⟩
  · cases h

theorem State.fetch_eq_illegal {s : State} {why : IllegalReason} {n : Nat} (h : s.fetch = .illegal why n) :
    (∃ g, s.presenter = some g ∧ s.lock = some g) ∧ decode s.cfg s.port = .illegal why n := by
  unfold State.fetch at h
  split at h
  · next hl => exact ⟨s.portLive_iff.1 hl, h⟩
  · cases h

/-- What a step can do: perform the command on the port; refuse the words on it; wait; or let a host's
action from the queue take place. -/
theorem step_cases (s : State) :
    (∃ i n, s.fetch = .command i n ∧ step s = exec i (s.takeWords n)) ∨
      (∃ why n, s.fetch = .illegal why n ∧ step s = .next (s.takeWords n).illegalCommand) ∨
      (s.fetch = .incomplete ∧ step s = .next s) ∨
      (s.fetch = .incomplete ∧ ∃ a pre post, s.hostQueue = pre ++ a :: post ∧ a.enabled s = true ∧
        step s = a.take { s with hostQueue := pre ++ post }) := by
  unfold step
  cases hf : s.fetch with
  | command i n => exact .inl ⟨i, n, rfl, rfl⟩
  | illegal why n => exact .inr (.inl ⟨why, n, rfl, rfl⟩)
  | incomplete =>
    simp only [State.hostTurn]
    cases hp : pickAction s [] s.hostQueue with
    | none => exact .inr (.inr (.inl ⟨by simp, rfl⟩))
    | some p =>
      obtain ⟨a, rest⟩ := p
      obtain ⟨pre, post, hq, rfl, he⟩ := pickAction_eq_some hp
      exact .inr (.inr (.inr ⟨by simp, a, pre, post, hq, he, rfl⟩))

end Sys2Proof.Machine
end

