-- ==== Sys2Proof/Laws/Target.lean ====
section
/-!
SUPPORT. What the target contract makes of ticks and of a whole scan, said once.
-/
namespace Sys2Proof.Machine

/-- The target after ticks. -/
def Target.ticked (W : TargetWorld) (c : Config) (ts : List Tick) (T : Target) : Target :=
  ts.foldl (fun T t => T.tick W c t.tms t.tdi) T

/-- The TDO levels that the target presents at the reads of ticks, in order. -/
def Target.answers (W : TargetWorld) (c : Config) (ts : List Tick) (T : Target) : List Bool :=
  match ts with
  | [] => []
  | t :: rest => (if t.sample.isSome then [T.tdo] else []) ++ Target.answers W c rest (T.tick W c t.tms t.tdi)

theorem Target.ticked_append (W : TargetWorld) (c : Config) (ts us : List Tick) (T : Target) :
    T.ticked W c (ts ++ us) = (T.ticked W c ts).ticked W c us := List.foldl_append

theorem Target.answers_append (W : TargetWorld) (c : Config) (ts us : List Tick) (T : Target) :
    T.answers W c (ts ++ us) = T.answers W c ts ++ (T.ticked W c ts).answers W c us := by
  induction ts generalizing T with
  | nil => rfl
  | cons t ts ih => simp only [List.cons_append, Target.answers, ih, List.append_assoc]; rfl

theorem Target.react_tick (W : TargetWorld) (c : Config) (t : Tick) (rest : List PinEvent) (a b : Bool) (T : Target) :
    T.react W c (okEvents t.prims ++ rest) a b =
      (((T.tick W c t.tms t.tdi).react W c rest t.tms t.tdi).1,
        (if t.sample.isSome then [T.tdo] else []) ++ ((T.tick W c t.tms t.tdi).react W c rest t.tms t.tdi).2) := by
  obtain ⟨tms, tdi, sample⟩ := t
  cases sample <;> rfl

/-- The target's reaction to ticks. -/
theorem Target.react_okTicks (W : TargetWorld) (c : Config) (ts : List Tick) (rest : List PinEvent) (a b : Bool)
    (T : Target) : ∃ a' b', T.react W c (okEvents (ticksPrims ts) ++ rest) a b =
      (((T.ticked W c ts).react W c rest a' b').1,
        T.answers W c ts ++ ((T.ticked W c ts).react W c rest a' b').2) := by
  induction ts generalizing T a b with
  | nil => exact ⟨a, b, rfl⟩
  | cons t ts ih =>
    obtain ⟨a', b', h⟩ := ih t.tms t.tdi (T.tick W c t.tms t.tdi)
    refine ⟨a', b', ?_⟩
    rw [ticksPrims_cons, okEvents_append, List.append_assoc, Target.react_tick, h]
    simp only [Target.answers, List.append_assoc]
    rfl

theorem Target.react_ticks (W : TargetWorld) (c : Config) (ts : List Tick) (a b : Bool) (T : Target) :
    T.react W c (okEvents (ticksPrims ts)) a b = (T.ticked W c ts, T.answers W c ts) := by
  obtain ⟨a', b', h⟩ := Target.react_okTicks W c ts [] a b T
  simpa [Target.react] using h

/-! ## Time -/

/-- A read's phase after `n` ticks. -/
def ReadPhase.aged (n : Nat) : ReadPhase → ReadPhase
  | .latched k w => .latched (k - n) w
  | .none => .none

theorem ReadPhase.aged_age (p : ReadPhase) (n : Nat) : p.age.aged n = p.aged (n + 1) := by
  cases p <;> simp [ReadPhase.age, ReadPhase.aged]
  omega

@[simp] theorem ReadPhase.aged_zero (p : ReadPhase) : p.aged 0 = p := by cases p <;> rfl

/-- The target after `n` ticks that start nothing. -/
def Target.aged (W : TargetWorld) (n : Nat) (T : Target) : Target :=
  match n with
  | 0 => T
  | n + 1 => Target.aged W n (T.age W)

@[simp] theorem Target.age_tap (W : TargetWorld) (T : Target) : (T.age W).tap = T.tap := rfl
@[simp] theorem Target.age_ir (W : TargetWorld) (T : Target) : (T.age W).ir = T.ir := rfl
@[simp] theorem Target.age_shift (W : TargetWorld) (T : Target) : (T.age W).shift = T.shift := rfl
@[simp] theorem Target.age_shifted (W : TargetWorld) (T : Target) : (T.age W).shifted = T.shifted := rfl
@[simp] theorem Target.age_drOut (W : TargetWorld) (T : Target) : (T.age W).drOut = T.drOut := rfl
@[simp] theorem Target.age_captures (W : TargetWorld) (T : Target) : (T.age W).captures = T.captures := rfl
@[simp] theorem Target.age_coreHalted (W : TargetWorld) (T : Target) : (T.age W).coreHalted = T.coreHalted := rfl
@[simp] theorem Target.age_aborted (W : TargetWorld) (T : Target) : (T.age W).aborted = T.aborted := rfl
@[simp] theorem Target.age_read (W : TargetWorld) (T : Target) : (T.age W).read = T.read.age := rfl
@[simp] theorem Target.age_retrieving (W : TargetWorld) (T : Target) : (T.age W).retrieving = T.retrieving := rfl
@[simp] theorem Target.age_accesses (W : TargetWorld) (T : Target) : (T.age W).accesses = T.accesses := rfl

/-- What time leaves alone, and what it does to a read. -/
theorem Target.aged_frame (W : TargetWorld) (n : Nat) (T : Target) :
    (T.aged W n).tap = T.tap ∧ (T.aged W n).ir = T.ir ∧ (T.aged W n).shift = T.shift ∧
      (T.aged W n).shifted = T.shifted ∧ (T.aged W n).drOut = T.drOut ∧ (T.aged W n).captures = T.captures ∧
      (T.aged W n).coreHalted = T.coreHalted ∧ (T.aged W n).aborted = T.aborted ∧
      (T.aged W n).read = T.read.aged n ∧ (T.aged W n).accesses = T.accesses := by
  induction n generalizing T with
  | zero => simp [Target.aged]
  | succ n ih =>
    obtain ⟨h1, h2, h3, h4, h5, h6, h7, h8, h9, h10⟩ := ih (T.age W)
    exact ⟨h1, h2, h3, h4, h5, h6, h7, h8, by rw [Target.aged, h9, Target.age_read, ReadPhase.aged_age], h10⟩

@[simp] theorem Target.aged_retrieving (W : TargetWorld) (n : Nat) (T : Target) :
    (T.aged W n).retrieving = T.retrieving := by
  induction n generalizing T with
  | zero => rfl
  | succ n ih => exact ih (T.age W)

theorem Target.aged_add (W : TargetWorld) (m n : Nat) (T : Target) : T.aged W (m + n) = (T.aged W m).aged W n := by
  induction m generalizing T with
  | zero => rw [Nat.zero_add]; rfl
  | succ m ih => rw [Nat.succ_add]; exact ih (T.age W)

/-- Without a write in flight and with the core halted, time changes no memory. -/
theorem Target.aged_of_no_writes (W : TargetWorld) (n : Nat) (T : Target) (hc : T.coreHalted = true)
    (h : T.writes = []) :
    (T.aged W n).mem = T.mem ∧ (T.aged W n).writes = [] ∧ (T.aged W n).draws = T.draws := by
  induction n generalizing T with
  | zero => exact ⟨rfl, h, rfl⟩
  | succ n ih =>
    obtain ⟨h1, h2, h3⟩ := ih (T.age W) hc (by simp [Target.age, h])
    exact ⟨by rw [Target.aged, h1]; simp [Target.age, h, hc], h2, by rw [Target.aged, h3]; simp [Target.age, hc]⟩

/-- A lone write in flight completes once its ticks are over, with the core halted. -/
theorem Target.aged_of_one_write (W : TargetWorld) (n k : Nat) (a w : Word) (T : Target)
    (hc : T.coreHalted = true) (h : T.writes = [(k, a, w)]) (hk : 1 ≤ k) (hn : k ≤ n) :
    (T.aged W n).mem = (a, w) :: T.mem ∧ (T.aged W n).writes = [] := by
  induction n generalizing T k with
  | zero => omega
  | succ n ih =>
    rw [Target.aged]
    by_cases h1 : k = 1
    · subst h1
      have hm : (T.age W).mem = (a, w) :: T.mem ∧ (T.age W).writes = [] := by simp [Target.age, h, hc]
      obtain ⟨h3, h4, -⟩ := (T.age W).aged_of_no_writes W n hc hm.2
      exact ⟨by rw [h3, hm.1], h4⟩
    · have hm : (T.age W).mem = T.mem ∧ (T.age W).writes = [(k - 1, a, w)] := by
        have : ¬k ≤ 1 := by omega
        have : 1 < k := by omega
        simp [Target.age, *]
      obtain ⟨h3, h4⟩ := ih (k - 1) (T.age W) hc hm.2 (by omega) (by omega)
      exact ⟨by rw [h3, hm.1], h4⟩

/-- Time does not look at where the TAP stands. -/
theorem Target.aged_with (W : TargetWorld) (n : Nat) (T : Target) (tap : TapState) (ir shift : Bits)
    (m k : Nat) :
    ({ T with tap := tap, ir := ir, shift := shift, shifted := m, captures := k } : Target).aged W n =
      { T.aged W n with tap := tap, ir := ir, shift := shift, shifted := m, captures := k } := by
  induction n generalizing T with
  | zero => rfl
  | succ n ih => exact ih (T.age W)

/-- The same, once a Capture-DR has used the read latch up. -/
theorem Target.aged_with_read (W : TargetWorld) (n : Nat) (T : Target) (tap : TapState) (ir shift : Bits)
    (m k : Nat) :
    ({ T with tap := tap, ir := ir, shift := shift, shifted := m, captures := k, read := .none } : Target).aged W n =
      { T.aged W n with tap := tap, ir := ir, shift := shift, shifted := m, captures := k, read := .none } := by
  induction n generalizing T with
  | zero => rfl
  | succ n ih => exact ih (T.age W)

/-- An idle wait only lets time pass (R120). -/
theorem Target.idle_ticked (W : TargetWorld) (c : Config) (k : Nat) (T : Target) (h : T.tap = .runTestIdle) :
    T.ticked W c (idleTicks k) = T.aged W k ∧ T.answers W c (idleTicks k) = [] := by
  induction k generalizing T with
  | zero => exact ⟨rfl, rfl⟩
  | succ k ih =>
    have ht : T.tick W c false false = T.age W := by
      obtain ⟨⟩ := T
      cases h
      rfl
    obtain ⟨h1, h2⟩ := ih (T.age W) h
    constructor
    · change (T.tick W c false false).ticked W c (idleTicks k) = _
      rw [ht, h1]
      rfl
    · change [] ++ (T.tick W c false false).answers W c (idleTicks k) = _
      rw [ht, h2]
      rfl

/-! ## Shifting -/

/-- Shift ticks with TMS = 0 move the register along the stream of what it held and the bits that come in: what
it held comes out first, and then the bits shifted in, if the ticks are more than it has bits (R70). -/
theorem Target.shifting (W : TargetWorld) (c : Config) (tap : TapState) (htap : tap = .shiftIr ∨ tap = .shiftDr)
    (f : Nat → Tick) (m : Nat) (T : Target) (ht : T.tap = tap) (hs : 1 ≤ T.shift.length)
    (hf : ∀ i < m, (f i).tms = false ∧ (f i).sample.isSome = true) :
    T.ticked W c ((List.range m).map f) =
        { T.aged W m with
          shift := (T.shift ++ (List.range m).map fun i => (f i).tdi).drop m
          shifted := T.shifted + m } ∧
      T.answers W c ((List.range m).map f) = (T.shift ++ (List.range m).map fun i => (f i).tdi).take m := by
  induction m with
  | zero => simp [Target.ticked, Target.answers, Target.aged]
  | succ m ih =>
    obtain ⟨h1, h2⟩ := ih fun i hi => hf i (by omega)
    obtain ⟨e1, e2, e3, e4, -⟩ := T.aged_frame W m
    generalize hS : T.shift ++ (List.range m).map (fun i => (f i).tdi) = S at h1 h2
    have hl : m + 1 ≤ S.length := by rw [← hS]; simp; omega
    have hS' : T.shift ++ (List.range (m + 1)).map (fun i => (f i).tdi) = S ++ [(f m).tdi] := by
      rw [← hS, List.range_succ, List.map_append, List.append_assoc]; rfl
    rw [hS', List.range_succ, List.map_append, Target.ticked_append, Target.answers_append, h1, h2,
      List.drop_append_of_le_length hl, List.take_append_of_le_length hl, Target.aged_add]
    obtain ⟨ft, fs⟩ := hf m (by omega)
    constructor
    · rcases htap with rfl | rfl <;>
        simp [Target.ticked, Target.tick, Target.leave, Target.enter, Target.aged, Target.age, e1, ht, ft,
          TapState.next, Nat.add_assoc]
    · rw [List.take_add_one]
      simp [Target.answers, fs, Target.tdo, Bits.bit, List.getD_eq_getElem?_getD,
        List.getElem?_eq_getElem (show m < S.length by omega)]

/-! ## A whole scan -/

@[simp] theorem length_wireOrder (order : BitOrder) (v : Bits) : (wireOrder order v).length = v.length := by
  cases order <;> simp [wireOrder]

@[simp] theorem wireOrder_wireOrder (order : BitOrder) (v : Bits) : wireOrder order (wireOrder order v) = v := by
  cases order <;> simp [wireOrder]

/-- A shift tick presents the next bit of the vector's wire order (R116). -/
theorem getElem_wireOrder (order : BitOrder) (v : Bits) (i : Nat) (h : i < (wireOrder order v).length) :
    (wireOrder order v)[i] = v.getD (shiftIndex order v.length i) false := by
  have h' : i < v.length := by simpa using h
  cases order
  · simp [wireOrder, shiftIndex, h']
  · have : v.length - 1 - i < v.length := by omega
    simp [wireOrder, shiftIndex, this]

/-- The shift ticks of a scan, which leave Shift with the last one: the register moves along the stream of what it
held and the vector's bits in wire order, by as many bits as the vector has (R70, R116, R134). -/
theorem Target.shiftTicks_stream (W : TargetWorld) (c : Config) (order : BitOrder) (tap : TapState)
    (htap : tap = .shiftIr ∨ tap = .shiftDr) (v : Bits) (T : Target) (ht : T.tap = tap) (hv : 1 ≤ v.length)
    (hl : 1 ≤ T.shift.length) :
    T.ticked W c (shiftTicks order v) =
        { T.aged W v.length with
          tap := tap.next true
          shift := (T.shift ++ wireOrder order v).drop v.length
          shifted := T.shifted + v.length } ∧
      T.answers W c (shiftTicks order v) = (T.shift ++ wireOrder order v).take v.length := by
  obtain ⟨m, hm⟩ : ∃ m, v.length = m + 1 := ⟨v.length - 1, by omega⟩
  obtain ⟨h1, h2⟩ := T.shifting W c tap htap (shiftTick order v) m ht hl fun i hi => by
    simp [shiftTick, hm]; omega
  obtain ⟨e1, -⟩ := T.aged_frame W m
  have htdi : ((List.range m).map fun i => (shiftTick order v i).tdi) ++ [(shiftTick order v m).tdi] =
      wireOrder order v := by
    apply List.ext_getElem
    · simp [hm]
    · intro i hi hi'
      rw [getElem_wireOrder]
      by_cases h : i < m
      · simp [h, shiftTick]
      · obtain rfl : i = m := by simp at hi'; omega
        simp [shiftTick]
  have hsplit : shiftTicks order v = (List.range m).map (shiftTick order v) ++ [shiftTick order v m] := by
    rw [shiftTicks, hm, List.range_succ, List.map_append]; rfl
  rw [hsplit, Target.ticked_append, Target.answers_append, h1, h2, ← htdi, ← List.append_assoc]
  generalize hS : T.shift ++ (List.range m).map (fun i => (shiftTick order v i).tdi) = S
  have hSl : m + 1 ≤ S.length := by rw [← hS]; simp; omega
  rw [hm, List.drop_append_of_le_length hSl, List.take_append_of_le_length hSl, Target.aged_add]
  constructor
  · have ft : (shiftTick order v m).tms = true := by simp [shiftTick, hm]
    rcases htap with rfl | rfl <;>
      simp [Target.ticked, Target.tick, Target.leave, Target.enter, Target.aged, Target.age, e1, ht, ft,
        TapState.next, Nat.add_assoc]
  · rw [List.take_add_one]
    simp [Target.answers, Target.tdo, Bits.bit, shiftTick, List.getD_eq_getElem?_getD,
      List.getElem?_eq_getElem (show m < S.length by omega)]

/-- The same for a vector as long as the register, which ends up holding the vector, and what it held has come
out. -/
theorem Target.shiftTicks_ticked (W : TargetWorld) (c : Config) (order : BitOrder) (tap : TapState)
    (htap : tap = .shiftIr ∨ tap = .shiftDr) (v : Bits) (T : Target) (ht : T.tap = tap) (hv : 1 ≤ v.length)
    (hl : T.shift.length = v.length) :
    T.ticked W c (shiftTicks order v) =
        { T.aged W v.length with
          tap := tap.next true, shift := wireOrder order v, shifted := T.shifted + v.length } ∧
      T.answers W c (shiftTicks order v) = T.shift := by
  have h := T.shiftTicks_stream W c order tap htap v ht hv (by omega)
  rwa [← hl, List.drop_left, List.take_left, hl] at h

/-- The walk from an idle state into Shift-IR: the capture's value is open (R70). -/
theorem Target.walk_ir (W : TargetWorld) (c : Config) (T : Target)
    (ht : T.tap = .testLogicReset ∨ T.tap = .runTestIdle) :
    T.ticked W c (gotoIdle (.known T.tap) ++ walkIn .ir) =
        { T.aged W (gotoIdle (.known T.tap) ++ walkIn .ir).length with
          tap := .shiftIr
          ir := T.ir
          shift := (List.range c.irLen).map (W.capture T.captures)
          shifted := 0
          captures := T.captures + 1 } ∧
      T.answers W c (gotoIdle (.known T.tap) ++ walkIn .ir) = [] := by
  rcases ht with ht | ht <;>
    simp [ht, gotoIdle, walkIn, Target.ticked, Target.answers, Target.tick, Target.leave, Target.enter, Target.aged,
      Target.age, Tick.plain, TapState.next]

/-- The walk from an idle state into Shift-DR: the capture is that of the selected register, at the tick that
leaves Capture-DR, and uses up a latched read (R70, R72). -/
theorem Target.walk_dr (W : TargetWorld) (c : Config) (T : Target)
    (ht : T.tap = .testLogicReset ∨ T.tap = .runTestIdle) :
    T.ticked W c (gotoIdle (.known T.tap) ++ walkIn .dr) =
        { T.aged W (gotoIdle (.known T.tap) ++ walkIn .dr).length with
          tap := .shiftDr
          ir := T.ir
          shift := (T.aged W (gotoIdle (.known T.tap) ++ walkIn .dr).length).drCapture W c
          shifted := 0
          captures := T.captures + 1
          read := .none } ∧
      T.answers W c (gotoIdle (.known T.tap) ++ walkIn .dr) = [] := by
  rcases ht with ht | ht <;>
    simp [ht, gotoIdle, walkIn, Target.ticked, Target.answers, Target.tick, Target.leave, Target.enter, Target.aged,
      Target.age, Tick.plain, TapState.next] <;> rfl

theorem Target.updateIr_tap (W : TargetWorld) (c : Config) (T : Target) : (T.updateIr W c).tap = T.tap := by
  unfold Target.updateIr; split <;> rfl

/-- Loading an instruction of the bridge only loads it (R70). -/
theorem Target.updateIr_of_bridge (W : TargetWorld) (c : Config) (T : Target)
    (h : drRole c (T.vector c) ≠ .foreign) : T.updateIr W c = { T with ir := T.vector c } := by
  rw [Target.updateIr, if_neg h]

/-- What the instruction register's path carries in an IR scan, in wire order: first what Capture-IR loaded, which
is open, then the vector. The first bits of it, as many as the vector has, come out, and the rest stays (R134). -/
def Target.irStream (W : TargetWorld) (c : Config) (v : Bits) (T : Target) : Bits :=
  (List.range c.irLen).map (W.capture T.captures) ++ wireOrder c.bitOrder v

/-- The instruction that an IR scan of a vector of any length loads (R134). -/
def Target.scannedIr (W : TargetWorld) (c : Config) (v : Bits) (T : Target) : Bits :=
  wireOrder c.bitOrder ((T.irStream W c v).drop v.length)

/-- An IR scan of any length: Update-IR acts on what stays in the instruction register's path, and the rest
of the stream has come out (R70, R134). -/
theorem Target.scan_ir_any (W : TargetWorld) (c : Config) (v : Bits) (T : Target) (hv : 1 ≤ v.length)
    (hl : 1 ≤ c.irLen) (ht : T.tap = .testLogicReset ∨ T.tap = .runTestIdle) :
    T.ticked W c (scanTicks c.bitOrder .ir (.known T.tap) v) =
        { (Target.updateIr W c
            { T.aged W ((scanTicks c.bitOrder .ir (.known T.tap) v).length - 1) with
              tap := .updateIr
              ir := T.ir
              shift := (T.irStream W c v).drop v.length
              shifted := v.length
              captures := T.captures + 1 }).age W with
          tap := .runTestIdle } ∧
      T.answers W c (scanTicks c.bitOrder .ir (.known T.tap) v) = (T.irStream W c v).take v.length := by
  obtain ⟨w1, w2⟩ := T.walk_ir W c ht
  generalize hA : gotoIdle (.known T.tap) ++ walkIn .ir = A at w1 w2
  have hs : scanTicks c.bitOrder .ir (.known T.tap) v = A ++ (shiftTicks c.bitOrder v ++ walkOut) := by
    rw [scanTicks, hA, List.append_assoc]
  obtain ⟨s1, s2⟩ := Target.shiftTicks_stream W c c.bitOrder .shiftIr (.inl rfl) v (T.ticked W c A) (by rw [w1]) hv
    (by rw [w1]; simpa using hl)
  rw [hs, Target.ticked_append, Target.answers_append, Target.ticked_append, Target.answers_append, w2, s1, s2, w1]
  have hlen : (A ++ (shiftTicks c.bitOrder v ++ walkOut)).length - 1 = A.length + v.length + 1 := by
    simp [shiftTicks, walkOut]; omega
  rw [hlen, Target.aged_with, Target.aged_add W (A.length + v.length), Target.aged_add W A.length]
  constructor
  · generalize (T.aged W A.length).aged W v.length = U
    have h1 : ({ U with
        tap := TapState.shiftIr.next true, ir := T.ir, shift := (T.irStream W c v).drop v.length,
        shifted := v.length, captures := T.captures + 1 } : Target).tick W c true false =
        Target.updateIr W c { U.age W with
          tap := .updateIr, ir := T.ir, shift := (T.irStream W c v).drop v.length, shifted := v.length,
          captures := T.captures + 1 } := rfl
    have h2 : ∀ V : Target, V.tap = .updateIr → V.tick W c false false = { V.age W with tap := .runTestIdle } := by
      intro V hV
      simp [Target.tick, Target.leave, Target.enter, hV, TapState.next]
    simp only [Target.irStream] at h1
    simp only [Target.ticked, walkOut, List.foldl_cons, List.foldl_nil, Tick.plain, Nat.zero_add, Target.irStream]
    rw [h1, h2 _ (by rw [Target.updateIr_tap])]
    rfl
  · simp [Target.answers, walkOut, Tick.plain, Target.irStream]

/-- The instruction after an IR scan of any length (R134). -/
theorem Target.scan_ir_any_ir (W : TargetWorld) (c : Config) (v : Bits) (T : Target) (hv : 1 ≤ v.length)
    (hl : 1 ≤ c.irLen) (ht : T.tap = .testLogicReset ∨ T.tap = .runTestIdle) :
    (T.ticked W c (scanTicks c.bitOrder .ir (.known T.tap) v)).ir = T.scannedIr W c v := by
  rw [(T.scan_ir_any W c v hv hl ht).1]
  simp only [Target.age_ir, Target.updateIr]
  split <;> rfl

/-- Of a vector at least as long as the instruction register, the last `IR_LEN` bits on the wire stay in it, and
nothing else (R134): the high bits under LSB_FIRST, the low bits under MSB_FIRST. -/
theorem Target.scannedIr_of_long (W : TargetWorld) (c : Config) (v : Bits) (T : Target) (h : c.irLen ≤ v.length) :
    T.scannedIr W c v =
      match c.bitOrder with
      | .lsbFirst => v.drop (v.length - c.irLen)
      | .msbFirst => v.take c.irLen := by
  have hd : (T.irStream W c v).drop v.length = (wireOrder c.bitOrder v).drop (v.length - c.irLen) := by
    rw [Target.irStream, List.drop_append, List.drop_of_length_le (by simpa using h)]
    simp
  rw [Target.scannedIr, hd]
  cases c.bitOrder
  · rfl
  · simp only [wireOrder, List.drop_reverse, List.reverse_reverse]
    congr 1
    omega

/-- Of a shorter vector all bits are in the instruction register, and of what Capture-IR loaded the bits that have
not come out (R134). -/
theorem Target.scannedIr_of_short (W : TargetWorld) (c : Config) (v : Bits) (T : Target) (h : v.length ≤ c.irLen) :
    T.scannedIr W c v =
      wireOrder c.bitOrder (((List.range c.irLen).map (W.capture T.captures)).drop v.length ++
        wireOrder c.bitOrder v) := by
  rw [Target.scannedIr, Target.irStream, List.drop_append_of_le_length (by simpa using h)]

/-- The instruction register keeps its length, whatever is scanned (R36). -/
theorem Target.length_scannedIr (W : TargetWorld) (c : Config) (v : Bits) (T : Target) :
    (T.scannedIr W c v).length = c.irLen := by
  simp [Target.scannedIr, Target.irStream]

/-- An IR scan of a bridge code loads it into the instruction register; what comes out of it
is open (R70). -/
theorem Target.scan_ir (W : TargetWorld) (c : Config) (v : Bits) (T : Target) (hv : 1 ≤ v.length)
    (hl : v.length = c.irLen) (hr : drRole c v ≠ .foreign) (ht : T.tap = .testLogicReset ∨ T.tap = .runTestIdle) :
    T.ticked W c (scanTicks c.bitOrder .ir (.known T.tap) v) =
        { T.aged W (scanTicks c.bitOrder .ir (.known T.tap) v).length with
          tap := .runTestIdle
          ir := v
          shift := wireOrder c.bitOrder v
          shifted := v.length
          captures := T.captures + 1 } ∧
      (T.answers W c (scanTicks c.bitOrder .ir (.known T.tap) v)).length = v.length := by
  obtain ⟨h1, h2⟩ := T.scan_ir_any W c v hv (by omega) ht
  have hd : (T.irStream W c v).drop v.length = wireOrder c.bitOrder v := List.drop_left' (by simp [hl])
  obtain ⟨k, hk⟩ : ∃ k, (scanTicks c.bitOrder .ir (.known T.tap) v).length = k + 1 :=
    ⟨_, (Nat.succ_pred_eq_of_pos (by simp [scanTicks, walkIn])).symm⟩
  rw [h1, h2, hd, hk, Nat.add_sub_cancel, Target.updateIr_of_bridge _ _ _ (by simpa [Target.vector] using hr),
    Target.aged_add]
  refine ⟨?_, by simp [Target.irStream, hl]⟩
  simp [Target.vector, Target.aged, Target.age]

theorem Target.write_tap (W : TargetWorld) (T : Target) (a w : Word) : (T.write W a w).tap = T.tap := by
  unfold Target.write; split <;> rfl

theorem Target.startRead_tap (W : TargetWorld) (T : Target) (a : Word) : (T.startRead W a).tap = T.tap := by
  unfold Target.startRead
  split
  · rfl
  · split <;> rfl

/-- What an access leaves of the TAP. -/
theorem Target.startAccess_tap (W : TargetWorld) (c : Config) (T : Target) :
    (T.startAccess W c).tap = T.tap := by
  unfold Target.startAccess
  split
  · exact T.write_tap W _ _
  · exact T.startRead_tap W _
  · split <;> rfl
  · rfl
  · rfl

theorem Target.updateDr_tap (W : TargetWorld) (c : Config) (T : Target) : (T.updateDr W c).tap = T.tap := by
  rw [Target.updateDr, Target.startAccess_tap]
  unfold Target.settle
  split <;> rfl

/-- A DR scan of a vector as long as the selected register: what the register captured comes
out, and Update-DR acts on the vector (R70 to R72). -/
theorem Target.scan_dr (W : TargetWorld) (c : Config) (v : Bits) (T : Target) (hv : 1 ≤ v.length)
    (hl : v.length = Target.drLen W c T.ir) (ht : T.tap = .testLogicReset ∨ T.tap = .runTestIdle) :
    T.ticked W c (scanTicks c.bitOrder .dr (.known T.tap) v) =
        { (Target.updateDr W c
            { T.aged W ((scanTicks c.bitOrder .dr (.known T.tap) v).length - 1) with
              tap := .updateDr
              ir := T.ir
              shift := wireOrder c.bitOrder v
              shifted := v.length
              captures := T.captures + 1
              read := .none }).age W with
          tap := .runTestIdle } ∧
      T.answers W c (scanTicks c.bitOrder .dr (.known T.tap) v) =
        (T.aged W (gotoIdle (.known T.tap) ++ walkIn .dr).length).drCapture W c := by
  obtain ⟨w1, w2⟩ := T.walk_dr W c ht
  generalize hA : gotoIdle (.known T.tap) ++ walkIn .dr = A at w1 w2 ⊢
  have hs : scanTicks c.bitOrder .dr (.known T.tap) v = A ++ (shiftTicks c.bitOrder v ++ walkOut) := by
    rw [scanTicks, hA, List.append_assoc]
  have hcap : ((T.aged W A.length).drCapture W c).length = v.length := by
    simp [Target.drCapture, hl, (T.aged_frame W A.length).2.1]
  obtain ⟨s1, s2⟩ := Target.shiftTicks_ticked W c c.bitOrder .shiftDr (.inr rfl) v (T.ticked W c A) (by rw [w1]) hv
    (by rw [w1]; exact hcap)
  rw [hs, Target.ticked_append, Target.answers_append, Target.ticked_append, Target.answers_append, w2, s1, s2, w1]
  have hlen : (A ++ (shiftTicks c.bitOrder v ++ walkOut)).length - 1 = A.length + v.length + 1 := by
    simp [shiftTicks, walkOut]; omega
  rw [hlen, Target.aged_with_read,
    Target.aged_add W (A.length + v.length), Target.aged_add W A.length]
  constructor
  · generalize (T.aged W A.length).aged W v.length = U
    have h1 : ({ U with
        tap := TapState.shiftDr.next true, ir := T.ir, shift := wireOrder c.bitOrder v, shifted := v.length,
        captures := T.captures + 1, read := .none } : Target).tick W c true false =
        Target.updateDr W c { U.age W with
          tap := .updateDr, ir := T.ir, shift := wireOrder c.bitOrder v, shifted := v.length, captures := T.captures + 1,
          read := .none } := rfl
    have h2 : ∀ V : Target, V.tap = .updateDr → V.tick W c false false = { V.age W with tap := .runTestIdle } := by
      intro V hV
      simp [Target.tick, Target.leave, Target.enter, hV, TapState.next]
    simp only [Target.ticked, walkOut, List.foldl_cons, List.foldl_nil, Tick.plain, Nat.zero_add]
    rw [h1, h2 _ (by rw [Target.updateDr_tap])]
    rfl
  · simp [Target.answers, walkOut, Tick.plain]

/-! ## Updates -/

/-- A scan as long as the register is what Update-DR transfers and acts on. -/
theorem Target.updateDr_of_length (W : TargetWorld) (c : Config) (T : Target)
    (h : T.shifted = Target.drLen W c T.ir) :
    T.updateDr W c = Target.startAccess W c { T with drOut := (T.ir, T.vector c) :: T.drOut } := by
  rw [Target.updateDr, Target.settle, if_pos h]

/-- The write port's role, where the ports have codes of their own. -/
theorem drRole_irAxiWrite {c : Config} (h : c.irAxiRead ≠ c.irAxiWrite) : drRole c c.irAxiWrite = .write := by
  simp [drRole, h]

/-- The read port's role, where the ports have codes of their own. -/
theorem drRole_irAxiRead {c : Config} (h : c.irAxiRead ≠ c.irAxiWrite) : drRole c c.irAxiRead = .read := by
  simp [drRole, h]

/-- The data instruction's role, where its code is its own. -/
theorem drRole_irAxiReadData {c : Config} {d : Bits} (hd : c.irAxiReadData = some d) (hw : d ≠ c.irAxiWrite)
    (hr : d ≠ c.irAxiRead) : drRole c d = .readData := by
  simp [drRole, hd, hw, hr]

/-- A port's code is the bridge's own, even where it is that of both ports. -/
theorem drRole_irAxiWrite_ne_foreign (c : Config) : drRole c c.irAxiWrite ≠ .foreign := by
  unfold drRole
  simp only [if_true]
  split <;> simp

theorem drRole_irAxiRead_ne_foreign (c : Config) : drRole c c.irAxiRead ≠ .foreign := by
  unfold drRole
  split <;> simp

/-- A read that meets the contract's premises latches the word at its address (R72). -/
theorem Target.startRead_of_readable (W : TargetWorld) (T : Target) (addr : Word) (h : W.readable addr = true)
    (hc : T.coreHalted = true) (hw : T.writes = []) :
    T.startRead W addr =
      { T with
        accesses := T.accesses ++ [.read addr]
        read := .latched W.readTicks (Target.load W T.mem addr) } := by
  rw [Target.startRead, if_pos (by simp [h, hc, hw])]

/-- A write, whatever its address, is one access (R71). -/
theorem Target.write_accesses (W : TargetWorld) (T : Target) (addr word : Word) :
    (T.write W addr word).accesses = T.accesses ++ [.write addr word] := by
  unfold Target.write
  split <;> rfl

/-- What any effect that no rule describes leaves alone. -/
theorem Target.havoc_frame (W : TargetWorld) (T : Target) :
    (T.havoc W).tap = T.tap ∧ (T.havoc W).ir = T.ir ∧ (T.havoc W).shift = T.shift ∧
      (T.havoc W).shifted = T.shifted ∧ (T.havoc W).captures = T.captures ∧
      (T.havoc W).coreHalted = T.coreHalted ∧ (T.havoc W).retrieving = T.retrieving :=
  ⟨rfl, rfl, rfl, rfl, rfl, rfl, rfl⟩

end Sys2Proof.Machine
end

