-- ==== Sys2Proof/Machine/Assembler.lean ====
section
/-!
DEFINITION. The assembly syntax (spec/30_encoding.md R98, R99), one line at a time, as characters. What
R98 leaves open of it (white space, upper-case hexadecimal) is notes/assumptions/15.md.
-/
namespace Sys2Proof.Machine

/-- A line of assembly: one command, or one of the host's pseudo-operations. -/
inductive AsmLine where
  | command (i : Instr)
  | patchOffset (base : Word) (words : List Word)
  | patch (words : List Word)
  | verify (base : Word) (words : List Word)
  deriving DecidableEq, Repr

/-- The opening brace of a word list. -/
def openBrace : Char := Char.ofNat 123

/-- The closing brace of a word list. -/
def closeBrace : Char := Char.ofNat 125

/-- Characters that are a token of their own. -/
def isMark (ch : Char) : Bool := ch == ',' || ch == openBrace || ch == closeBrace

/-- The tokens of a line; `word` is the token being read, its last character first. -/
def tokens (word : List Char) (line : List Char) : List (List Char) :=
  match line with
  | [] => if word.isEmpty then [] else [word.reverse]
  | ch :: rest =>
    if ch == ' ' || ch == '\t' || isMark ch then
      (if word.isEmpty then [] else [word.reverse]) ++ (if isMark ch then [[ch]] else []) ++ tokens [] rest
    else tokens (ch :: word) rest

/-- The value of a digit. -/
def digitValue (ch : Char) : Option Nat :=
  if '0' ≤ ch && ch ≤ '9' then some (ch.toNat - 48)
  else if 'a' ≤ ch && ch ≤ 'f' then some (ch.toNat - 87)
  else if 'A' ≤ ch && ch ≤ 'F' then some (ch.toNat - 55)
  else none

/-- The value of digits in a base. -/
def digitsValue (base acc : Nat) (digits : List Char) : Option Nat :=
  match digits with
  | [] => some acc
  | ch :: rest =>
    match digitValue ch with
    | none => none
    | some d => if d < base then digitsValue base (base * acc + d) rest else none

/-- A number, "decimal or `0x` hexadecimal" (R98). -/
def number (token : List Char) : Option Nat :=
  match token with
  | [] => none
  | '0' :: 'x' :: [] => none
  | '0' :: 'x' :: digits => digitsValue 16 0 digits
  | digits => digitsValue 10 0 digits

/-- A 32-bit unsigned number (R98). -/
def wordNumber (token : List Char) : Option Word :=
  match number token with
  | none => none
  | some x => if x < 2 ^ 32 then some (BitVec.ofNat 32 x) else none

/-- The words of a list after its opening brace or a comma, at least one, up to the closing brace. -/
def wordItems (ts : List (List Char)) : Option (List Word) :=
  match ts with
  | t :: sep :: rest =>
    match wordNumber t with
    | none => none
    | some w =>
      if sep = [','] then (wordItems rest).map (w :: ·)
      else if sep = [closeBrace] && rest.isEmpty then some [w]
      else none
  | _ => none

/-- A word list between its braces, after the opening one (R99). The list of no words is a list; a comma
stands between two words only. -/
def wordList (ts : List (List Char)) : Option (List Word) :=
  if ts = [[closeBrace]] then some [] else wordItems ts

/-- A SHIFT's operands: `1 <= n <= MAX_SHIFT_BITS` and `value < 2^n` (R98). -/
def shiftOperands (c : Config) (n value : List Char) : Option Bits :=
  match number n, number value with
  | some n, some x => if shiftLengthOk c n && x < 2 ^ n then some (Bits.ofNat n x) else none
  | _, _ => none

/-- A line of assembly from its tokens (R98, R99). -/
def asmTokens (c : Config) (ts : List (List Char)) : Option AsmLine :=
  match ts with
  | [name] =>
    if name = ['t', 'a', 'p', '_', 'r', 'e', 's', 'e', 't'] then some (.command .tapReset)
    else if name = ['r', 'e', 'l', 'e', 'a', 's', 'e'] then some (.command .release)
    else none
  | [name, a] =>
    if name = ['a', 'x', 'i', '_', 'r', 'e', 'a', 'd'] then (wordNumber a).map fun w => .command (.axiRead w)
    else none
  | name :: a :: b :: rest =>
    if name = ['p', 'a', 't', 'c', 'h'] && a = [openBrace] then (wordList (b :: rest)).map .patch
    else if name = ['v', 'e', 'r', 'i', 'f', 'y'] && a = [openBrace] then
      (wordList (b :: rest)).map (.verify 0)
    else if b ≠ [','] then none
    else match rest with
      | [v] =>
        if name = ['s', 'h', 'i', 'f', 't', '_', 'i', 'r'] then
          (shiftOperands c a v).map fun v => .command (.shiftIr v)
        else if name = ['s', 'h', 'i', 'f', 't', '_', 'd', 'r'] then
          (shiftOperands c a v).map fun v => .command (.shiftDr v)
        else if name = ['a', 'x', 'i', '_', 'w', 'r', 'i', 't', 'e'] then
          match wordNumber a, wordNumber v with
          | some addr, some w => some (.command (.axiWrite addr w))
          | _, _ => none
        else none
      | brace :: list =>
        if brace ≠ [openBrace] then none
        else if name = ['p', 'a', 't', 'c', 'h', '_', 'o', 'f', 'f', 's', 'e', 't'] then
          match wordNumber a, wordList list with
          | some base, some ws => some (.patchOffset base ws)
          | _, _ => none
        else if name = ['v', 'e', 'r', 'i', 'f', 'y'] then
          match wordNumber a, wordList list with
          | some base, some ws => some (.verify base ws)
          | _, _ => none
        else none
      | [] => none
  | [] => none

/-- A line of assembly, its comment from `;` on left out (R98). -/
def asmLine (c : Config) (line : List Char) : Option AsmLine :=
  asmTokens c (tokens [] (line.takeWhile fun ch => ch != ';'))

end Sys2Proof.Machine
end

