-- ==== Sys2Proof/Tests/Slice0.lean ====
section
/-!
SUPPORT. Tests. Every expected value is the spec's: the vectors V-… and programs P… of
spec/95_test_vectors.md, or the rule named. Witnesses for the statements stand at the end.
-/
namespace Sys2Proof.Tests

open Sys2Proof.Machine

/-! ## Helpers -/

/-- An EMUL instance's parameters, with this buffer. -/
def emulCfg (buffer : List Byte) : Config := { Config.default with backend := .emul, emulInit := buffer }

/-- The parameter set EX with the capture check of V-AW-8. -/
def checkCfg : Config :=
  { Config.default with irCaptureCheck := some (Bits.ofNat 8 0x01, Bits.ofNat 8 0x03) }

/-- A pin layer that is ready and never fails. -/
def good (tdo : List Bool) : PinAnswers := { ready := true, failing := [], tdo := tdo }

/-- A session in a TAP state, about to meet these answers. -/
def session (c : Config) (tap : TapState) (a : PinAnswers) : State :=
  { State.powerOn c with
    claimed := true, tap := .known tap, tck := .low, tms := .low, tdi := .low, answers := [a] }

/-- The next state, if there is one. -/
def next? (o : Host.Outcome State Fault Refusal) : Option State :=
  match o with
  | .next t => some t
  | .fault _ => none
  | .refused _ => none

/-- Levels written as digits. -/
def levelsOf (l : List Nat) : List Bool := l.map fun x => x == 1

/-! ## WellFormed -/

/-- R86 clause 3: `LEN = 0`. -/
theorem test_wf_refuses_empty_shift_ir : Instr.wf Config.default (.shiftIr []) = false := by decide
theorem test_wf_refuses_empty_shift_dr : Instr.wf Config.default (.shiftDr []) = false := by decide

/-- R86 clause 3: `LEN = 65 > MAX_SHIFT_BITS`. -/
theorem test_wf_refuses_long_shift_ir : Instr.wf Config.default (.shiftIr (Bits.zero 65)) = false := by decide
theorem test_wf_refuses_long_shift_dr : Instr.wf Config.default (.shiftDr (Bits.zero 65)) = false := by decide

/-- R10: the parameters' own checks. -/
theorem test_config_default_valid : Config.default.valid = true := by decide
theorem test_config_refuses_four_resets : { Config.default with resetTcks := 4 }.valid = false := by decide
theorem test_config_refuses_short_code : { Config.default with irAxiWrite := [true] }.valid = false := by decide
theorem test_config_refuses_check_outside_mask :
    { Config.default with irCaptureCheck := some (Bits.ofNat 8 4, Bits.ofNat 8 3) }.valid = false := by decide
theorem test_config_refuses_overlapping_fields :
    { Config.default with axiWrAddrLsb := 31 }.valid = false := by decide
theorem test_config_refuses_buffer_on_hw : { Config.default with emulInit := [0] }.valid = false := by decide

/-! ## Decoding: words written out from R81 to R84 (V-ENC-1, V-ENC-2, V-SIR-4, V-SDR-3, V-DEC-1) -/

theorem test_decode_tap_reset : decode Config.default [0x00000001] = .command .tapReset 1 := by decide
theorem test_decode_shift_ir : decode Config.default [0x00000802, 0x00000002] =
    .command (.shiftIr (levelsOf [0, 1, 0, 0, 0, 0, 0, 0])) 2 := by decide
theorem test_decode_shift_dr : decode Config.default [0x00002103, 0x00000001, 0x00000001] =
    .command (.shiftDr (levelsOf [1, 0, 0, 0, 0, 0, 0, 0, 0, 0, 0, 0, 0, 0, 0, 0, 0, 0, 0, 0, 0, 0, 0, 0, 0, 0,
      0, 0, 0, 0, 0, 0, 1])) 3 := by decide
theorem test_decode_axi_write : decode Config.default [0x00000004, 0x00001000, 0xDEADBEEF] =
    .command (.axiWrite 0x1000 0xDEADBEEF) 3 := by decide
theorem test_decode_axi_read : decode Config.default [0x00000005, 0x00001000] =
    .command (.axiRead 0x1000) 2 := by decide
theorem test_decode_release : decode Config.default [0x00000006] = .command .release 1 := by decide

theorem test_decode_reserved_opcodes : (List.range 16).map (fun x => decode Config.default [BitVec.ofNat 32 x]) =
    [.illegal .reservedOpcode 1, .command .tapReset 1, .illegal .shiftLength 1, .illegal .shiftLength 1,
      .incomplete, .incomplete, .command .release 1] ++
      List.replicate 9 (.illegal .reservedOpcode 1) := by decide
theorem test_decode_reserved_bits : decode Config.default [0x00000011] = .illegal .reservedBits 1 ∧
    decode Config.default [0x00010005] = .illegal .reservedBits 1 := by decide
theorem test_decode_length_not_zero : decode Config.default [0x00000101] = .illegal .lengthNotZero 1 := by decide
theorem test_decode_too_long : decode Config.default [0x00004102, 6] = .illegal .shiftLength 1 := by decide
theorem test_decode_operand_bits : decode Config.default [0x00002103, 1, 3] = .illegal .operandBits 3 := by decide
theorem test_encode_shift_dr_64 : encode (.shiftDr (Bits.ofNat 64 0x0123456789ABCDEF)) =
    [0x00004003, 0x89ABCDEF, 0x01234567] := by decide

/-- The table's words, and the step that runs them right after reset. -/
theorem test_table_words : decodeTableWord 32 1 = some .tapReset ∧
    decodeTableWord 32 0x102 = some (.shiftIr [false]) ∧ decodeTableWord 32 0x103 = some (.shiftDr [false]) ∧
    decodeTableWord 32 4 = some (.axiWrite 0 0) ∧ decodeTableWord 32 5 = some (.axiRead 0) ∧
    decodeTableWord 32 6 = some .release ∧ decodeTableWord 32 2 = none := by decide
theorem test_fetch_word_runs : step (State.reset.withFetchWord 32 4) =
    exec (.axiWrite 0 0) { State.reset with lock := some 0 } := by rfl

/-! ## The TAP state machine -/

/-- R111, all 32 pairs, as the numbers of R110: the column for TMS = 0, then for TMS = 1. -/
theorem test_next_table :
    let all : List TapState := [.testLogicReset, .runTestIdle, .selectDrScan, .captureDr, .shiftDr, .exit1Dr,
      .pauseDr, .exit2Dr, .updateDr, .selectIrScan, .captureIr, .shiftIr, .exit1Ir, .pauseIr, .exit2Ir, .updateIr]
    all.map (fun t => all.idxOf (t.next false)) = [1, 1, 3, 4, 4, 6, 6, 4, 1, 10, 11, 11, 13, 13, 11, 1] ∧
    all.map (fun t => all.idxOf (t.next true)) = [0, 2, 9, 5, 5, 8, 7, 8, 2, 0, 12, 12, 15, 14, 15, 2] := by
  decide

/-! ## Commands, one step each -/

/-- V-RST-1. -/
theorem test_tap_reset_from_power_on :
    (next? (exec .tapReset { State.powerOn Config.default with answers := [good []] })).map (fun t =>
      (t.claimed, t.tap, [t.tck, t.tms, t.tdi], t.resp, t.trace.length)) =
    some (true, .known .testLogicReset, [.low, .high, .low], some ⟨.ok, .none⟩, 16) := by decide

/-- V-RST-4: `ok_3` fails. -/
theorem test_tap_reset_pin_failure :
    (next? (exec .tapReset { State.powerOn Config.default with answers := [⟨true, [3], []⟩] })).map (fun t =>
      (t.claimed, t.tap, [t.tck, t.tms, t.tdi], t.resp, t.trace.length)) =
    some (true, .unknown, [.low, .high, .z], some ⟨.ioError, .none⟩, 3) := by decide

/-- V-SIR-1, its wire and its capture. -/
theorem test_shift_ir :
    (next? (exec (.shiftIr (Bits.ofNat 8 0x02)) (session Config.default .runTestIdle
      (good (levelsOf [1, 0, 0, 0, 0, 0, 0, 0]))))).map (fun t =>
      (t.tap, t.resp, wireTms t.trace, wireTdi t.trace, t.trace.length)) =
    some (.known .runTestIdle, some ⟨.ok, .capture (Bits.ofNat 8 1)⟩,
      levelsOf [1, 1, 0, 0, 0, 0, 0, 0, 0, 0, 0, 1, 1, 0],
      levelsOf [0, 0, 0, 0, 0, 1, 0, 0, 0, 0, 0, 0, 0, 0], 50) := by decide

/-- V-SIR-5. -/
theorem test_shift_ir_without_session :
    (next? (exec (.shiftIr (Bits.ofNat 8 2)) State.reset)).map (fun t => (t.resp, t.trace)) =
      some (some ⟨.deviceNotReady, .none⟩, []) := by decide

/-- V-SDR-2: MSB_FIRST. -/
theorem test_shift_dr_msb_first :
    (next? (exec (.shiftDr (Bits.ofNat 8 0x01)) (session { Config.default with bitOrder := .msbFirst } .runTestIdle
      (good (levelsOf [1, 0, 0, 0, 0, 0, 0, 0]))))).map (fun t => (t.resp, wireTdi t.trace)) =
    some (some ⟨.ok, .capture (Bits.ofNat 8 0x80)⟩, levelsOf [0, 0, 0, 0, 0, 0, 0, 0, 0, 0, 1, 0, 0]) := by decide

/-- V-SDR-5: `ok_10` fails, from Test-Logic-Reset. -/
theorem test_shift_dr_pin_failure :
    (next? (exec (.shiftDr (Bits.ofNat 8 0xFF)) (session Config.default .testLogicReset ⟨true, [10], []⟩))).map
      (fun t => (t.tap, t.claimed, t.resp, [t.tck, t.tms, t.tdi], t.trace.length)) =
    some (.unknown, true, some ⟨.ioError, .none⟩, [.low, .low, .low], 10) := by decide

/-- V-AW-6. -/
theorem test_axi_write_emul :
    (next? (exec (.axiWrite 4 0xDEADBEEF) (State.powerOn (emulCfg (List.replicate 8 0))))).map (fun t =>
      (t.resp, (List.range 8).map (Memory.read t.cfg t.emul))) =
    some (some ⟨.ok, .none⟩, [0, 0, 0, 0, 0xEF, 0xBE, 0xAD, 0xDE]) := by decide

/-- V-AW-8: the capture check fails after 14 ticks. -/
theorem test_axi_write_protocol_error :
    (next? (exec (.axiWrite 0x1000 0xDEADBEEF) (session checkCfg .runTestIdle
      (good (Bits.zero 8))))).map (fun t => (t.tap, t.resp, (wireTms t.trace).length)) =
    some (.known .runTestIdle, some ⟨.protocolError, .none⟩, 14) := by decide

/-- V-AR-2, BE. -/
theorem test_axi_read_emul_big_endian :
    (next? (exec (.axiRead 4) (State.powerOn { emulCfg [0x78, 0x56, 0x34, 0x12, 0xEF, 0xBE, 0xAD, 0xDE] with
      byteOrder := .be }))).map State.resp = some (some ⟨.ok, .word 0xEFBEADDE⟩) := by decide

/-- V-AR-3 and V-AR-4. -/
theorem test_axi_read_emul_errors :
    (next? (exec (.axiRead 2) (State.powerOn (emulCfg (List.replicate 8 0))))).map State.resp =
      some (some ⟨.alignmentError, .none⟩) ∧
    (next? (exec (.axiRead 8) (State.powerOn (emulCfg (List.replicate 8 0))))).map State.resp =
      some (some ⟨.ioError, .none⟩) := by decide

/-- V-REL-3: `ok_2` fails. -/
theorem test_release_failed_line :
    (next? (exec .release (session Config.default .testLogicReset ⟨true, [2], []⟩))).map (fun t =>
      (t.resp, t.claimed, t.tap, [t.tck, t.tms, t.tdi])) =
    some (some ⟨.ok, .none⟩, false, .unknown, [.z, .low, .z]) := by decide

/-- V-REL-2. -/
theorem test_release_without_session :
    (next? (exec .release State.reset)).map (fun t => (t.resp, t.trace)) =
      some (some ⟨.ok, .none⟩, []) := by decide

/-! ## Payloads, the host macros, the assembler -/

/-- V-AW-1 and V-AW-2. -/
theorem test_write_payload : (wrPayload Config.default 0x1000 0xDEADBEEF).toNat = 0x00001000DEADBEEF ∧
    (wrPayload { Config.default with addrPhaseForm := .word } 0x1000 0xDEADBEEF).toNat = 0x00000400DEADBEEF ∧
    addrPhase .word 0xFFFFFFFC = 0x3FFFFFFF := by decide

/-- V-HM-4. -/
theorem test_patch_stops_at_index_two :
    let p := patch [1, 2, 3] (State.powerOn (emulCfg (List.replicate 8 0)))
    p.1 = .patchError 2 .ioError ∧
      (List.range 8).map (Memory.read p.2.cfg p.2.emul) = [1, 0, 0, 0, 2, 0, 0, 0] := by decide

/-- V-HM-2: the verify from base 0. -/
theorem test_verify_first_word_mismatch :
    let p := patchOffset [0x11111111, 0x22222222] 8 (State.powerOn (emulCfg (List.replicate 16 0)))
    (verify [0x11111111, 0x22222222] 0 p.2).1 = .verifyMismatch 0 0x11111111 0 := by decide

/-- V-HM-1: the addresses wrap. -/
theorem test_patch_addresses_wrap : (List.range 4).map (patchAddr 0xFFFFFFF8) = [0xFFFFFFF8, 0xFFFFFFFC, 0, 4] := by
  decide

/-- R98 and R99, on the lines of V-ENC-1. -/
theorem test_assembler :
    asmLine Config.default ['s', 'h', 'i', 'f', 't', '_', 'i', 'r', ' ', '8', ',', ' ', '0', 'x', '0', '2', ';', 'a'] =
      some (.command (.shiftIr (Bits.ofNat 8 2))) ∧
    asmLine Config.default ['s', 'h', 'i', 'f', 't', '_', 'i', 'r', ' ', '1', ',', ' ', '2'] = none ∧
    asmLine Config.default ['p', 'a', 't', 'c', 'h', ' ', openBrace, '1', ',', '2', closeBrace] =
      some (.patch [1, 2]) ∧
    asmLine Config.default ['p', 'a', 't', 'c', 'h', ' ', openBrace, '1', ',', closeBrace] = none ∧
    asmLine Config.default ['p', 'a', 't', 'c', 'h', ' ', openBrace, closeBrace] = some (.patch []) := by decide

/-! ## The host interface -/

/-- V-LOCK-1: `h2` is held while `h1` holds the lock, and `h1`'s command goes first. -/
theorem test_lock_holds_the_second_host :
    let s := { State.reset with
      lock := some 1, hostQueue := [.acquire 2 false, .present 1 [6], .release 1] }
    (next? (step s)).map (fun t => (t.lock, t.hostQueue, t.port)) =
      some (some 1, [.acquire 2 false, .release 1], [6]) := by decide

/-- V-ENC-2, last row: an incomplete command waits. -/
theorem test_incomplete_command_waits :
    next? (step { State.reset with lock := some 1, presenter := some 1, port := [4] }) =
      some { State.reset with lock := some 1, presenter := some 1, port := [4] } := by rfl

/-- V-DEC-1: the words after an illegal header begin the next command. -/
theorem test_resynchronisation :
    (next? (step { State.reset with lock := some 1, presenter := some 1, port := [0, 1] })).map (fun t =>
      (t.resp, t.refused, t.port, t.fetch)) =
    some (some ⟨.illegalCommand, .none⟩, true, [1], .command .tapReset 1) := by decide


/-! ## Witnesses: a concrete state and operands that meet a statement's hypotheses

`perform i s` is the state that `exec i s` answers. -/

/-- A live `HW` session of the default instance. -/
def live : State := session Config.default .runTestIdle (good (Bits.ofNat 8 1))

/-- An `EMUL` instance with a buffer of 8 bytes. -/
def emul8 : State := State.powerOn (emulCfg (List.replicate 8 0))

/-- A session whose next command meets a failure at its primitive `k`. -/
def failingAt (k : Nat) : State := session Config.default .runTestIdle { ready := true, failing := [k], tdo := [] }

/-- Power-on with the pins ready and no failure. -/
def fresh : State := { State.reset with answers := [good [], good []] }

/-- A session that meets no pin failure in two commands. -/
def live2 (tdo : List Bool) : State := { session Config.default .runTestIdle (good []) with answers := [good [], good tdo] }

theorem exec_perform (i : Instr) (s : State) : exec i s = .next (perform i s) := by cases i <;> rfl

theorem check_passes {c : Config} {cap : Bits} (h : captureOk c.irCaptureCheck cap = true) :
    Spec.checkPasses c cap := by
  unfold Spec.checkPasses
  unfold captureOk at h
  split <;> simp_all

theorem check_fails {c : Config} {cap : Bits} (h : captureOk c.irCaptureCheck cap = false) :
    ¬ Spec.checkPasses c cap := by
  unfold Spec.checkPasses
  unfold captureOk at h
  split <;> simp_all

theorem live_liveSession : live.LiveSession := ⟨rfl, Or.inr rfl, rfl, fun _ => rfl⟩

theorem witness_PowerOnStateIsTheListedOne : 1 < (emulCfg [7, 8]).emulLen := by decide

/-- Each clause: the header of AXI_WRITE without its operands on the port, and another host's acquire held. -/
theorem witness_PowerOnWaitsForACommand :
    let s := { State.reset with
      lock := some 1, presenter := some 1, port := [0x00000004, 8], hostQueue := [.acquire 2 false] }
    s.fetch = .incomplete ∧ pickAction s [] s.hostQueue = none := by decide

theorem parametersOk_default : Spec.parametersOk Config.default := by
  simp only [Spec.parametersOk, Config.default]
  refine ⟨by decide, by decide, by decide, rfl, rfl, nofun, nofun, by decide, by decide, by decide, by decide,
    fun j h => ?_, by decide, by decide, fun _ => trivial⟩
  omega

/-- Each clause: the default parameters, and those with one tick too few of reset. -/
theorem witness_ConstructedInstancesMeetTheInvariant :
    Spec.parametersOk Config.default ∧ ¬ Spec.parametersOk { Config.default with resetTcks := 4 } :=
  ⟨parametersOk_default, fun h => absurd h.1 (by decide)⟩

theorem witness_StepKeepsTheInvariant :
    let s := { live with lock := some 1, presenter := some 1, port := [0x00000802, 2] }
    s.Inv ∧ step s = .next (perform (.shiftIr (Bits.ofNat 8 2)) (s.takeWords 2)) := by
  exact ⟨by decide, rfl⟩

theorem witness_BuffersThatReadAlikeAreEqual :
    Memory.wf (emulCfg [0, 0]) [(1, 5)] ∧
      ∀ a, Memory.read (emulCfg [0, 0]) [(1, 5)] a = Memory.read (emulCfg [0, 0]) [(1, 5)] a :=
  ⟨by decide, fun _ => rfl⟩

theorem witness_StepRunsTheDecodedCommand :
    let s := { State.reset with lock := some 1, presenter := some 1, port := [6, 1] }
    s.presenter = some 1 ∧ s.lock = some 1 ∧ decode s.cfg s.port = .command .release 1 := by decide

/-- A step that sets the mark, and one that meets it set. -/
theorem witness_NoStepClearsTheRefusedMark :
    let s := { State.reset with lock := some 1, presenter := some 1, port := [7, 1] }
    let t := (s.takeWords 1).illegalCommand
    step s = .next t ∧ t.refused = true ∧ step t = .next (perform .tapReset (t.takeWords 1)) := ⟨rfl, rfl, rfl⟩

theorem witness_NothingWritesAParameter : step fresh = .next fresh := rfl

/-- Each clause: an invalid header; a header of three words with none, and with all of them. -/
theorem witness_HeaderFixesTheLength :
    ¬ Spec.headerValid Config.default 0x00000007 ∧ Spec.headerValid Config.default 0x00000004 ∧
      ([5] : List Word).length + 1 < Spec.commandWords 0x00000004 ∧
      Spec.commandWords 0x00000004 ≤ ([5, 6] : List Word).length + 1 := by
  simp [Spec.headerValid, Spec.commandWords, Spec.op, Spec.len]

/-- At `MAX_SHIFT_BITS` and at 1 bit. -/
theorem witness_ShiftOperandLayout :
    decode Config.default [0x00004003, 0x89ABCDEF, 0x01234567] =
      .command (.shiftDr (Bits.ofNat 64 0x0123456789ABCDEF)) 3 ∧
    decode Config.default [0x00000102, 1] = .command (.shiftIr [true]) 2 := by decide

theorem witness_OperandValidity :
    Spec.headerValid Config.default 0x00002103 ∧ Spec.op 0x00002103 = 3 ∧
      Spec.ceilWords (Spec.len 0x00002103) ≤ ([1, 3] : List Word).length := by
  simp [Spec.headerValid, Spec.ceilWords, Spec.op, Spec.len, Config.default]

/-- Each kind of illegal command, and a step at one. -/
theorem witness_IllegalCommandsAreRefused :
    ¬ Spec.headerValid Config.default 0x00000011 ∧ Spec.op 0x00000000 = 0 ∧ 7 ≤ Spec.op 0x0000000F ∧
      (Spec.headerValid Config.default 0x00002103 ∧ Spec.op 0x00002103 = 3 ∧
        Spec.ceilWords (Spec.len 0x00002103) ≤ ([1, 2] : List Word).length ∧
        Spec.len 0x00002103 ≤ 33 ∧ 33 < 32 * Spec.ceilWords (Spec.len 0x00002103) ∧
        Spec.wordsBit [1, 2] 33 = true) ∧
      (let s := { State.reset with lock := some 1, presenter := some 1, port := [0x00000011, 1] };
        s.presenter = some 1 ∧ s.lock = some 1 ∧ decode s.cfg s.port = .illegal .reservedBits 1) := by
  refine ⟨?_, ?_, ?_, ?_, by decide⟩ <;>
    simp [Spec.headerValid, Spec.ceilWords, Spec.op, Spec.len, Spec.wordsBit, Config.default]

theorem witness_DecodingUndoesEncoding :
    Config.default.valid = true ∧ (Instr.shiftDr (Bits.ofNat 64 5)).wf Config.default = true := by decide

theorem witness_EncodingUndoesDecoding :
    Config.default.valid = true ∧ decode Config.default [5, 0x1000, 9] = .command (.axiRead 0x1000) 2 := by decide

/-- A response that is OK and one that is not. -/
theorem witness_ResponseDataFollowsTheCommand :
    exec (.shiftIr (Bits.ofNat 8 2)) live = .next (perform (.shiftIr (Bits.ofNat 8 2)) live) ∧
      (perform (.shiftIr (Bits.ofNat 8 2)) live).status = .ok ∧
      (perform (.shiftIr (Bits.ofNat 8 2)) State.reset).status = .deviceNotReady := ⟨rfl, by decide, by decide⟩

theorem witness_StatusWordsCarryTheCodes :
    exec .release live = .next (perform .release live) ∧
      (perform .release live).resp = some { status := .ok, data := .none } := ⟨rfl, by decide⟩

theorem witness_FiveTicksReachTestLogicReset : 5 ≤ 5 := Nat.le_refl 5

theorem witness_ScanWithoutPinFailure :
    live.begin.st.NoPinFault ∧ live.begin.st.IdleTap ∧ 1 ≤ (Bits.ofNat 1 1).length :=
  ⟨fun _ => rfl, Or.inr rfl, by decide⟩

theorem witness_WireSequences :
    live.begin.st.NoPinFault ∧ live.begin.st.IdleTap ∧ 1 ≤ (Bits.ofNat 1 1).length ∧
      live.begin.st.tap = .known .runTestIdle := ⟨fun _ => rfl, Or.inr rfl, by decide, rfl⟩

theorem witness_NoCommandEntersPauseOrExit2 :
    (failingAt 30).cfg.valid = true ∧ (failingAt 30).TapOk ∧
      exec (.shiftDr (Bits.ofNat 8 1)) (failingAt 30) = .next (perform (.shiftDr (Bits.ofNat 8 1)) (failingAt 30)) ∧
      (Mirror.known .runTestIdle).visits
        (wireTms (newEvents (failingAt 30) (perform (.shiftDr (Bits.ofNat 8 1)) (failingAt 30)))) ≠ [] :=
  ⟨by decide, by decide, rfl, by decide⟩

theorem witness_OutputsFollowThePrimitives :
    exec .tapReset fresh = .next (perform .tapReset fresh) ∧
      newEvents fresh (perform .tapReset fresh) ≠ [] := ⟨rfl, by decide⟩

theorem witness_TapResetCompletes :
    fresh.cfg.valid = true ∧ fresh.pinsReady = true ∧ fresh.NoPinFault := ⟨by decide, rfl, fun _ => rfl⟩

/-- Each clause: pins not ready; a failure at the last primitive of a claimed TAP_RESET; two in a row. -/
theorem witness_TapResetErrorsAndIdempotence :
    { fresh with answers := [{ ready := false, failing := [], tdo := [] }] }.pinsReady = false ∧
      ((failingAt 15).pinsReady = true ∧
        exec .tapReset (failingAt 15) = .next (perform .tapReset (failingAt 15)) ∧
        (1 ≤ 15 ∧ 15 ≤ (if (failingAt 15).claimed then 0 else 1) + 3 * (failingAt 15).cfg.resetTcks ∧
          (failingAt 15).okAt 15 = false)) ∧
      (fresh.cfg.valid = true ∧ fresh.pinsReady = true ∧ fresh.NoPinFault ∧
        exec .tapReset fresh = .next (perform .tapReset fresh) ∧
        (perform .tapReset fresh).pinsReady = true ∧ (perform .tapReset fresh).NoPinFault ∧
        exec .tapReset (perform .tapReset fresh) = .next (perform .tapReset (perform .tapReset fresh))) :=
  ⟨by decide, ⟨by decide, rfl, by decide⟩, by decide, rfl, fun _ => rfl, rfl, by decide, fun _ => rfl, rfl⟩

/-- The shortest and the longest length. -/
theorem witness_ShiftsCompleteWithTheirCapture :
    live.LiveSession ∧ (1 ≤ (Bits.ofNat 1 1).length ∧ (Bits.ofNat 1 1).length ≤ live.cfg.maxShiftBits) ∧
      (1 ≤ (Bits.ofNat 64 1).length ∧ (Bits.ofNat 64 1).length ≤ live.cfg.maxShiftBits) :=
  ⟨live_liveSession, by decide, by decide⟩

theorem witness_OnlyTapResetOpensASession :
    Instr.release ≠ .tapReset ∧ exec .release State.reset = .next (perform .release State.reset) ∧
      State.reset.tap = .unknown ∧ State.reset.claimed = false := ⟨by decide, rfl, rfl, rfl⟩

/-- Each clause: not ready; ready, and answered. -/
theorem witness_ReadinessIsCheckedFirst :
    (Instr.axiRead 4).wf State.reset.cfg = true ∧ Spec.notReady (.axiRead 4) State.reset ∧
      ((Instr.axiRead 4).wf live.cfg = true ∧ ¬ Spec.notReady (.axiRead 4) live ∧
        exec (.axiRead 4) live = .next (perform (.axiRead 4) live) ∧
        Spec.needsSession live.cfg (.axiRead 4) ∧ live.TapOk) := by
  refine ⟨rfl, ?_, rfl, ?_, rfl, rfl, by decide⟩
  · right
    exact ⟨rfl, fun h => absurd h.2.1 (by decide)⟩
  · intro h
    rcases h with h | h
    · exact absurd h.1 (by decide)
    · exact h.2 ⟨rfl, rfl, by decide⟩

/-- A session and an `EMUL` instance, at the address offsets 1 and 3. -/
theorem witness_MisalignedAddressesAreRefused :
    (0x1001 : Word).toNat % 4 ≠ 0 ∧ (0x1003 : Word).toNat % 4 ≠ 0 ∧ emul8.cfg.backend = .emul ∧
      (live.pinsReady = true ∧ live.claimed = true ∧ live.tap ≠ .unknown) := by decide

/-- Each clause: lengths 0 and 65; no session; misaligned and out of range; a failure in the first scan, at its
first and at its last primitive. -/
theorem witness_ErrorPriority :
    ¬(1 ≤ (Bits.zero 0).length ∧ (Bits.zero 0).length ≤ live.cfg.maxShiftBits) ∧
      ¬(1 ≤ (Bits.zero 65).length ∧ (Bits.zero 65).length ≤ live.cfg.maxShiftBits) ∧
      (fresh.cfg.backend = .hw ∧ ¬(fresh.pinsReady = true ∧ fresh.claimed = true ∧ fresh.tap ≠ .unknown)) ∧
      (emul8.cfg.backend = .emul ∧ (5 : Word).toNat % 4 ≠ 0 ∧ emul8.cfg.emulLen < (5 : Word).toNat + 4) ∧
      (∀ k ∈ [1, 50], (failingAt k).cfg.valid = true ∧ (failingAt k).cfg.backend = .hw ∧
        (8 : Word).toNat % 4 = 0 ∧ (failingAt k).IdleTap ∧ (failingAt k).claimed = true ∧
        (failingAt k).pinsReady = true ∧ 1 ≤ k ∧
        k ≤ 3 * ((failingAt k).cfg.irLen + 6 +
          (if (failingAt k).tap = .known .testLogicReset then 1 else 0)) + (failingAt k).cfg.irLen ∧
        (failingAt k).okAt k = false) ∧
      exec (.axiRead 8) (failingAt 50) = .next (perform (.axiRead 8) (failingAt 50)) :=
  ⟨by decide, by decide, by decide, by decide, by decide, rfl⟩

theorem witness_PinFailureEndsTheCommand :
    Instr.tapReset ≠ .release ∧
      exec .tapReset (failingAt 2) = .next (perform .tapReset (failingAt 2)) ∧
      newEvents (failingAt 2) (perform .tapReset (failingAt 2)) =
        [{ prim := .set .tms true, ok := true }] ++ { prim := .set .tdi false, ok := false } :: [] :=
  ⟨by decide, rfl, by decide⟩

/-- Each clause: the access port's scan fails the check; it passes and the data instruction's scan fails. -/
theorem witness_CaptureCheckEndsTheCommand :
    (let s := session checkCfg .runTestIdle (good (Bits.zero 8));
      s.cfg.valid = true ∧ s.cfg.backend = .hw ∧ s.LiveSession ∧ (0x1000 : Word).toNat % 4 = 0 ∧
        ¬ Spec.checkPasses s.cfg (captured s 1 s.cfg.irLen)) ∧
    (let s := session { checkCfg with irAxiReadData := some (Bits.ofNat 8 3) } .runTestIdle
        (good (Bits.ofNat 8 1 ++ Bits.zero 40));
      s.cfg.valid = true ∧ s.cfg.backend = .hw ∧ s.LiveSession ∧ (0x1000 : Word).toNat % 4 = 0 ∧
        s.cfg.irAxiReadData = some (Bits.ofNat 8 3) ∧
        Spec.checkPasses s.cfg (captured s 1 s.cfg.irLen) ∧
        ¬ Spec.checkPasses s.cfg (captured s (s.cfg.irLen + s.cfg.axiRdDrLen + 1) s.cfg.irLen)) :=
  ⟨⟨by decide, rfl, ⟨rfl, Or.inr rfl, rfl, fun _ => rfl⟩, by decide, check_fails (by decide)⟩,
    by decide, rfl, ⟨rfl, Or.inr rfl, rfl, fun _ => rfl⟩, by decide, rfl, check_passes (by decide),
    check_fails (by decide)⟩

/-- Each clause: an alignment error, a protocol error, and an I/O error of either kind. -/
theorem witness_StateLeftByEachError :
    (live.cfg.valid = true ∧ live.TapOk ∧ exec (.axiRead 2) live = .next (perform (.axiRead 2) live) ∧
      (perform (.axiRead 2) live).resp.map Response.status = some .alignmentError) ∧
    (let s := session checkCfg .runTestIdle (good (Bits.zero 8));
      s.cfg.valid = true ∧ s.TapOk ∧ (perform (.axiRead 4) s).resp.map Response.status = some .protocolError) ∧
    ((perform .tapReset (failingAt 2)).resp.map Response.status = some .ioError ∧
      newEvents (failingAt 2) (perform .tapReset (failingAt 2)) ≠ []) ∧
    (emul8.cfg.valid = true ∧ emul8.TapOk ∧
      (perform (.axiRead 8) emul8).resp.map Response.status = some .ioError ∧
      newEvents emul8 (perform (.axiRead 8) emul8) = []) :=
  ⟨⟨by decide, by decide, rfl, by decide⟩, by decide, by decide, by decide⟩

theorem witness_AddressPhaseIsInvertible :
    (0xFFFFFFFC : Word).toNat % 4 = 0 ∧
      addrPhase .word 0xFFFFFFFC = addrPhase .word 0xFFFFFFFC := ⟨by decide, rfl⟩

theorem witness_PayloadLayouts : Config.default.valid = true ∧ 31 < 32 := by decide

theorem witness_WritePayloadsAreDistinct :
    Config.default.valid = true ∧ (8 : Word).toNat % 4 = 0 ∧
      wrPayload Config.default 8 5 = wrPayload Config.default 8 5 := ⟨by decide, by decide, rfl⟩

theorem witness_AxiWriteCompletesOnHardware :
    let s := session checkCfg .testLogicReset (good (Bits.ofNat 8 1))
    s.cfg.valid = true ∧ s.cfg.backend = .hw ∧ s.LiveSession ∧ (0xFFFFFFFC : Word).toNat % 4 = 0 ∧
      Spec.checkPasses s.cfg (captured s 1 s.cfg.irLen) :=
  ⟨by decide, rfl, ⟨rfl, Or.inl rfl, rfl, fun _ => rfl⟩, by decide, check_passes (by decide)⟩

/-- Each clause: without a data instruction, and with one. -/
theorem witness_AxiReadCompletesOnHardware :
    (live.cfg.valid = true ∧ live.cfg.backend = .hw ∧ live.LiveSession ∧ (0 : Word).toNat % 4 = 0 ∧
      Spec.checkPasses live.cfg (captured live 1 live.cfg.irLen) ∧ live.cfg.irAxiReadData = none) ∧
    (let s := session { checkCfg with irAxiReadData := some (Bits.ofNat 8 3) } .runTestIdle
        (good (Bits.ofNat 8 1 ++ Bits.zero 32 ++ Bits.ofNat 8 1));
      s.cfg.valid = true ∧ s.cfg.backend = .hw ∧ s.LiveSession ∧
        Spec.checkPasses s.cfg (captured s 1 s.cfg.irLen) ∧ s.cfg.irAxiReadData = some (Bits.ofNat 8 3) ∧
        Spec.checkPasses s.cfg (captured s (s.cfg.irLen + s.cfg.axiRdDrLen + 1) s.cfg.irLen)) :=
  ⟨⟨by decide, rfl, live_liveSession, by decide, trivial, rfl⟩,
    by decide, rfl, ⟨rfl, Or.inr rfl, rfl, fun _ => rfl⟩, check_passes (by decide), rfl, check_passes (by decide)⟩

/-- The last word of the buffer, and the first address past it. -/
theorem witness_EmulationBufferAccesses :
    emul8.cfg.backend = .emul ∧ (4 : Word).toNat % 4 = 0 ∧ (4 : Word).toNat + 4 ≤ emul8.cfg.emulLen ∧
      (8 : Word).toNat % 4 = 0 ∧ emul8.cfg.emulLen < (8 : Word).toNat + 4 := by decide

theorem witness_WordBytesFollowTheByteOrder : 3 < 4 ∧ 7 < 8 := by decide

theorem witness_EmulationReadsTheLastWrite :
    emul8.cfg.backend = .emul ∧ (4 : Word).toNat % 4 = 0 ∧ (0 : Word).toNat % 4 = 0 ∧
      (4 : Word).toNat + 4 ≤ emul8.cfg.emulLen ∧ (0 : Word).toNat + 4 ≤ emul8.cfg.emulLen ∧
      exec (.axiWrite 4 9) emul8 = .next (perform (.axiWrite 4 9) emul8) ∧
      exec (.axiRead 0) (perform (.axiWrite 4 9) emul8) =
        .next (perform (.axiRead 0) (perform (.axiWrite 4 9) emul8)) :=
  ⟨rfl, by decide, by decide, by decide, by decide, rfl, rfl⟩

/-- Each clause: TAP_RESET in a session and without one; a SHIFT that answers OK; RELEASE; `EMUL`. -/
theorem witness_TickCounts :
    (live.cfg.valid = true ∧ live.pinsReady = true ∧ live.NoPinFault ∧
      exec .tapReset live = .next (perform .tapReset live)) ∧
    (fresh.cfg.valid = true ∧ fresh.pinsReady = true ∧ fresh.NoPinFault ∧
      exec .tapReset fresh = .next (perform .tapReset fresh)) ∧
    (live.LiveSession ∧ live.claimed = true) ∧
    (live.cfg.backend = .hw ∧ exec (.axiRead 4) live = .next (perform (.axiRead 4) live) ∧
      (perform (.axiRead 4) live).resp.map Response.status = some .ok) ∧
    exec .release live = .next (perform .release live) ∧
    (emul8.cfg.backend = .emul ∧ exec (.axiRead 4) emul8 = .next (perform (.axiRead 4) emul8)) :=
  ⟨⟨by decide, rfl, fun _ => rfl, rfl⟩, ⟨by decide, rfl, fun _ => rfl, rfl⟩, ⟨live_liveSession, rfl⟩,
    ⟨rfl, rfl, rfl⟩, rfl, rfl, rfl⟩

/-- Each clause: the lock free and held, the wait unbounded and bounded, a release, and a held command. -/
theorem witness_TheChipLock :
    (let s := { State.reset with hostQueue := [.acquire 1 false] };
      s.fetch = .incomplete ∧ s.hostQueue = [.acquire 1 false] ∧ s.lock = none) ∧
    (let s := { State.reset with hostQueue := [.acquire 1 false], lock := some 2 };
      s.fetch = .incomplete ∧ s.lock ≠ none ∧ s.cfg.lockWait = .unbounded) ∧
    (let s := { State.powerOn { Config.default with lockWait := .bounded } with
        hostQueue := [.acquire 1 true], lock := some 2 };
      s.fetch = .incomplete ∧ s.hostQueue = [.acquire 1 true] ∧ s.lock ≠ none ∧ s.cfg.lockWait = .bounded) ∧
    (let s := { State.reset with hostQueue := [.release 1], lock := some 1 };
      s.fetch = .incomplete ∧ s.hostQueue = [.release 1] ∧ s.lock = some 1) ∧
    (let s := { State.reset with hostQueue := [.present 1 [6]], lock := some 2 };
      s.fetch = .incomplete ∧ s.hostQueue = [.present 1 [6]] ∧ s.lock ≠ some 1) := by decide

theorem witness_PresentedCommandsRun :
    let s := { State.reset with lock := some 1, hostQueue := [.present 1 (encode (.axiRead 4))] }
    s.cfg.valid = true ∧ (Instr.axiRead 4).wf s.cfg = true ∧ s.lock = some 1 ∧ s.port = [] ∧
      s.presenter = none ∧ s.hostQueue = [.present 1 (encode (.axiRead 4))] := by decide

/-- Each clause: a step that answers a command, and one that takes the lock away. -/
theorem witness_OnlyTheLockHolderIsServed :
    (let s := { State.reset with lock := some 1, presenter := some 1, port := [6] };
      step s = .next (perform .release (s.takeWords 1)) ∧ (perform .release (s.takeWords 1)).resp ≠ s.resp) ∧
    (let s := { State.reset with lock := some 1, hostQueue := [.release 1] };
      let t := { State.reset with lockAnswer := some (1, .released) };
      step s = .next t ∧ s.lock = some 1 ∧ t.lock ≠ some 1) := ⟨⟨rfl, by decide⟩, rfl, rfl, by decide⟩

/-- The fault is met: host 1 releases a lock that host 2 holds. -/
theorem witness_OnlyAWrongReleaseFaults :
    step { State.reset with lock := some 2, hostQueue := [.release 1] } = .fault .releaseWithoutLock := rfl

theorem witness_PatchAddresses :
    (2 : Word).toNat % 4 ≠ 0 ∧ emul8.cfg.backend = .emul ∧
      (live.pinsReady = true ∧ live.claimed = true ∧ live.tap ≠ .unknown) := by decide

/-- Each clause: both macros return Ok; a patch that fails at its third word; a verify that mismatches at its
second word, and one that fails at its third. -/
theorem witness_MacrosStopAtTheFirstFailure :
    (patchOffset [1, 2] 0 emul8).1 = .ok ∧ (patchOffset [1, 2, 3] 0 emul8).1 = .patchError 2 .ioError ∧
      (verify [0, 0] 0 emul8).1 = .ok ∧ (verify [0, 7] 0 emul8).1 = .verifyMismatch 1 7 0 ∧
      (verify [0, 0, 0] 0 emul8).1 = .verifyError 2 .ioError := by decide

/-- Each clause at its boundary: a patch step whose third command fails and is its last, an `init` that issues no
command, one that issues TAP_RESET, and one that finds the lock held and gives up. -/
theorem witness_LoaderStepsAreTheMacros :
    ((LoaderStep.patchOffset [1, 2, 3, 4] 0).nextCommand [(.ok, 0), (.ok, 0)] = some (.axiWrite 8 3) ∧
      (LoaderStep.patchOffset [1, 2, 3, 4] 0).nextCommand [(.ok, 0), (.ok, 0), (.ioError, 0)] = none ∧
      (LoaderStep.verify [1, 2] 0).nextCommand [(.ok, 7)] = none ∧
      (LoaderStep.patchOffset [1, 2, 3, 4] 0).run .granted emul8 = (patchOffset [1, 2, 3, 4] 0 emul8).2) ∧
    ((LoaderStep.init false true false).nextAction 1 .granted [] = none ∧
      (LoaderStep.init false true false).closing 1 .granted = [.release 1] ∧
      (LoaderStep.init false true true).nextAction 1 .granted [] = some (.present 1 [1])) ∧
    (let s := { State.powerOn { Config.default with lockWait := .bounded } with
        hostQueue := (LoaderStep.init true true true).opening 1, lock := some 2 };
      s.fetch = .incomplete ∧ s.hostQueue = (LoaderStep.init true true true).opening 1 ∧ s.lock ≠ none ∧
        s.cfg.lockWait = .bounded) := by decide

theorem witness_PatchThenVerifySucceeds :
    emul8.cfg.backend = .emul ∧ (0 : Word).toNat % 4 = 0 ∧
      (0 : Word).toNat + 4 * ([1, 2] : List Word).length ≤ emul8.cfg.emulLen ∧
      emul8.cfg.emulLen ≤ 2 ^ 32 := by decide

/-- A mismatch at word 1, the word before it as patched. -/
theorem witness_VerifyReportsTheFirstMismatch :
    emul8.cfg.backend = .emul ∧ (0 : Word).toNat % 4 = 0 ∧
      (0 : Word).toNat + 4 * ([0, 7] : List Word).length ≤ emul8.cfg.emulLen ∧ emul8.cfg.emulLen ≤ 2 ^ 32 ∧
      ([0, 7] : List Word)[1]? = some 7 ∧
      (∀ j, j < 1 → ([0, 7] : List Word)[j]? = some (memRead emul8.cfg emul8.emul (patchAddr 0 j))) ∧
      memRead emul8.cfg emul8.emul (patchAddr 0 1) ≠ 7 := by decide

theorem witness_PatchLeavesTheBlobInTheBuffer :
    let blob : List Byte := [1, 2, 3, 4, 5, 6, 7, 8]
    emul8.cfg.backend = .emul ∧ bootcodeWords emul8.cfg.byteOrder blob = some [0x04030201, 0x08070605] ∧
      blob.length ≤ emul8.cfg.emulLen ∧ emul8.cfg.emulLen ≤ 2 ^ 32 ∧
      (patch [0x04030201, 0x08070605] emul8).1 = .ok := by decide

/-- Each clause: five bytes and eight. -/
theorem witness_BootcodeWords :
    ([1, 2, 3, 4, 5] : List Byte).length % 4 ≠ 0 ∧ ([1, 2, 3, 4, 5, 6, 7, 8] : List Byte).length % 4 = 0 := by
  decide

/-! ### Witnesses for the target contract -/

/-- An effect that changes nothing. -/
def noEffect : OpenEffect where
  accesses := []
  stores := []
  pending := []
  latch := none
  drOut := []
  word := 0
  vector := []
  residue := { tap := .pauseDr, ir := [], shift := [], shifted := 0 }

/-- A target whose accesses complete at once, with memory everywhere. -/
def quickWorld : TargetWorld where
  capture := fun _ j => j == 0
  content := fun _ => 0x5A5A5A5A
  backed := fun _ => true
  sideEffectFree := fun _ => true
  drLen := fun _ => 1
  resetIr := Bits.zero 8
  readTicks := 0
  writeTicks := 0
  effect := fun _ => noEffect

/-- A target in Run-Test/Idle with nothing in flight. -/
def idleTarget : Target where
  tap := .runTestIdle
  ir := Bits.zero 8
  shift := []
  shifted := 0
  drOut := []
  captures := 0
  draws := 0
  coreHalted := true
  aborted := false
  mem := []
  writes := []
  read := .none
  retrieving := false
  accesses := []

/-- R160, R185: with one code for both ports, an AXI_WRITE that answers PROTOCOL_ERROR leaves the old word, in a
world whose open effects write. -/
theorem test_protocol_error_leaves_the_old_word :
    let c := { checkCfg with irAxiRead := checkCfg.irAxiWrite }
    let s := session c .runTestIdle (good (Bits.zero 8))
    let t := perform (.axiWrite 8 5) s
    let W := { quickWorld with effect := fun _ => { noEffect with stores := [(8, 7)] } }
    t.status = .protocolError ∧ (idleTarget.after W s t).mem = [] := by decide +kernel

/-- R58, R73, R185: the same under `MSB_FIRST`; and a write that answers OK there writes its word. -/
theorem test_msb_first_target :
    let c := { checkCfg with bitOrder := .msbFirst }
    let s := session c .runTestIdle (good (Bits.zero 8))
    let t := perform (.axiWrite 8 5) s
    let u := session { c with irCaptureCheck := none } .runTestIdle (good (Bits.zero 8))
    let W := { quickWorld with effect := fun _ => { noEffect with stores := [(8, 7)] } }
    t.status = .protocolError ∧ (idleTarget.after W s t).mem = [] ∧
      (idleTarget.after W u (perform (.axiWrite 8 5) u)).mem = [(8, 5)] := by decide +kernel

/-- R134: of 12 bits scanned into an instruction register of 8, the last 8 on the wire stay: the high ones under
`LSB_FIRST`, the low ones under `MSB_FIRST`; and the capture comes out, then the first 4. -/
theorem test_shift_ir_longer_than_the_register :
    let c := Config.default
    let s := session c .runTestIdle (good [])
    let u := session { c with bitOrder := .msbFirst } .runTestIdle (good [])
    let r := idleTarget.reaction quickWorld s (perform (.shiftIr (Bits.ofNat 12 0x3A5)) s)
    r.1.ir = Bits.ofNat 8 0x3A ∧ r.2 = Bits.ofNat 8 1 ++ Bits.ofNat 4 5 ∧
      (idleTarget.after quickWorld u (perform (.shiftIr (Bits.ofNat 12 0x3A5)) u)).ir = Bits.ofNat 8 0xA5 := by
  decide +kernel

/-- R134: 4 bits scanned into an instruction register of 8 leave the half of its capture that was away from TDO,
and push it towards TDO: under `LSB_FIRST` the high half of 0x60 below the 4 bits, under `MSB_FIRST` the low half
of 0x06 above them. -/
theorem test_shift_ir_shorter_than_the_register :
    let c := Config.default
    let W := { quickWorld with capture := fun _ j => j == 5 || j == 6 }
    let s := session c .runTestIdle (good [])
    let u := session { c with bitOrder := .msbFirst } .runTestIdle (good [])
    (idleTarget.after W s (perform (.shiftIr (Bits.ofNat 4 3)) s)).ir = Bits.ofNat 8 0x36 ∧
      (idleTarget.after W u (perform (.shiftIr (Bits.ofNat 4 3)) u)).ir = Bits.ofNat 8 0x63 := by
  decide +kernel

theorem witness_MirrorTracksTheTarget :
    live.cfg.valid = true ∧ live.TapOk ∧ live.tap = .known idleTarget.tap ∧
      exec .tapReset live = .next (perform .tapReset live) := ⟨by decide, by decide, rfl, rfl⟩

theorem witness_HardwareWriteCausesOneWrite :
    live.cfg.valid = true ∧ live.cfg.backend = .hw ∧ live.LiveSession ∧
      live.tap = .known idleTarget.tap ∧ live.cfg.irAxiRead ≠ live.cfg.irAxiWrite ∧ (8 : Word).toNat % 4 = 0 ∧
      exec (.axiWrite 8 5) live = .next (perform (.axiWrite 8 5) live) ∧
      (perform (.axiWrite 8 5) live).resp = some { status := .ok, data := .none } ∧
      idleTarget.coreHalted = true ∧ quickWorld.backed 8 = true ∧ idleTarget.writes = [] ∧
      quickWorld.writeTicks ≤ live.cfg.writeWaitTcks :=
  ⟨by decide, rfl, live_liveSession, rfl, by decide, by decide, exec_perform _ _, by decide +kernel, rfl, rfl,
    rfl, by decide⟩

/-- The levels the target presents in a read of a word: its instruction capture, an open capture, the word. -/
def readLevels (w : Word) : List Bool := Bits.ofNat 8 1 ++ Bits.ofNat 32 1 ++ Bits.ofWord w

/-- A session whose next command's TDO levels are those of the idle target in a read. -/
def readingSession : State := session Config.default .runTestIdle (good (readLevels 0x5A5A5A5A))

theorem witness_HardwareReadReturnsTheTargetWord :
    readingSession.cfg.valid = true ∧ readingSession.cfg.backend = .hw ∧
      readingSession.LiveSession ∧
      readingSession.tap = .known idleTarget.tap ∧
      readingSession.cfg.irAxiRead ≠ readingSession.cfg.irAxiWrite ∧
      readingSession.cfg.irAxiReadData = none ∧ idleTarget.coreHalted = true ∧ quickWorld.backed 8 = true ∧
      quickWorld.sideEffectFree 8 = true ∧ idleTarget.writes = [] ∧ (8 : Word).toNat % 4 = 0 ∧
      exec (.axiRead 8) readingSession = .next (perform (.axiRead 8) readingSession) ∧
      idleTarget.drives quickWorld readingSession (perform (.axiRead 8) readingSession) ∧
      (perform (.axiRead 8) readingSession).resp = some { status := .ok, data := .word 0x5A5A5A5A } ∧
      quickWorld.readTicks ≤ 1 + readingSession.cfg.readWaitTcks + 0 + 3 :=
  ⟨by decide, rfl, ⟨rfl, Or.inr rfl, rfl, fun _ => rfl⟩, rfl, by decide, rfl, rfl, rfl, rfl, rfl, by decide,
    exec_perform _ _, by decide +kernel, by decide +kernel, by decide⟩

/-- The idle target after the write of the next witness. -/
def writtenTarget : Target :=
  { idleTarget with
    ir := Bits.ofNat 8 1
    shift := Bits.ofNat 64 0x0000000800000005
    shifted := 64
    drOut := [(Bits.ofNat 8 1, Bits.ofNat 64 0x0000000800000005)]
    captures := 2
    mem := [(8, 5)]
    accesses := [.write 8 5] }

/-- A session whose next command is met without failure, and the one after it with the levels of the target
that the write leaves. -/
def writingSession : State := live2 (readLevels 5)

theorem written_answers :
    (perform (.axiWrite 8 5) writingSession).answers = writingSession.answers.tail := by decide +kernel

theorem written_noPinFault : (perform (.axiWrite 8 5) writingSession).NoPinFault := by
  intro k
  rw [State.okAt, written_answers]
  rfl

theorem written_target :
    idleTarget.after quickWorld writingSession (perform (.axiWrite 8 5) writingSession) = writtenTarget := by
  decide +kernel

theorem written_drives :
    writtenTarget.drives quickWorld (perform (.axiWrite 8 5) writingSession)
      (perform (.axiRead 8) (perform (.axiWrite 8 5) writingSession)) := by
  simp only [Target.drives, State.tdoAt, written_answers]
  decide +kernel

theorem witness_HardwareReadsTheLastWrite :
    let s := writingSession
    let t := perform (.axiWrite 8 5) s
    s.cfg.valid = true ∧ s.cfg.backend = .hw ∧ s.LiveSession ∧
      s.tap = .known idleTarget.tap ∧ s.cfg.irAxiRead ≠ s.cfg.irAxiWrite ∧ s.cfg.irAxiReadData = none ∧
      idleTarget.coreHalted = true ∧ quickWorld.backed 8 = true ∧ quickWorld.sideEffectFree 8 = true ∧
      idleTarget.writes = [] ∧ (8 : Word).toNat % 4 = 0 ∧ quickWorld.writeTicks ≤ s.cfg.writeWaitTcks ∧
      quickWorld.readTicks ≤ s.cfg.readWaitTcks ∧ exec (.axiWrite 8 5) s = .next t ∧
      t.resp = some { status := .ok, data := .none } ∧ t.pinsReady = true ∧ t.NoPinFault ∧
      exec (.axiRead 8) t = .next (perform (.axiRead 8) t) ∧
      (idleTarget.after quickWorld s t).drives quickWorld t (perform (.axiRead 8) t) ∧
      (perform (.axiRead 8) t).resp = some { status := .ok, data := .word 5 } :=
  ⟨by decide, rfl, ⟨rfl, Or.inr rfl, rfl, fun _ => rfl⟩, rfl, by decide, rfl, rfl, rfl, rfl, rfl, by decide,
    by decide, by decide, exec_perform _ _, by decide +kernel, by decide +kernel, written_noPinFault,
    exec_perform _ _, written_target ▸ written_drives, by decide +kernel⟩

theorem witness_AFailedHardwareWriteMayLeaveTheOldOrTheNewWord :
    let s := failingAt 10
    s.cfg.valid = true ∧ s.cfg.backend = .hw ∧ idleTarget.writes = [] ∧
      exec (.axiWrite 8 5) s = .next (perform (.axiWrite 8 5) s) ∧
      (perform (.axiWrite 8 5) s).resp = some { status := .ioError, data := .none } :=
  ⟨by decide, rfl, rfl, exec_perform _ _, by decide⟩

theorem witness_ResetAfterAPinFailureMayWriteAnyWord :
    let s := { failingAt 10 with answers := [{ ready := true, failing := [10], tdo := [] }, good []] }
    let t := perform (.shiftDr (Bits.ofNat 8 1)) s
    s.cfg.valid = true ∧ s.cfg.backend = .hw ∧ idleTarget.coreHalted = true ∧ idleTarget.writes = [] ∧
      exec (.shiftDr (Bits.ofNat 8 1)) s = .next t ∧ t.resp = some { status := .ioError, data := .none } ∧
      t.pinsReady = true ∧ t.NoPinFault ∧ exec .tapReset t = .next (perform .tapReset t) :=
  ⟨by decide, rfl, rfl, rfl, rfl, by decide, rfl, fun _ => rfl, rfl⟩

end Sys2Proof.Tests
end

section
/-!
PROOFS of the family 10_state: the power-on state (spec/10_state.md R40), and the mark `s.refused` (R29).
-/
namespace Sys2Proof.Machine

/-! ## The power-on state -/

/-- A buffer that nothing has written reads as `EMUL_INIT` (R31, R40). -/
theorem Memory.read_nil (c : Config) (a : Nat) : Memory.read c [] a = initByte c a := rfl

/-- Inside the buffer, the byte of `EMUL_INIT` is the parameter's own entry. -/
theorem getElem?_emulInit {c : Config} {a : Nat} (h : a < c.emulLen) : c.emulInit[a]? = some (initByte c a) := by
  have hl : a < c.emulInit.length := h
  rw [List.getElem?_eq_getElem hl, initByte, List.getD_eq_getElem _ _ hl]

/-- Settles O1: the fields are those of the definition, and the buffer, which lists no byte yet, reads as
`EMUL_INIT`. -/
theorem powerOnStateIsTheListedOne : Obligations.PowerOnStateIsTheListedOne := by
  intro c
  refine ⟨rfl, rfl, rfl, rfl, rfl, rfl, rfl, rfl, rfl, rfl, fun a ha => ?_⟩
  have hread : Memory.read c (State.powerOn c).emul a = initByte c a := Memory.read_nil c a
  rw [hread, getElem?_emulInit ha]

/-! ## What each command does to the mark `s.refused` -/

theorem State.Keeps.refused_eq {s t : State} (h : s.Keeps t) : t.refused = s.refused := by rw [h]

/-- A command that is performed over the pins ends with the mark as it found it, however it ends. -/
theorem Drive.Sound.finish_refused {s : State} {d : Drive} (h : d.Sound s.begin) (data : State → RespData) :
    (d.finish data).refused = s.refused := by
  have hk : s.Keeps d.run.st := h.1
  cases d with
  | going r => exact hk.refused_eq
  | ended e r => exact hk.refused_eq

theorem State.tapReset_refused (s : State) : s.tapReset.refused = s.refused := by
  unfold State.tapReset
  split
  · exact (tapResetDrive_sound s).finish_refused _
  · rfl

/-- A raw scan sets the mark exactly when its length is not admitted (R205). -/
theorem State.rawShift_refused (s : State) (kind : ScanKind) (v : Bits) :
    (s.rawShift kind v).refused = (s.refused || !shiftLengthOk s.cfg v.length) := by
  unfold State.rawShift
  cases shiftLengthOk s.cfg v.length with
  | false => simp
  | true =>
    rw [Bool.not_true, Bool.or_false, if_neg Bool.false_ne_true]
    split
    · exact (scan_sound kind v s.begin).finish_refused _
    · rfl

theorem State.emulWrite_refused (s : State) (addr word : Word) : (s.emulWrite addr word).refused = s.refused := by
  unfold State.emulWrite
  split_ifs <;> rfl

theorem State.hwWrite_refused (s : State) (addr word : Word) : (s.hwWrite addr word).refused = s.refused := by
  unfold State.hwWrite
  split_ifs
  · rfl
  · rfl
  · exact (writeScans_sound addr word s.begin).finish_refused _

theorem State.emulRead_refused (s : State) (addr : Word) : (s.emulRead addr).refused = s.refused := by
  unfold State.emulRead
  split_ifs <;> rfl

theorem State.hwRead_refused (s : State) (addr : Word) : (s.hwRead addr).refused = s.refused := by
  unfold State.hwRead
  split_ifs
  · rfl
  · rfl
  · exact (readScans_sound addr s.begin).finish_refused _

theorem State.release_refused (s : State) : s.release.refused = s.refused := by
  obtain ⟨-, -, -, -, -, href, -⟩ := release_frame s
  exact href

/-- `exec` sets the mark exactly for a command without an encoding, and clears it for none (R29, R95). -/
theorem exec_refused {i : Instr} {s t : State} (h : exec i s = .next t) :
    t.refused = (s.refused || !i.wf s.cfg) := by
  cases i with
  | tapReset => cases h; simp [Instr.wf, s.tapReset_refused]
  | shiftIr v => cases h; exact s.rawShift_refused .ir v
  | shiftDr v => cases h; exact s.rawShift_refused .dr v
  | axiWrite addr word =>
    cases h
    cases s.cfg.backend <;> simp [Instr.wf, s.emulWrite_refused, s.hwWrite_refused]
  | axiRead addr =>
    cases h
    cases s.cfg.backend <;> simp [Instr.wf, s.emulRead_refused, s.hwRead_refused]
  | release => cases h; simp [Instr.wf, s.release_refused]

/-- No host's action touches the mark (R221). -/
theorem HostAction.take_refused {a : HostAction} {s t : State} (h : a.take s = .next t) :
    t.refused = s.refused := by
  cases a with
  | acquire g givesUp =>
    cases h
    unfold State.acquireLock
    split <;> rfl
  | release g =>
    simp only [HostAction.take, State.releaseLock] at h
    split at h
    · cases h; rfl
    · cases h
  | present g words => cases h; rfl

/-! ## What a step does to the mark -/

/-- A command that the decoder answers is well formed, so performing it leaves the mark alone (R86, R88). -/
theorem exec_fetched_refused {s t : State} {i : Instr} {n : Nat} (hf : s.fetch = .command i n)
    (h : exec i (s.takeWords n) = .next t) : t.refused = s.refused := by
  obtain ⟨-, hd⟩ := s.fetch_eq_command hf
  have hwf : i.wf (s.takeWords n).cfg = true := decode_command_wf hd
  rw [exec_refused h, hwf, State.takeWords_refused, Bool.not_true, Bool.or_false]

/-- Settles O7, by what a step can do: refusing the words on the port sets the mark, and performing a
command, waiting and a host's action leave it alone. -/
theorem noStepClearsTheRefusedMark : Obligations.NoStepClearsTheRefusedMark := by
  intro s t h
  rcases step_cases s with ⟨i, n, hf, hs⟩ | ⟨why, n, hf, hs⟩ | ⟨hf, hs⟩ | ⟨hf, a, pre, post, -, -, hs⟩
  · rw [hs] at h
    simp [hf, exec_fetched_refused hf h]
  · cases hs.symm.trans h
    simp [hf]
  · cases hs.symm.trans h
    simp [hf]
  · rw [hs] at h
    simp [hf, HostAction.take_refused h]

end Sys2Proof.Machine
end

section
/-!
PROOFS of the family 20_memory: the accesses of the emulation buffer (spec/20_memory.md R55, R60).
-/
namespace Sys2Proof.Machine

/-! ## The checks of an access -/

/-- The alignment that the model tests on the low two bits is that of the address as a number (R57). -/
theorem aligned_iff {addr : Word} : aligned addr = true ↔ addr.toNat % 4 = 0 := by
  have hlow : (addr.extractLsb' 0 2).toNat = addr.toNat % 4 := by simp [BitVec.extractLsb'_toNat]
  rw [aligned, beq_iff_eq, ← BitVec.toNat_inj, hlow]
  rfl

theorem inBuffer_iff {c : Config} {addr : Word} : inBuffer c addr = true ↔ addr.toNat + 4 ≤ c.emulLen :=
  decide_eq_true_iff

/-- The range check fails exactly when the word ends past the buffer (R60). -/
theorem inBuffer_eq_false_iff {c : Config} {addr : Word} :
    inBuffer c addr = false ↔ c.emulLen < addr.toNat + 4 := by
  rw [← Bool.not_eq_true, inBuffer_iff, not_le]

/-! ## The word of an address -/

/-- The bytes of a word that is read are the buffer's, in `BYTE_ORDER` (R55). -/
theorem wordByte_memRead (c : Config) (m : Memory) (addr : Word) {k : Nat} (hk : k < 4) :
    wordByte c.byteOrder (memRead c m addr) k = Memory.read c m (addr.toNat + k) := by
  obtain ⟨h0, h1, h2, h3⟩ := wordByte_wordOfBytes c.byteOrder (Memory.read c m addr.toNat)
    (Memory.read c m (addr.toNat + 1)) (Memory.read c m (addr.toNat + 2)) (Memory.read c m (addr.toNat + 3))
  match k, hk with
  | 0, _ => exact h0
  | 1, _ => exact h1
  | 2, _ => exact h2
  | 3, _ => exact h3

/-- The bytes of a word that was written are the word's (R55). -/
theorem Memory.read_memWrite_same (c : Config) (m : Memory) (addr v : Word) {k : Nat} (hk : k < 4) :
    Memory.read c (memWrite c m addr v) (addr.toNat + k) = wordByte c.byteOrder v k := by
  rw [Memory.read_memWrite, if_pos ⟨by omega, by omega⟩, Nat.add_sub_cancel_left]

/-- A word write leaves every byte that is not one of its four. -/
theorem Memory.read_memWrite_of_outside (c : Config) (m : Memory) (addr v : Word) {a : Nat}
    (ha : a < addr.toNat ∨ addr.toNat + 4 ≤ a) :
    Memory.read c (memWrite c m addr v) a = Memory.read c m a := by
  rw [Memory.read_memWrite, if_neg (by omega)]

/-! ## AXI_READ and AXI_WRITE under `EMUL`, past the alignment check -/

theorem exec_axiRead_emul {s : State} (hb : s.cfg.backend = .emul) (addr : Word) :
    exec (.axiRead addr) s = .next (s.emulRead addr) := by
  simp only [exec, execAxiRead, hb]

theorem exec_axiWrite_emul {s : State} (hb : s.cfg.backend = .emul) (addr word : Word) :
    exec (.axiWrite addr word) s = .next (s.emulWrite addr word) := by
  simp only [exec, execAxiWrite, hb]

theorem State.emulRead_of_inBuffer {s : State} {addr : Word} (ha : aligned addr = true)
    (hr : inBuffer s.cfg addr = true) :
    s.emulRead addr = s.respond .ok (.word (memRead s.cfg s.emul addr)) := by
  simp [State.emulRead, ha, hr]

theorem State.emulRead_of_not_inBuffer {s : State} {addr : Word} (ha : aligned addr = true)
    (hr : inBuffer s.cfg addr = false) : s.emulRead addr = s.respond .ioError .none := by
  simp [State.emulRead, ha, hr]

theorem State.emulWrite_of_inBuffer {s : State} {addr : Word} (word : Word) (ha : aligned addr = true)
    (hr : inBuffer s.cfg addr = true) :
    s.emulWrite addr word = { s with emul := memWrite s.cfg s.emul addr word }.respond .ok .none := by
  simp [State.emulWrite, ha, hr]

theorem State.emulWrite_of_not_inBuffer {s : State} {addr : Word} (word : Word) (ha : aligned addr = true)
    (hr : inBuffer s.cfg addr = false) : s.emulWrite addr word = s.respond .ioError .none := by
  simp [State.emulWrite, ha, hr]

/-- What the obligations call an answer and nothing else is the model's `respond` (R16). -/
theorem State.respond_eq_answered (s : State) (st : Status) (data : RespData) :
    s.respond st data = Spec.answered s st data := rfl

/-- Settles O40, by the range check: in range the word read and the buffer written are `memRead` and
`memWrite`, whose bytes the lemmas above give; out of range both commands only answer. -/
theorem emulationBufferAccesses : Obligations.EmulationBufferAccesses := by
  intro s addr word hb ha
  replace ha := aligned_iff.mpr ha
  rw [exec_axiRead_emul hb, exec_axiWrite_emul hb]
  refine ⟨fun hin => ?inRange, fun hout => ?outOfRange⟩
  case inRange =>
    have hr := inBuffer_iff.mpr hin
    rw [State.emulRead_of_inBuffer ha hr, State.emulWrite_of_inBuffer word ha hr,
      State.respond_eq_answered, State.respond_eq_answered]
    exact ⟨⟨_, rfl, fun k hk => wordByte_memRead s.cfg s.emul addr hk⟩,
      _, rfl, fun k hk => Memory.read_memWrite_same s.cfg s.emul addr word hk,
        fun a hfar => Memory.read_memWrite_of_outside s.cfg s.emul addr word hfar⟩
  case outOfRange =>
    have hr := inBuffer_eq_false_iff.mpr hout
    rw [State.emulRead_of_not_inBuffer ha hr, State.emulWrite_of_not_inBuffer word ha hr,
      State.respond_eq_answered]
    exact ⟨rfl, rfl⟩

end Sys2Proof.Machine
end

section
/-!
PROOFS of the family 30_encoding: the decoder (spec/30_encoding.md R83 to R88, R95).
-/
namespace Sys2Proof

/-! ## The header check, in the numbers of R81 -/

theorem exists_eq_opcodeCode_iff {n : Nat} : (∃ o, n = (opcodeCode o).toNat) ↔ 1 ≤ n ∧ n ≤ 6 := by
  constructor
  · rintro ⟨o, rfl⟩
    cases o <;> decide
  · rintro ⟨hlo, hhi⟩
    interval_cases n
    exacts [⟨.tapReset, rfl⟩, ⟨.shiftIr, rfl⟩, ⟨.shiftDr, rfl⟩, ⟨.axiWrite, rfl⟩, ⟨.axiRead, rfl⟩, ⟨.release, rfl⟩]

/-- The header check answers the opcode of a valid header, and nothing else passes (R82, R86). -/
theorem checkHeader_eq_ok_iff_valid {c : Config} {h : Word} {o : Opcode} :
    checkHeader c h = .ok o ↔ Spec.headerValid c h ∧ Spec.op h = (opcodeCode o).toNat := by
  rw [checkHeader_eq_ok, opcodeOf_eq_some, reservedClear_iff, lengthProblem_eq_none, headerOp_eq, headerLen_eq]
  unfold Spec.headerValid Spec.op Spec.len
  cases o <;> simp [opcodeCode] <;> omega

theorem exists_checkHeader_ok_iff {c : Config} {h : Word} :
    (∃ o, checkHeader c h = .ok o) ↔ Spec.headerValid c h := by
  simp only [checkHeader_eq_ok_iff_valid, exists_and_left, exists_eq_opcodeCode_iff]
  exact and_iff_left_of_imp fun hv => hv.1

/-- Words that begin with an invalid header are refused, one word consumed (R85, R86). -/
theorem decode_of_not_headerValid {c : Config} {h : Word} (hv : ¬ Spec.headerValid c h) (rest : List Word) :
    ∃ why, decode c (h :: rest) = .illegal why 1 := by
  cases hc : checkHeader c h with
  | error why => exact ⟨why, by simp only [decode, hc]⟩
  | ok o => exact absurd (exists_checkHeader_ok_iff.mp ⟨o, hc⟩) hv

/-- Settles O9, by the header check of every opcode. -/
theorem validHeadersAreTheAcceptedOnes : Obligations.ValidHeadersAreTheAcceptedOnes :=
  fun _ _ => ⟨exists_checkHeader_ok_iff, decode_of_not_headerValid⟩

/-! ## The length of a command -/

/-- The spec's length of a command is its header and the operand words of the model's opcode (R85). -/
theorem commandWords_eq {c : Config} {h : Word} {o : Opcode} (hc : checkHeader c h = .ok o) :
    Spec.commandWords h = 1 + operandWords o (headerLen h) := by
  obtain ⟨-, hop⟩ := checkHeader_eq_ok_iff_valid.mp hc
  unfold Spec.commandWords
  rw [hop, headerLen_eq]
  cases o <;> rfl

theorem decode_eq_incomplete {c : Config} {h : Word} {rest : List Word} {o : Opcode}
    (hc : checkHeader c h = .ok o) (hl : rest.length < operandWords o (headerLen h)) :
    decode c (h :: rest) = .incomplete := by
  simp only [decode, hc, hl, if_true]

/-- A SHIFT takes its operand words whether or not its spare bits are clear (R85). -/
theorem decodeShift_consumed (mk : Bits → Instr) (n : Nat) (ws : List Word) :
    (∃ i, decodeShift mk n ws = .command i (1 + vectorWords n)) ∨
      ∃ why, decodeShift mk n ws = .illegal why (1 + vectorWords n) := by
  unfold decodeShift
  split
  · exact .inl ⟨_, rfl⟩
  · exact .inr ⟨_, rfl⟩

/-- The operands of every opcode take their words, whether a command or an illegal operand is found (R85). -/
theorem decodeOperands_consumed (o : Opcode) (n : Nat) (ws : List Word) :
    (∃ i, decodeOperands o n ws = .command i (1 + operandWords o n)) ∨
      ∃ why, decodeOperands o n ws = .illegal why (1 + operandWords o n) := by
  cases o with
  | shiftIr => exact decodeShift_consumed .shiftIr n ws
  | shiftDr => exact decodeShift_consumed .shiftDr n ws
  | tapReset | axiWrite | axiRead | release => exact .inl ⟨_, rfl⟩

/-- Settles O10: past a valid header the operand words are awaited and then taken, as many as its opcode and
its length ask for. -/
theorem headerFixesTheLength : Obligations.HeaderFixesTheLength := by
  refine fun c h rest => ⟨fun hv => decode_of_not_headerValid hv rest, fun hv hshort => ?_, fun hv hlong => ?_⟩
  · obtain ⟨o, hc⟩ := exists_checkHeader_ok_iff.mpr hv
    have hw := commandWords_eq hc
    exact decode_eq_incomplete hc (by omega)
  · obtain ⟨o, hc⟩ := exists_checkHeader_ok_iff.mpr hv
    have hw := commandWords_eq hc
    rw [decode_of_ok hc (by omega), hw]
    exact decodeOperands_consumed o _ _

/-! ## The operand words of a SHIFT -/

/-- The bits of the first `k` words are those of all of them. -/
theorem wordsBit_take {ws : List Word} {k j : Nat} (hj : j < 32 * k) :
    Spec.wordsBit (ws.take k) j = Spec.wordsBit ws j := by
  have hk : j / 32 < k := by omega
  simp only [Spec.wordsBit, List.getD_eq_getElem?_getD, List.getElem?_take_of_lt hk]

/-- The vector that words carry, bit by bit (R83). -/
theorem bit_ofWords_eq_wordsBit {n j : Nat} (ws : List Word) (hj : j < n) :
    (Bits.ofWords n ws).bit j = Spec.wordsBit ws j := by
  simp [Bits.bit_ofWords, hj, Spec.wordsBit]

/-- The spare bits are those of the operand words at or above the length; they all lie in the last word (R87). -/
theorem spareBitsClear_iff_wordsBit {n : Nat} {ws : List Word} : spareBitsClear n ws = true ↔
    ∀ j, n ≤ j → j < 32 * Spec.ceilWords n → Spec.wordsBit ws j = false := by
  rw [spareBitsClear_iff]
  unfold Spec.ceilWords Spec.wordsBit
  constructor
  · rintro (hfull | hclear) j hlo hhi
    · omega
    · rw [show j / 32 = n / 32 by omega]
      exact hclear _ (by omega) (by omega)
  · intro hclear
    by_cases hfull : n % 32 = 0
    · exact .inl hfull
    · refine .inr fun i hlo hhi => ?_
      have hi := hclear (32 * (n / 32) + i) (by omega) (by omega)
      rwa [show (32 * (n / 32) + i) / 32 = n / 32 by omega, show (32 * (n / 32) + i) % 32 = i by omega] at hi

/-- That the operand words are cut out of the words on the port changes no spare bit. -/
theorem spareBitsClear_take (n : Nat) (ws : List Word) :
    spareBitsClear n (ws.take (Spec.ceilWords n)) = spareBitsClear n ws := by
  rw [Bool.eq_iff_iff, spareBitsClear_iff_wordsBit, spareBitsClear_iff_wordsBit]
  exact forall₃_congr fun j _ hj => by rw [wordsBit_take hj]

theorem spareBitsClear_eq_false_iff {n : Nat} {ws : List Word} : spareBitsClear n ws = false ↔
    ∃ j, n ≤ j ∧ j < 32 * Spec.ceilWords n ∧ Spec.wordsBit ws j = true := by
  rw [← Bool.not_eq_true, spareBitsClear_iff_wordsBit]
  push Not
  simp only [Bool.not_eq_false]

/-- A decoded SHIFT comes from its header's length and operand words, whose spare bits are clear (R83, R87). -/
theorem decode_eq_shift {c : Config} {h : Word} {rest : List Word} {v : Bits} {i : Instr} {n : Nat}
    (hd : decode c (h :: rest) = .command i n) (hi : i = .shiftIr v ∨ i = .shiftDr v) :
    v = Bits.ofWords (Spec.len h) (rest.take (Spec.ceilWords (Spec.len h))) ∧
      n = 1 + Spec.ceilWords (Spec.len h) ∧ spareBitsClear (Spec.len h) rest = true := by
  obtain ⟨o, -, -, hd⟩ := decode_cons_eq_command hd
  rw [headerLen_eq, ← Spec.len.eq_def] at hd
  cases o with
  | shiftIr | shiftDr =>
    obtain ⟨hspare, hv, hn⟩ := (decodeShift_eq_command _ _ _ _ _).mp hd
    have hclear := (spareBitsClear_take _ _).symm.trans hspare
    rcases hi with rfl | rfl <;> cases hv
    exact ⟨rfl, hn.symm, hclear⟩
  | tapReset | axiWrite | axiRead | release =>
    rcases hi with rfl | rfl <;> cases hd

/-- Settles O11: the vector is the one that the operand words carry, and its spare bits are clear. -/
theorem shiftOperandLayout : Obligations.ShiftOperandLayout := by
  intro c h rest v i n hd hi
  obtain ⟨rfl, rfl, hspare⟩ := decode_eq_shift hd hi
  refine ⟨Bits.length_ofWords _ _, rfl, fun j hj => ?_, spareBitsClear_iff_wordsBit.mp hspare⟩
  have hword : j < 32 * Spec.ceilWords (Spec.len h) := by unfold Spec.ceilWords; omega
  rw [bit_ofWords_eq_wordsBit _ hj, wordsBit_take hword]

/-! ## Illegal operands -/

/-- Past a valid header of a SHIFT, its operand words decide (R87, R88). -/
theorem decode_shift_of_headerValid {c : Config} {h : Word} {rest : List Word} (hv : Spec.headerValid c h)
    (hop : Spec.op h = 2 ∨ Spec.op h = 3) (hl : Spec.ceilWords (Spec.len h) ≤ rest.length) :
    ∃ mk, decode c (h :: rest) =
      decodeShift mk (Spec.len h) (rest.take (Spec.ceilWords (Spec.len h))) := by
  have hlen : headerLen h = Spec.len h := headerLen_eq h
  rcases hop with hop | hop
  · have hc : checkHeader c h = .ok .shiftIr := checkHeader_eq_ok_iff_valid.mpr ⟨hv, hop⟩
    exact ⟨.shiftIr, by rw [decode_of_ok hc (by rwa [hlen]), hlen]; rfl⟩
  · have hc : checkHeader c h = .ok .shiftDr := checkHeader_eq_ok_iff_valid.mpr ⟨hv, hop⟩
    exact ⟨.shiftDr, by rw [decode_of_ok hc (by rwa [hlen]), hlen]; rfl⟩

/-- A SHIFT whose words have all arrived is refused exactly for a spare bit (R87). -/
theorem decode_shift_eq_illegal_iff {c : Config} {h : Word} {rest : List Word} (hv : Spec.headerValid c h)
    (hop : Spec.op h = 2 ∨ Spec.op h = 3) (hl : Spec.ceilWords (Spec.len h) ≤ rest.length) :
    decode c (h :: rest) = .illegal .operandBits (1 + Spec.ceilWords (Spec.len h)) ↔
      ∃ j, Spec.len h ≤ j ∧ j < 32 * Spec.ceilWords (Spec.len h) ∧ Spec.wordsBit rest j = true := by
  obtain ⟨mk, hd⟩ := decode_shift_of_headerValid hv hop hl
  rw [hd, decodeShift_eq_illegal, spareBitsClear_take, spareBitsClear_eq_false_iff]
  exact and_iff_left ⟨rfl, rfl⟩

theorem checkHeader_axiWrite (c : Config) : checkHeader c 0x00000004 = .ok .axiWrite :=
  Laws.checkHeader_headerWord c .axiWrite 0 (by decide) rfl

theorem checkHeader_axiRead (c : Config) : checkHeader c 0x00000005 = .ok .axiRead :=
  Laws.checkHeader_headerWord c .axiRead 0 (by decide) rfl

/-- Settles O12: a SHIFT by its spare bits; an AXI command's operands are taken as they are. -/
theorem operandValidity : Obligations.OperandValidity := by
  refine ⟨fun c h rest => decode_shift_eq_illegal_iff, fun c addr word rest => ⟨?_, ?_⟩⟩
  · have htwo : operandWords .axiWrite (headerLen 0x00000004) ≤ (addr :: word :: rest).length :=
      Nat.le_add_left 2 rest.length
    rw [decode_of_ok (checkHeader_axiWrite c) htwo]
    rfl
  · have hone : operandWords .axiRead (headerLen 0x00000005) ≤ (addr :: rest).length :=
      Nat.le_add_left 1 rest.length
    rw [decode_of_ok (checkHeader_axiRead c) hone]
    rfl

theorem not_headerValid_of_reserved {c : Config} {h : Word} (hop : Spec.op h = 0 ∨ 7 ≤ Spec.op h) :
    ¬ Spec.headerValid c h := by
  rintro ⟨hrange, -⟩
  omega

end Sys2Proof

namespace Sys2Proof.Machine

/-! ## The step at an illegal command -/

theorem State.fetch_of_presenter {s : State} {h : HostId} (hp : s.presenter = some h) (hl : s.lock = some h) :
    s.fetch = decode s.cfg s.port := if_pos (s.portLive_iff.mpr ⟨h, hp, hl⟩)

theorem step_of_fetch_illegal {s : State} {why : IllegalReason} {n : Nat} (hf : s.fetch = .illegal why n) :
    step s = .next (s.takeWords n).illegalCommand := by
  simp only [step, hf]

/-- Settles O13: an invalid header and a spare bit are refused by the decoder, and the step at a refusal takes
the words off the port and answers, which is all it does. -/
theorem illegalCommandsAreRefused : Obligations.IllegalCommandsAreRefused := by
  refine ⟨fun c h rest => ⟨fun hv => decode_of_not_headerValid hv rest, fun hop => ?_, ?_⟩, ?_⟩
  · exact decode_of_not_headerValid (not_headerValid_of_reserved hop) rest
  · intro hv hop hl hspare
    exact ⟨_, _, (decode_shift_eq_illegal_iff hv hop hl).mpr hspare⟩
  · intro s h why n hp hl hd
    have hf : s.fetch = .illegal why n := (s.fetch_of_presenter hp hl).trans hd
    rw [step_of_fetch_illegal hf]
    simp [State.takeWords, State.illegalCommand, State.respond, hp]

end Sys2Proof.Machine
end

section
/-!
PROOFS of the family 30_encoding: the data words of a response (spec/30_encoding.md R90, R92).
-/
namespace Sys2Proof

/-- The words of a vector carry its bits, and 0 past its end (R83, R92). -/
theorem wordsBit_toWords (v : Bits) (j : Nat) : Spec.wordsBit v.toWords j = v.bit j := by
  rw [Spec.wordsBit, Bits.getLsbD_getD_toWords _ _ _ (Nat.mod_lt j (by decide)), Nat.div_add_mod]

/-- The data of a response that ends a command with `OK` (R29, R92). -/
def Instr.OkData (i : Instr) (d : Machine.RespData) : Prop :=
  match i with
  | .tapReset => d = .none
  | .shiftIr v => ∃ cap, d = .capture cap ∧ cap.length = v.length
  | .shiftDr v => ∃ cap, d = .capture cap ∧ cap.length = v.length
  | .axiWrite _ _ => d = .none
  | .axiRead _ => ∃ w, d = .word w
  | .release => d = .none

end Sys2Proof

namespace Sys2Proof.Machine

/-! ## The length of a capture -/

theorem Run.ticked_srIn_length (r : Run) (t : Tick) : (r.ticked t).st.srIn.length = r.st.srIn.length := by
  unfold Run.ticked
  cases t.sample with
  | none => rfl
  | some j => exact List.length_set

theorem Run.foldl_ticked_srIn_length (ts : List Tick) (r : Run) :
    (ts.foldl Run.ticked r).st.srIn.length = r.st.srIn.length := by
  induction ts generalizing r with
  | nil => rfl
  | cons t rest ih => exact (ih (r.ticked t)).trans (r.ticked_srIn_length t)

/-- Ticks that no pin failure ends have all taken place. -/
theorem eq_foldl_of_doTicks_eq_going {ts : List Tick} {r r' : Run} (h : doTicks ts r = .going r') :
    r' = ts.foldl Run.ticked r := by
  rcases doTicks_cases ts r with hd | ⟨_, _, _, _, _, _, _, _, hd⟩
  · cases hd.symm.trans h; rfl
  · cases hd.symm.trans h

/-- A scan that goes through, from whatever TAP state, has captured as many bits as it presented (R116). -/
theorem srIn_length_of_scan_eq_going {kind : ScanKind} {v : Bits} {r r' : Run} (h : scan kind v r = .going r') :
    r'.st.srIn.length = v.length := by
  obtain ⟨q, -, hshift⟩ := Drive.andThen_eq_going h
  rw [eq_foldl_of_doTicks_eq_going hshift, Run.foldl_ticked_srIn_length]
  exact List.length_replicate

/-! ## How each command answers -/

/-- The state holds a response, and one with `OK` carries data as asked. -/
def State.Answers (t : State) (okData : RespData → Prop) : Prop :=
  ∃ r, t.resp = some r ∧ (r.status = .ok → okData r.data)

theorem State.answers_ok {s : State} {okData : RespData → Prop} {data : RespData} (h : okData data) :
    (s.respond .ok data).Answers okData := ⟨_, rfl, fun _ => h⟩

theorem State.answers_error {s : State} {okData : RespData → Prop} {st : Status} {data : RespData}
    (h : st ≠ .ok) : (s.respond st data).Answers okData := ⟨_, rfl, fun hok => absurd hok h⟩

/-- What is performed over the pins answers `OK` only where it goes through (R200). -/
theorem Drive.Sound.finish_answers {r : Run} {d : Drive} {data : State → RespData} {okData : RespData → Prop}
    (h : d.Sound r) (hdata : ∀ r', d = .going r' → okData (data r'.st)) : (d.finish data).Answers okData := by
  cases d with
  | going r' => exact State.answers_ok (hdata r' rfl)
  | ended e r' =>
    obtain ⟨-, ps, -, -, ⟨rfl, -⟩ | ⟨rfl, -⟩⟩ := h <;> exact State.answers_error (by decide)

theorem State.tapReset_answers (s : State) : s.tapReset.Answers fun d => d = .none := by
  unfold State.tapReset
  split_ifs
  · exact (tapResetDrive_sound s).finish_answers fun _ _ => rfl
  · exact State.answers_error (by decide)

/-- A raw scan answers `OK` with its capture, as long as the vector it presented (R135). -/
theorem State.rawShift_answers (s : State) (kind : ScanKind) (v : Bits) :
    (s.rawShift kind v).Answers fun d => ∃ cap, d = .capture cap ∧ cap.length = v.length := by
  unfold State.rawShift
  split_ifs
  · exact State.answers_error (by decide)
  · exact (scan_sound kind v s.begin).finish_answers fun _ h => ⟨_, rfl, srIn_length_of_scan_eq_going h⟩
  · exact State.answers_error (by decide)

theorem State.emulWrite_answers (s : State) (addr word : Word) :
    (s.emulWrite addr word).Answers fun d => d = .none := by
  unfold State.emulWrite
  split_ifs
  · exact State.answers_error (by decide)
  · exact State.answers_error (by decide)
  · exact State.answers_ok rfl

theorem State.hwWrite_answers (s : State) (addr word : Word) : (s.hwWrite addr word).Answers fun d => d = .none := by
  unfold State.hwWrite
  split_ifs
  · exact State.answers_error (by decide)
  · exact State.answers_error (by decide)
  · exact (writeScans_sound addr word s.begin).finish_answers fun _ _ => rfl

theorem State.emulRead_answers (s : State) (addr : Word) : (s.emulRead addr).Answers fun d => ∃ w, d = .word w := by
  unfold State.emulRead
  split_ifs
  · exact State.answers_error (by decide)
  · exact State.answers_error (by decide)
  · exact State.answers_ok ⟨_, rfl⟩

theorem State.hwRead_answers (s : State) (addr : Word) : (s.hwRead addr).Answers fun d => ∃ w, d = .word w := by
  unfold State.hwRead
  split_ifs
  · exact State.answers_error (by decide)
  · exact State.answers_error (by decide)
  · exact (readScans_sound addr s.begin).finish_answers fun _ _ => ⟨_, rfl⟩

/-- Every command answers a response, and one with `OK` carries the command's data (R92). -/
theorem exec_answers {i : Instr} {s t : State} (h : exec i s = .next t) : t.Answers i.OkData := by
  cases i with
  | tapReset => cases h; exact s.tapReset_answers
  | shiftIr v => cases h; exact s.rawShift_answers .ir v
  | shiftDr v => cases h; exact s.rawShift_answers .dr v
  | axiWrite addr word =>
    cases h
    cases s.cfg.backend with
    | hw => exact s.hwWrite_answers addr word
    | emul => exact s.emulWrite_answers addr word
  | axiRead addr =>
    cases h
    cases s.cfg.backend with
    | hw => exact s.hwRead_answers addr
    | emul => exact s.emulRead_answers addr
  | release => cases h; exact State.answers_ok rfl

/-! ## The response words -/

theorem Response.words_of_ok {r : Response} (h : r.status = .ok) : r.words = 0 :: r.data.words := by
  rw [Response.words, if_pos h, h]
  rfl

theorem Response.words_of_ne_ok {r : Response} (h : r.status ≠ .ok) : r.words = [r.status.word] := by
  rw [Response.words, if_neg h]

/-- Settles O17, by the data that each command answers with. -/
theorem responseDataFollowsTheCommand : Obligations.ResponseDataFollowsTheCommand := by
  intro i s t h
  obtain ⟨r, hr, hdata⟩ := exec_answers h
  refine ⟨r, hr, Response.words_of_ne_ok, fun hok => ?_⟩
  have hwords := Response.words_of_ok hok
  have hd := hdata hok
  cases i with
  | tapReset | axiWrite | release =>
    have hnone : r.data = .none := hd
    rw [hwords, hnone]
    rfl
  | axiRead addr =>
    obtain ⟨w, hw⟩ := hd
    exact ⟨w, hw, by rw [hwords, hw]; rfl⟩
  | shiftIr v | shiftDr v =>
    obtain ⟨cap, hcap, hlen⟩ := hd
    refine ⟨cap, cap.toWords, hcap, hlen, by rw [hwords, hcap]; rfl, ?_, fun j _ => wordsBit_toWords cap j,
      fun j hj => ?_⟩
    · rw [Bits.length_toWords, hlen]
      rfl
    · rw [wordsBit_toWords]
      exact Bits.bit_eq_false cap (hlen.trans_le hj)

end Sys2Proof.Machine
end

section
/-!
PROOFS of the family 30_encoding: the TMS and TDI sequences on the wire (spec/30_encoding.md R96).
-/
namespace Sys2Proof.Machine

/-! ## The levels of the ticks -/

/-- The ticks into the Shift state show the walk-in of R96 on TMS. -/
theorem walkTicks_tms (kind : ScanKind) (m : Mirror) :
    (gotoIdle m ++ walkIn kind).map Tick.tms = Spec.walkInTms kind m := by
  unfold gotoIdle Spec.walkInTms
  cases kind <;> split <;> rfl

theorem walkTicks_tdi (kind : ScanKind) (m : Mirror) :
    (gotoIdle m ++ walkIn kind).map Tick.tdi = (Spec.walkInTms kind m).map fun _ => false := by
  unfold gotoIdle Spec.walkInTms
  cases kind <;> split <;> rfl

/-- The shift ticks present the vector's bits in `BIT_ORDER` (R116). -/
theorem shiftTicks_tdi (order : BitOrder) (v : Bits) : (shiftTicks order v).map Tick.tdi =
    (List.range v.length).map fun i => v.bit (Spec.presented order v.length i) := by
  rw [shiftTicks, List.map_map]
  cases order <;> rfl

theorem scanTicks_tms (order : BitOrder) (kind : ScanKind) (m : Mirror) {v : Bits} (hv : 1 ≤ v.length) :
    (scanTicks order kind m v).map Tick.tms =
      Spec.walkInTms kind m ++ (List.replicate (v.length - 1) false ++ [true]) ++ [true, false] := by
  rw [scanTicks, List.map_append, List.map_append, walkTicks_tms, shiftTicks_tms order v hv]
  rfl

theorem scanTicks_tdi (order : BitOrder) (kind : ScanKind) (m : Mirror) (v : Bits) :
    (scanTicks order kind m v).map Tick.tdi = (Spec.walkInTms kind m).map (fun _ => false) ++
      (List.range v.length).map (fun i => v.bit (Spec.presented order v.length i)) ++ [false, false] := by
  rw [scanTicks, List.map_append, List.map_append, walkTicks_tdi, shiftTicks_tdi]
  rfl

/-! ## The events of the reset sequence, a scan and an idle wait -/

/-- The reset sequence goes through for every tick count, and its events are those of its ticks (R118). -/
theorem resetSeq_newEvents (r : Run) (h : r.st.NoPinFault) : ∃ r', resetSeq r = .going r' ∧
    newEvents r.st r'.st = okEvents (ticksPrims (resetTicks r.st.cfg)) := by
  rw [resetSeq, doTicks_going _ _ h, Drive.andThen_going]
  exact ⟨_, rfl, newEvents_of_append (Run.foldl_ticked_trace (resetTicks r.st.cfg) r)⟩

theorem Run.scanned_newEvents (kind : ScanKind) (v : Bits) (r : Run) : newEvents r.st (r.scanned kind v).st =
    okEvents (ticksPrims (scanTicks r.st.cfg.bitOrder kind r.st.tap v)) := newEvents_of_append rfl

/-- An idle wait keeps the mirror in Run-Test/Idle, whatever the levels on the lines before it (R120). -/
theorem foldl_idleTicks_tap (k : Nat) {r : Run} (htap : r.st.tap = .known .runTestIdle) :
    ((idleTicks k).foldl Run.ticked r).st.tap = .known .runTestIdle := by
  rw [Run.foldl_ticked_tap, htap, idleTicks, List.map_replicate]
  exact Mirror.walk_replicate rfl k

/-- Settles O21: the wire shows the ticks of each part, level by level. -/
theorem wireSequences : Obligations.WireSequences := by
  refine ⟨fun r h => ?reset, fun kind v r h htap hv => ?scan, fun k r h htap => ?idle⟩
  case reset =>
    obtain ⟨r', hgo, hev⟩ := resetSeq_newEvents r h
    refine ⟨r', hgo, ?_, ?_⟩
    · rw [hev, wireTms_okTicks, resetTicks, List.map_replicate]; rfl
    · rw [hev, wireTdi_okTicks, resetTicks, List.map_replicate]; rfl
  case scan =>
    refine ⟨_, scan_going kind v r h hv htap, ?_, ?_⟩
    · rw [Run.scanned_newEvents, wireTms_okTicks, scanTicks_tms _ _ _ hv]
    · rw [Run.scanned_newEvents, wireTdi_okTicks, scanTicks_tdi]
  case idle =>
    have hev := newEvents_of_append (Run.foldl_ticked_trace (idleTicks k) r)
    refine ⟨_, doTicks_going (idleTicks k) r h, foldl_idleTicks_tap k htap, ?_, ?_⟩
    · rw [hev, wireTms_okTicks, idleTicks, List.map_replicate]; rfl
    · rw [hev, wireTdi_okTicks, idleTicks, List.map_replicate]; rfl

end Sys2Proof.Machine
end

section
/-!
PROOFS of the family 40_tap_fsm: the five-tick property (spec/40_tap_fsm.md R119), and a scan that no pin
failure interrupts (R117).
-/
namespace Sys2Proof.Machine

/-! ## Ticks with TMS = 1 -/

/-- Five ticks with TMS = 1 reach Test-Logic-Reset, and further ones stay there (R119). -/
theorem TapState.walk_replicate_true (t : TapState) {n : Nat} (hn : 5 ≤ n) :
    (Mirror.known t).walk (List.replicate n true) = .known .testLogicReset := by
  have hfive : (Mirror.known t).walk (List.replicate 5 true) = .known .testLogicReset := by cases t <;> rfl
  obtain ⟨k, rfl⟩ := Nat.exists_eq_add_of_le hn
  rw [List.replicate_add, Mirror.walk_append, hfive]
  exact Mirror.walk_replicate rfl k

/-- Settles O19, by the first five ticks from each of the sixteen states. -/
theorem fiveTicksReachTestLogicReset : Obligations.FiveTicksReachTestLogicReset :=
  ⟨fun t _ hn => t.walk_replicate_true hn, rfl⟩

/-! ## The states that a scan enters -/

/-- The Shift state of a scan's kind (R116). -/
def ScanKind.shiftState : ScanKind → TapState
  | .ir => .shiftIr
  | .dr => .shiftDr

/-- The walk-in ends in the Shift state of its kind. -/
theorem walkInTms_walk (kind : ScanKind) {m : Mirror}
    (hm : m = .known .testLogicReset ∨ m = .known .runTestIdle) :
    m.walk (Spec.walkInTms kind m) = .known kind.shiftState := by
  rcases hm with rfl | rfl <;> cases kind <;> rfl

/-- From Shift, `k` further bits stay in Shift and the last one leaves through Exit1 and Update. -/
theorem shift_visits (kind : ScanKind) (k : Nat) :
    (Mirror.known kind.shiftState).visits (List.replicate k false ++ [true] ++ [true, false]) =
      List.replicate k (.known kind.shiftState) ++ (Mirror.known kind.shiftState).visits [true, true, false] := by
  have hstay : (Mirror.known kind.shiftState).next false = .known kind.shiftState := by cases kind <;> rfl
  rw [List.append_assoc, Mirror.visits_append, Mirror.visits_replicate hstay, Mirror.walk_replicate hstay]
  rfl

/-- A scan's ticks enter the states of R117, in that order and no others. -/
theorem scanTicks_visits (order : BitOrder) (kind : ScanKind) {m : Mirror} {v : Bits} (hv : 1 ≤ v.length)
    (hm : m = .known .testLogicReset ∨ m = .known .runTestIdle) :
    m.visits ((scanTicks order kind m v).map Tick.tms) = Spec.scanVisits kind m v.length := by
  obtain ⟨k, hk⟩ := Nat.exists_eq_add_of_le' hv
  rw [scanTicks_tms order kind m hv, hk, Nat.add_sub_cancel, List.append_assoc, Mirror.visits_append,
    walkInTms_walk kind hm, shift_visits]
  rcases hm with rfl | rfl <;> cases kind <;> rfl

/-- Settles O20: the scan leaves `Run.scanned`, and its events are those of its ticks. -/
theorem scanWithoutPinFailure : Obligations.ScanWithoutPinFailure := by
  intro kind v r hok htap hv
  have htms : wireTms (newEvents r.st (r.scanned kind v).st) =
      (scanTicks r.st.cfg.bitOrder kind r.st.tap v).map Tick.tms := by
    rw [Run.scanned_newEvents, wireTms_okTicks]
  refine ⟨_, scan_going kind v r hok hv htap, rfl, rfl, rfl, rfl, rfl, rfl, ?ticks, ?prims, ?visits⟩
  case ticks =>
    rw [htms, List.length_map, length_scanTicks]
    rfl
  case prims => rw [htms, List.length_map, Run.scanned_newEvents, length_okEvents, length_scanTicks_prims]
  case visits => rw [htms, scanTicks_visits _ _ hv htap]

end Sys2Proof.Machine
end

section
/-!
PROOFS of the family 40_tap_fsm: that no command enters Pause or Exit2 (spec/40_tap_fsm.md R121).
-/
namespace Sys2Proof.Machine

/-! ## The TMS levels of a stretch of events -/

/-- The events show the levels `tms` at their clock pulses, whatever levels the lines had before them and
whatever events follow. -/
def Clocks (es : List PinEvent) (tms : List Bool) : Prop :=
  ∀ a b, ∃ a' b', ∀ rest,
    (wireTicks (es ++ rest) a b).map Prod.fst = tms ++ (wireTicks rest a' b').map Prod.fst

theorem Clocks.wireTms_eq {es : List PinEvent} {tms : List Bool} (h : Clocks es tms) : wireTms es = tms := by
  obtain ⟨a', b', h⟩ := h false false
  simpa [wireTms, wireTicks] using h []

theorem Clocks.nil : Clocks [] [] := fun a b => ⟨a, b, fun _ => rfl⟩

theorem Clocks.append {es fs : List PinEvent} {xs ys : List Bool} (h : Clocks es xs) (h' : Clocks fs ys) :
    Clocks (es ++ fs) (xs ++ ys) := by
  intro a b
  obtain ⟨a', b', h⟩ := h a b
  obtain ⟨a'', b'', h'⟩ := h' a' b'
  exact ⟨a'', b'', fun rest => by rw [List.append_assoc, h, h', List.append_assoc]⟩

theorem clocks_tick (t : Tick) : Clocks (okEvents t.prims) [t.tms] :=
  fun a b => ⟨t.tms, t.tdi, fun rest => by rw [wireTicks_tick]; rfl⟩

/-- An event other than a clock pulse that takes place shows nothing. -/
theorem clocks_of_ne_toggle {e : PinEvent} (h : e ≠ { prim := .toggle, ok := true }) : Clocks [e] [] := by
  intro a b
  obtain ⟨p, ok⟩ := e
  cases ok with
  | false => exact ⟨a, b, fun _ => rfl⟩
  | true =>
    cases p with
    | set line v =>
      cases line with
      | tck => exact ⟨a, b, fun _ => rfl⟩
      | tms => exact ⟨v, b, fun _ => rfl⟩
      | tdi => exact ⟨a, v, fun _ => rfl⟩
    | readTdo => exact ⟨a, b, fun _ => rfl⟩
    | toggle => exact absurd rfl h
    | releaseLine line => exact ⟨a, b, fun _ => rfl⟩

theorem clocks_of_no_toggle {es : List PinEvent} (h : ∀ e ∈ es, e ≠ { prim := .toggle, ok := true }) :
    Clocks es [] := by
  induction es with
  | nil => exact Clocks.nil
  | cons e rest ih =>
    exact (clocks_of_ne_toggle (h e (by simp))).append (ih fun f hf => h f (by simp [hf]))

/-- A tick's clock pulse is its last primitive (R113), so a tick that a pin failure cuts short has none. -/
theorem Tick.toggle_not_mem_of_prims_eq {t : Tick} {pre post : List PinPrim} {p : PinPrim}
    (h : t.prims = pre ++ p :: post) : PinPrim.toggle ∉ pre := by
  have hpre : pre <+: t.prims.dropLast := by
    rw [h, List.dropLast_append_of_ne_nil (by simp)]
    exact List.prefix_append _ _
  intro hmem
  have : PinPrim.toggle ∈ t.prims.dropLast := hpre.subset hmem
  obtain ⟨tms, tdi, sample⟩ := t
  cases sample <;> simp [Tick.prims] at this

/-- A tick that a pin failure cuts short shows no clock pulse (R206). -/
theorem clocks_of_cut_tick {t : Tick} {pre post : List PinPrim} {p : PinPrim} (h : t.prims = pre ++ p :: post) :
    Clocks (okEvents pre ++ [{ prim := p, ok := false }]) [] := by
  refine clocks_of_no_toggle fun e he => ?_
  rcases List.mem_append.1 he with hpre | hlast
  · obtain ⟨q, hq, rfl⟩ := List.mem_map.1 hpre
    rintro ⟨⟩
    exact Tick.toggle_not_mem_of_prims_eq h hq
  · rw [List.mem_singleton.1 hlast]
    nofun

/-! ## Mirror states off the Pause and Exit2 states -/

/-- The mirror is in none of the four states of R121. -/
abbrev Mirror.OffPause (m : Mirror) : Prop :=
  m ≠ .known .pauseDr ∧ m ≠ .known .exit2Dr ∧ m ≠ .known .pauseIr ∧ m ≠ .known .exit2Ir

/-- With TMS = 1 no state leads into Pause, and only Pause leads into Exit2 (R111). -/
theorem Mirror.OffPause.next_true {m : Mirror} (h : m.OffPause) : (m.next true).OffPause := by
  cases m with
  | unknown => exact h
  | known t =>
    obtain ⟨hdr, -, hir, -⟩ := h
    cases t with
    | pauseDr => exact absurd rfl hdr
    | pauseIr => exact absurd rfl hir
    | _ => decide

theorem Mirror.OffPause.visits_replicate_true {m : Mirror} (h : m.OffPause) (n : Nat) :
    ∀ x ∈ m.visits (List.replicate n true), x.OffPause := by
  induction n generalizing m with
  | zero => nofun
  | succ n ih => exact List.forall_mem_cons.2 ⟨h.next_true, ih h.next_true⟩

/-- An unknown mirror stays unknown (R112). -/
theorem Mirror.visits_unknown (tms : List Bool) : ∀ x ∈ Mirror.unknown.visits tms, x = .unknown := by
  induction tms with
  | nil => nofun
  | cons b rest ih => exact List.forall_mem_cons.2 ⟨rfl, ih⟩

/-- None of the states that a scan enters is one of the four (R117). -/
theorem scanVisits_offPause (kind : ScanKind) (start : Mirror) (n : Nat) :
    ∀ x ∈ Spec.scanVisits kind start n, x.OffPause := by
  have hshift : ∀ x ∈ List.replicate n (Mirror.known kind.shiftState), x.OffPause := by
    intro x hx
    rw [List.eq_of_mem_replicate hx]
    cases kind <;> decide
  unfold Spec.scanVisits
  refine List.forall_mem_append.2 ⟨by split <;> decide, ?_⟩
  cases kind <;> exact List.forall_mem_append.2 ⟨List.forall_mem_append.2 ⟨by decide, hshift⟩, by decide⟩

/-! ## The states that each part of a command enters -/

/-- What `d`, begun at `r`, shows at its clock pulses takes the mirror through none of the four states of
R121; and where `d` goes on, the mirror has come to `m`. -/
def Drive.Reaches (r : Run) (m : Mirror) (d : Drive) : Prop :=
  ∃ es tms, d.run.st.trace = r.st.trace ++ es ∧ Clocks es tms ∧ (∀ x ∈ r.st.tap.visits tms, x.OffPause) ∧
    ∀ r', d = .going r' → r'.st.tap = m ∧ r.st.tap.walk tms = m ∧ r'.st.cfg = r.st.cfg

/-- A part that performs no primitive and keeps the mirror where it is. -/
theorem Drive.reaches_of_same {r : Run} {m : Mirror} {d : Drive} (hm : r.st.tap = m) (htap : d.run.st.tap = m)
    (htrace : d.run.st.trace = r.st.trace) (hcfg : d.run.st.cfg = r.st.cfg) : d.Reaches r m := by
  refine ⟨[], [], by rw [htrace, List.append_nil], Clocks.nil, nofun, ?_⟩
  rintro q rfl
  exact ⟨htap, hm, hcfg⟩

/-- A part that ends the command comes to no further state. -/
theorem Drive.reaches_ended {r r' : Run} {e : Status} {m : Mirror} {es : List PinEvent} {tms : List Bool}
    (htrace : r'.st.trace = r.st.trace ++ es) (hclocks : Clocks es tms)
    (hoff : ∀ x ∈ r.st.tap.visits tms, x.OffPause) : (Drive.ended e r').Reaches r m :=
  ⟨es, tms, htrace, hclocks, hoff, by simp⟩

theorem Drive.Reaches.andThen {r : Run} {m m' : Mirror} {d : Drive} {f : Run → Drive} (h : d.Reaches r m)
    (hf : ∀ r', r'.st.tap = m → r'.st.cfg = r.st.cfg → (f r').Reaches r' m') :
    (d.andThen f).Reaches r m' := by
  obtain ⟨es, xs, htrace, hclocks, hoff, hgo⟩ := h
  cases d with
  | ended e r' => exact Drive.reaches_ended htrace hclocks hoff
  | going r' =>
    obtain ⟨htap, hwalk, hcfg⟩ := hgo r' rfl
    obtain ⟨fs, ys, htrace', hclocks', hoff', hgo'⟩ := hf r' htap hcfg
    rw [htap] at hoff' hgo'
    refine ⟨es ++ fs, xs ++ ys, ?_, hclocks.append hclocks', ?_, fun r'' hd => ?_⟩
    · rw [Drive.andThen_going, htrace', ← List.append_assoc, ← htrace]
      rfl
    · rw [Mirror.visits_append, hwalk]
      exact List.forall_mem_append.2 ⟨hoff, hoff'⟩
    · obtain ⟨htap', hwalk', hcfg'⟩ := hgo' r'' hd
      exact ⟨htap', by rw [Mirror.walk_append, hwalk, hwalk'], hcfg'.trans hcfg⟩

theorem doTick_reaches {t : Tick} {r : Run} (h : (r.st.tap.next t.tms).OffPause) :
    (doTick t r).Reaches r (r.st.tap.next t.tms) := by
  rcases doTick_cases t r with hd | ⟨pre, p, post, hprims, hd⟩ <;> rw [hd]
  · refine ⟨_, _, rfl, clocks_tick t, List.forall_mem_singleton.2 h, ?_⟩
    rintro _ ⟨⟩
    exact ⟨rfl, rfl, rfl⟩
  · refine Drive.reaches_ended ?_ (clocks_of_cut_tick hprims) nofun
    rw [← List.append_assoc, ← Run.foldl_performed_trace]
    rfl

theorem doTicks_reaches {ts : List Tick} {r : Run} (h : ∀ x ∈ r.st.tap.visits (ts.map Tick.tms), x.OffPause) :
    (doTicks ts r).Reaches r (r.st.tap.walk (ts.map Tick.tms)) := by
  induction ts generalizing r with
  | nil => exact Drive.reaches_of_same rfl rfl rfl rfl
  | cons t rest ih =>
    obtain ⟨hfirst, hrest⟩ := List.forall_mem_cons.1 h
    refine (doTick_reaches hfirst).andThen fun r' htap _ => ?_
    have hend : r.st.tap.walk ((t :: rest).map Tick.tms) = r'.st.tap.walk (rest.map Tick.tms) := by
      rw [htap]
      rfl
    rw [hend]
    exact ih (by rw [htap]; exact hrest)

/-- A scan from an idle state comes to Run-Test/Idle, or a pin failure cuts its walk short (R117, R206). -/
theorem scan_reaches (kind : ScanKind) {v : Bits} {r : Run} (hv : 1 ≤ v.length) (hm : r.st.IdleTap) :
    (scan kind v r).Reaches r (.known .runTestIdle) := by
  have hvisits := scanTicks_visits r.st.cfg.bitOrder kind hv hm
  have hwalk := scanTicks_walk r.st.cfg.bitOrder kind r.st.tap v hv hm
  have hoff := scanVisits_offPause kind r.st.tap v.length
  rw [scanTicks, List.append_assoc, List.map_append] at hvisits hwalk
  rw [← hvisits, Mirror.visits_append] at hoff
  obtain ⟨hin, hout⟩ := List.forall_mem_append.1 hoff
  rw [Mirror.walk_append] at hwalk
  refine (doTicks_reaches hin).andThen fun r' htap hcfg => ?_
  rw [← htap, ← hcfg] at hout hwalk
  rw [← hwalk]
  exact doTicks_reaches hout

/-- The reset sequence comes to Test-Logic-Reset from every known state off Pause and Exit2 (R118, R119). -/
theorem resetSeq_reaches {r : Run} (hn : 5 ≤ r.st.cfg.resetTcks) {t : TapState} (ht : r.st.tap = .known t)
    (hoff : r.st.tap.OffPause) : (resetSeq r).Reaches r (.known .testLogicReset) := by
  have htms : (resetTicks r.st.cfg).map Tick.tms = List.replicate r.st.cfg.resetTcks true := List.map_replicate
  have hwalk : r.st.tap.walk ((resetTicks r.st.cfg).map Tick.tms) = .known .testLogicReset := by
    rw [htms, ht, t.walk_replicate_true hn]
  have hticks : (doTicks (resetTicks r.st.cfg) r).Reaches r (.known .testLogicReset) := by
    rw [← hwalk]
    exact doTicks_reaches (by rw [htms]; exact hoff.visits_replicate_true _)
  refine hticks.andThen fun r' htap _ => ?_
  exact Drive.reaches_of_same htap rfl rfl rfl

theorem idleWait_reaches (k : Nat) {r : Run} (hm : r.st.tap = .known .runTestIdle) :
    (idleWait k r).Reaches r (.known .runTestIdle) := by
  have hstay : (Mirror.known .runTestIdle).next false = .known .runTestIdle := rfl
  have htms : (idleTicks k).map Tick.tms = List.replicate k false := List.map_replicate
  have hwalk : r.st.tap.walk ((idleTicks k).map Tick.tms) = .known .runTestIdle := by
    rw [htms, hm, Mirror.walk_replicate hstay]
  rw [← hwalk]
  refine doTicks_reaches fun x hx => ?_
  rw [htms, hm, Mirror.visits_replicate hstay] at hx
  rw [List.eq_of_mem_replicate hx]
  decide

theorem bridgeSelect_reaches {code : Bits} {r : Run} (hv : 1 ≤ code.length) (hm : r.st.IdleTap) :
    (bridgeSelect code r).Reaches r (.known .runTestIdle) := by
  refine (scan_reaches .ir hv hm).andThen fun r' htap _ => ?_
  split_ifs
  · exact Drive.reaches_of_same htap htap rfl rfl
  · exact Drive.reaches_of_same htap htap rfl rfl

/-! ## The states that each command enters -/

theorem claimPins_reaches (r : Run) : (claimPins r).Reaches r r.st.tap := by
  unfold claimPins
  split_ifs
  · exact Drive.reaches_of_same rfl rfl rfl rfl
  · rcases doPrim_cases (.set .tck false) { r with st := { r.st with claimed := true } } with ⟨-, hd⟩ | ⟨-, hd⟩ <;>
      rw [hd]
    · refine ⟨_, _, rfl, clocks_of_ne_toggle (by decide), nofun, ?_⟩
      rintro _ ⟨⟩
      exact ⟨rfl, rfl, rfl⟩
    · exact Drive.reaches_ended rfl (clocks_of_ne_toggle (by decide)) nofun

theorem tapResetDrive_reaches {s : State} (hv : s.cfg.valid = true) (hm : s.IdleTap) :
    s.tapResetDrive.Reaches s.begin (.known .testLogicReset) := by
  refine (claimPins_reaches s.begin).andThen fun r htap hcfg => ?_
  have hn : 5 ≤ r.st.cfg.resetTcks := by rw [hcfg]; exact (Config.bounds_of_valid hv).1
  rcases hm with hm | hm
  · exact resetSeq_reaches hn (htap.trans hm) (by rw [htap.trans hm]; decide)
  · exact resetSeq_reaches hn (htap.trans hm) (by rw [htap.trans hm]; decide)

theorem writeScans_reaches (addr word : Word) {r : Run} (hv : r.st.cfg.valid = true) (hm : r.st.IdleTap) :
    (writeScans addr word r).Reaches r (.known .runTestIdle) := by
  obtain ⟨-, -, -, hir, hwr, -, -, hwl, -⟩ := Config.bounds_of_valid hv
  refine (bridgeSelect_reaches (by omega) hm).andThen fun r₁ htap₁ hcfg₁ => ?_
  have hlen : 1 ≤ (wrPayload r₁.st.cfg addr word).length := by rw [length_wrPayload, hcfg₁]; omega
  exact (scan_reaches .dr hlen (.inr htap₁)).andThen fun r₂ htap₂ _ => idleWait_reaches _ htap₂

theorem selectReadData_reaches {r : Run} (hv : r.st.cfg.valid = true) (hm : r.st.tap = .known .runTestIdle) :
    (selectReadData r).Reaches r (.known .runTestIdle) := by
  obtain ⟨-, -, -, hir, -, -, hdata, -⟩ := Config.bounds_of_valid hv
  unfold selectReadData
  split
  · exact Drive.reaches_of_same hm hm rfl rfl
  · next d hd =>
    have hlen := hdata d hd
    exact bridgeSelect_reaches (by omega) (.inr hm)

theorem readScans_reaches (addr : Word) {r : Run} (hv : r.st.cfg.valid = true) (hm : r.st.IdleTap) :
    (readScans addr r).Reaches r (.known .runTestIdle) := by
  obtain ⟨-, -, -, hir, -, hrd, -, -, hrl, -⟩ := Config.bounds_of_valid hv
  have hlen : ∀ {r' : Run}, r'.st.cfg = r.st.cfg → 1 ≤ (rdPayload r'.st.cfg addr).length := by
    intro r' hcfg
    rw [length_rdPayload, hcfg]
    omega
  refine (bridgeSelect_reaches (by omega) hm).andThen fun r₁ htap₁ hcfg₁ => ?_
  refine (scan_reaches .dr (hlen hcfg₁) (.inr htap₁)).andThen fun r₂ htap₂ hcfg₂ => ?_
  refine (idleWait_reaches _ htap₂).andThen fun r₃ htap₃ hcfg₃ => ?_
  have hcfg₃' : r₃.st.cfg = r.st.cfg := hcfg₃.trans (hcfg₂.trans hcfg₁)
  refine (selectReadData_reaches (by rw [hcfg₃']; exact hv) htap₃).andThen fun r₄ htap₄ hcfg₄ => ?_
  exact scan_reaches .dr (hlen (hcfg₄.trans hcfg₃')) (.inr htap₄)

/-- What the clock pulses between two states show takes the mirror through none of the four states of
R121. -/
def State.KeepsOffPause (s t : State) : Prop := ∀ x ∈ s.tap.visits (wireTms (newEvents s t)), x.OffPause

/-- Events without a clock pulse move no mirror. -/
theorem State.keepsOffPause_of_clocks_nil {s t : State} {es : List PinEvent} (htrace : t.trace = s.trace ++ es)
    (h : Clocks es []) : s.KeepsOffPause t := by
  rw [State.KeepsOffPause, newEvents_of_append htrace, h.wireTms_eq]
  nofun

theorem State.keepsOffPause_of_trace_eq {s t : State} (h : t.trace = s.trace) : s.KeepsOffPause t :=
  State.keepsOffPause_of_clocks_nil (es := []) (by rw [h, List.append_nil]) Clocks.nil

theorem State.keepsOffPause_of_tap_unknown {s : State} (t : State) (h : s.tap = .unknown) : s.KeepsOffPause t := by
  intro x hx
  rw [h] at hx
  rw [Mirror.visits_unknown _ x hx]
  decide

theorem Drive.Reaches.finish_keepsOffPause {s : State} {m : Mirror} {d : Drive} (h : d.Reaches s.begin m)
    (data : State → RespData) : s.KeepsOffPause (d.finish data) := by
  obtain ⟨es, tms, htrace, hclocks, hoff, -⟩ := h
  have hfinish : (d.finish data).trace = s.trace ++ es := by cases d <;> exact htrace
  rw [State.KeepsOffPause, newEvents_of_append hfinish, hclocks.wireTms_eq]
  exact hoff

theorem State.tapReset_keepsOffPause {s : State} (hv : s.cfg.valid = true) (hm : s.IdleTap) :
    s.KeepsOffPause s.tapReset := by
  unfold State.tapReset
  split_ifs
  · exact (tapResetDrive_reaches hv hm).finish_keepsOffPause _
  · exact State.keepsOffPause_of_trace_eq rfl

theorem one_le_of_shiftLengthOk {c : Config} {n : Nat} (h : shiftLengthOk c n = true) : 1 ≤ n := by
  rw [shiftLengthOk, Bool.and_eq_true] at h
  obtain ⟨hn, -⟩ := h
  exact of_decide_eq_true hn

theorem State.rawShift_keepsOffPause {s : State} (kind : ScanKind) (v : Bits) (hm : s.IdleTap) :
    s.KeepsOffPause (s.rawShift kind v) := by
  unfold State.rawShift
  split_ifs with hlen
  · exact State.keepsOffPause_of_trace_eq rfl
  · have hv : 1 ≤ v.length := one_le_of_shiftLengthOk (by simpa using hlen)
    exact (scan_reaches kind hv hm).finish_keepsOffPause _
  · exact State.keepsOffPause_of_trace_eq rfl

/-- A write on hardware, from an idle mirror (R160). -/
theorem State.hwWrite_keepsOffPause {s : State} (addr word : Word) (hv : s.cfg.valid = true) (hm : s.IdleTap) :
    s.KeepsOffPause (s.hwWrite addr word) := by
  unfold State.hwWrite
  split_ifs
  · exact State.keepsOffPause_of_trace_eq rfl
  · exact State.keepsOffPause_of_trace_eq rfl
  · exact (writeScans_reaches (r := s.begin) addr word hv hm).finish_keepsOffPause _

/-- A read on hardware, from an idle mirror (R170). -/
theorem State.hwRead_keepsOffPause {s : State} (addr : Word) (hv : s.cfg.valid = true) (hm : s.IdleTap) :
    s.KeepsOffPause (s.hwRead addr) := by
  unfold State.hwRead
  split_ifs
  · exact State.keepsOffPause_of_trace_eq rfl
  · exact State.keepsOffPause_of_trace_eq rfl
  · exact (readScans_reaches (r := s.begin) addr hv hm).finish_keepsOffPause _

/-- Under `EMUL` a write performs no primitive (R57). -/
theorem State.emulWrite_trace (s : State) (addr word : Word) : (s.emulWrite addr word).trace = s.trace := by
  unfold State.emulWrite
  split_ifs <;> rfl

/-- Under `EMUL` a read performs no primitive (R57). -/
theorem State.emulRead_trace (s : State) (addr : Word) : (s.emulRead addr).trace = s.trace := by
  unfold State.emulRead
  split_ifs <;> rfl

/-- Releasing a line shows no clock pulse, whether it succeeds or not (R140). -/
theorem releaseStep_clocks (r : Run) (line : Line) :
    ∃ es, (releaseStep r line).st.trace = r.st.trace ++ es ∧ Clocks es [] := by
  unfold releaseStep
  split_ifs
  · exact ⟨_, Run.performed_trace r _, clocks_of_ne_toggle nofun⟩
  · exact ⟨_, rfl, clocks_of_ne_toggle nofun⟩

theorem State.release_keepsOffPause (s : State) : s.KeepsOffPause s.release := by
  by_cases hc : (s.claimed && s.pinsReady) = true
  · obtain ⟨es₁, htrace₁, hclocks₁⟩ := releaseStep_clocks s.begin .tck
    obtain ⟨es₂, htrace₂, hclocks₂⟩ := releaseStep_clocks (releaseStep s.begin .tck) .tms
    obtain ⟨es₃, htrace₃, hclocks₃⟩ := releaseStep_clocks (releaseStep (releaseStep s.begin .tck) .tms) .tdi
    have htrace : s.release.trace = s.trace ++ es₁ ++ es₂ ++ es₃ := by
      rw [State.release, if_pos hc]
      exact htrace₃.trans (by rw [htrace₂, htrace₁]; rfl)
    rw [List.append_assoc, List.append_assoc] at htrace
    exact State.keepsOffPause_of_clocks_nil htrace (hclocks₁.append (hclocks₂.append hclocks₃))
  · exact State.keepsOffPause_of_trace_eq (by rw [State.release, if_neg hc]; rfl)

/-- Every command from an idle mirror keeps off Pause and Exit2 (R121). -/
theorem exec_keepsOffPause {i : Instr} {s t : State} (hv : s.cfg.valid = true) (hm : s.IdleTap)
    (h : exec i s = .next t) : s.KeepsOffPause t := by
  cases i with
  | tapReset => cases h; exact State.tapReset_keepsOffPause hv hm
  | shiftIr v => cases h; exact State.rawShift_keepsOffPause .ir v hm
  | shiftDr v => cases h; exact State.rawShift_keepsOffPause .dr v hm
  | axiWrite addr word =>
    cases h
    cases s.cfg.backend with
    | hw => exact State.hwWrite_keepsOffPause addr word hv hm
    | emul => exact State.keepsOffPause_of_trace_eq (s.emulWrite_trace addr word)
  | axiRead addr =>
    cases h
    cases s.cfg.backend with
    | hw => exact State.hwRead_keepsOffPause addr hv hm
    | emul => exact State.keepsOffPause_of_trace_eq (s.emulRead_trace addr)
  | release => cases h; exact s.release_keepsOffPause

/-- Settles O22: an unknown mirror stays unknown, and from an idle one every command keeps off the four. -/
theorem noCommandEntersPauseOrExit2 : Obligations.NoCommandEntersPauseOrExit2 := by
  intro i s t hv htap h
  rcases htap with hunknown | hidle
  · exact State.keepsOffPause_of_tap_unknown t hunknown
  · exact exec_keepsOffPause hv hidle h

end Sys2Proof.Machine
end

section
/-!
PROOFS of the family 41_tap_commands: what readiness asks for (spec/60_exceptions.md R204), the raw scans in a
live session (spec/41_tap_commands.md R134, R135, R137), and which commands open a session (R132).
-/
namespace Sys2Proof.Machine

/-! ## The checks before a raw scan -/

theorem State.sessionReady_iff {s : State} :
    s.sessionReady = true ↔ s.claimed = true ∧ s.tap ≠ .unknown ∧ s.pinsReady = true := by
  simp [State.sessionReady, and_assoc]

theorem shiftLengthOk_iff {c : Config} {n : Nat} : shiftLengthOk c n = true ↔ 1 ≤ n ∧ n ≤ c.maxShiftBits := by
  simp [shiftLengthOk]

/-- An idle mirror is a known one. -/
theorem State.IdleTap.ne_unknown {s : State} (h : s.IdleTap) : s.tap ≠ .unknown := by
  rcases h with h | h <;> rw [h] <;> nofun

/-! ## A raw scan in a live session -/

/-- The scan goes through, and the command answers with its capture (R134, R137). -/
theorem State.rawShift_of_liveSession {s : State} {v : Bits} (kind : ScanKind) (hs : s.LiveSession)
    (hv : 1 ≤ v.length ∧ v.length ≤ s.cfg.maxShiftBits) :
    s.rawShift kind v = Spec.answered (Spec.afterScan s 1 v (Spec.scanPrims s kind s.tap v)) .ok
      (.capture (captured s 1 v.length)) := by
  obtain ⟨hclaimed, hidle, hpins, hok⟩ := hs
  have hlen : shiftLengthOk s.cfg v.length = true := shiftLengthOk_iff.mpr hv
  have hready : s.sessionReady = true := State.sessionReady_iff.mpr ⟨hclaimed, hidle.ne_unknown, hpins⟩
  have hscan : scan kind v s.begin = .going (s.begin.scanned kind v) := scan_going kind v s.begin hok hv.1 hidle
  rw [State.rawShift, hlen, Bool.not_true, if_neg Bool.false_ne_true, if_pos hready, hscan]
  rfl

/-! ## The pairing of the bits captured with the bits presented -/

theorem length_captured (s : State) (first n : Nat) : (captured s first n).length = n := by
  rw [captured, List.length_map, List.length_range]

theorem bit_captured (s : State) (first : Nat) {n j : Nat} (hj : j < n) :
    (captured s first n).bit j = s.tdoAt (first + shiftIndex s.cfg.bitOrder n j) := by
  simp [captured, Bits.bit, hj]

theorem presented_eq_shiftIndex (order : BitOrder) (n i : Nat) : Spec.presented order n i = shiftIndex order n i := by
  cases order <;> rfl

/-- The bit presented on shift tick `i` is captured from that tick's read (R116, R135). -/
theorem bit_captured_presented (s : State) (first : Nat) {n i : Nat} (hi : i < n) :
    (captured s first n).bit (Spec.presented s.cfg.bitOrder n i) = s.tdoAt (first + i) := by
  rw [presented_eq_shiftIndex, bit_captured s first (shiftIndex_lt _ hi), shiftIndex_shiftIndex _ hi]

/-- After the ticks of the walk-in, the clock pulse `i` of a scan shows the bit presented on shift tick `i`
(R96, R116). -/
theorem wireTdi_scanPrims_getElem? (s : State) (kind : ScanKind) (m : Mirror) {v : Bits} {i : Nat}
    (hi : i < v.length) :
    (wireTdi (okEvents (Spec.scanPrims s kind m v)))[(Spec.walkInTms kind m).length + i]? =
      some (v.bit (Spec.presented s.cfg.bitOrder v.length i)) := by
  have hwalk : ((Spec.walkInTms kind m).map fun _ => false).length = (Spec.walkInTms kind m).length :=
    List.length_map _
  rw [Spec.scanPrims, wireTdi_okTicks, scanTicks_tdi, List.append_assoc,
    List.getElem?_append_right (by omega), hwalk, Nat.add_sub_cancel_left,
    List.getElem?_append_left (by simpa using hi), List.getElem?_map, List.getElem?_range hi]
  rfl

/-- Settles O26, by the scan that goes through, and by the pairing of its capture with the bits on TDI. -/
theorem shiftsCompleteWithTheirCapture : Obligations.ShiftsCompleteWithTheirCapture := by
  intro s v hs hv
  have hshift (kind : ScanKind) := State.rawShift_of_liveSession kind hs hv
  refine ⟨congrArg _ (hshift .ir), congrArg _ (hshift .dr), length_captured s 1 v.length, fun i hi => ⟨?_, ?_, ?_⟩⟩
  · rw [bit_captured_presented s 1 hi, Nat.add_comm]
  · exact wireTdi_scanPrims_getElem? s .ir s.tap hi
  · exact wireTdi_scanPrims_getElem? s .dr s.tap hi

/-! ## Which commands open a session -/

/-- From `s` to `t` no session is opened: an unknown mirror stays unknown, and unclaimed pins stay unclaimed
(R132). -/
def State.OpensNoSession (s t : State) : Prop :=
  (s.tap = .unknown → t.tap = .unknown) ∧ (s.claimed = false → t.claimed = false)

theorem State.opensNoSession_of_eq {s t : State} (htap : t.tap = s.tap) (hclaimed : t.claimed = s.claimed) :
    s.OpensNoSession t := ⟨htap.trans, hclaimed.trans⟩

/-- What passes the readiness check runs in a session that exists already, so it opens none. -/
theorem State.opensNoSession_of_sessionReady {s : State} (t : State) (h : s.sessionReady = true) :
    s.OpensNoSession t := by
  obtain ⟨hclaimed, htap, -⟩ := State.sessionReady_iff.mp h
  exact ⟨fun hunknown => absurd hunknown htap, fun hfalse => absurd (hfalse.symm.trans hclaimed) Bool.false_ne_true⟩

theorem State.rawShift_opensNoSession (s : State) (kind : ScanKind) (v : Bits) :
    s.OpensNoSession (s.rawShift kind v) := by
  unfold State.rawShift
  split_ifs with hlen hready
  · exact State.opensNoSession_of_eq rfl rfl
  · exact State.opensNoSession_of_sessionReady _ hready
  · exact State.opensNoSession_of_eq rfl rfl

/-- A write on hardware answers before its scans, or runs in a session. -/
theorem State.hwWrite_opensNoSession (s : State) (addr word : Word) : s.OpensNoSession (s.hwWrite addr word) := by
  unfold State.hwWrite
  cases hready : s.sessionReady with
  | false => exact State.opensNoSession_of_eq rfl rfl
  | true => exact State.opensNoSession_of_sessionReady _ hready

/-- A read on hardware answers before its scans, or runs in a session. -/
theorem State.hwRead_opensNoSession (s : State) (addr : Word) : s.OpensNoSession (s.hwRead addr) := by
  unfold State.hwRead
  cases hready : s.sessionReady with
  | false => exact State.opensNoSession_of_eq rfl rfl
  | true => exact State.opensNoSession_of_sessionReady _ hready

/-- Under `EMUL` a write touches the buffer alone. -/
theorem State.emulWrite_opensNoSession (s : State) (addr word : Word) :
    s.OpensNoSession (s.emulWrite addr word) := by
  unfold State.emulWrite
  split_ifs <;> exact State.opensNoSession_of_eq rfl rfl

theorem State.emulRead_opensNoSession (s : State) (addr : Word) : s.OpensNoSession (s.emulRead addr) := by
  unfold State.emulRead
  split_ifs <;> exact State.opensNoSession_of_eq rfl rfl

theorem State.release_opensNoSession (s : State) : s.OpensNoSession s.release := by
  obtain ⟨htap, hclaimed, -⟩ := release_frame s
  exact ⟨fun _ => htap, fun _ => hclaimed⟩

/-- Settles O28: the scans run only in a session that exists, RELEASE ends it, and what answers without a
primitive leaves it alone. -/
theorem onlyTapResetOpensASession : Obligations.OnlyTapResetOpensASession := by
  intro i s t hi h
  cases i with
  | tapReset => exact absurd rfl hi
  | shiftIr v => cases h; exact s.rawShift_opensNoSession .ir v
  | shiftDr v => cases h; exact s.rawShift_opensNoSession .dr v
  | axiWrite addr word =>
    cases h
    cases s.cfg.backend with
    | hw => exact s.hwWrite_opensNoSession addr word
    | emul => exact s.emulWrite_opensNoSession addr word
  | axiRead addr =>
    cases h
    cases s.cfg.backend with
    | hw => exact s.hwRead_opensNoSession addr
    | emul => exact s.emulRead_opensNoSession addr
  | release => cases h; exact s.release_opensNoSession

end Sys2Proof.Machine
end

section
/-!
PROOFS of the family 42_axi_bridge: the address phase and the payloads (spec/42_axi_bridge.md R150 to R152, R161).
-/
namespace Sys2Proof.Machine

/-! ## The address phase (R150) -/

@[simp] theorem addrPhase_byte (addr : Word) : addrPhase .byte addr = addr := rfl

@[simp] theorem toNat_addrPhase_word (addr : Word) : (addrPhase .word addr).toNat = addr.toNat / 4 := by
  rw [addrPhase, BitVec.toNat_ushiftRight, Nat.shiftRight_eq_div_pow]

@[simp] theorem phaseAddr_byte (p : Word) : phaseAddr .byte p = p := rfl

theorem toNat_phaseAddr_word (p : Word) : (phaseAddr .word p).toNat = p.toNat * 4 % 2 ^ 32 := by
  rw [phaseAddr, BitVec.toNat_shiftLeft, Nat.shiftLeft_eq]

/-- The target gives an aligned address back: what WORD drops are the two bits that alignment makes 0. -/
theorem phaseAddr_addrPhase (form : AddrPhaseForm) {addr : Word} (ha : addr.toNat % 4 = 0) :
    phaseAddr form (addrPhase form addr) = addr := by
  cases form with
  | byte => rfl
  | word =>
    apply BitVec.eq_of_toNat_eq
    calc (phaseAddr .word (addrPhase .word addr)).toNat
      _ = addr.toNat / 4 * 4 % 2 ^ 32 := by rw [toNat_phaseAddr_word, toNat_addrPhase_word]
      _ = addr.toNat % 2 ^ 32 := by rw [Nat.div_mul_cancel (Nat.dvd_of_mod_eq_zero ha)]
      _ = addr.toNat := Nat.mod_eq_of_lt addr.isLt

/-- The target's inverse makes the address phase injective on aligned addresses. -/
theorem addrPhase_injective_of_aligned {form : AddrPhaseForm} {a b : Word} (ha : a.toNat % 4 = 0)
    (hb : b.toNat % 4 = 0) (h : addrPhase form a = addrPhase form b) : a = b := by
  rw [← phaseAddr_addrPhase form ha, h, phaseAddr_addrPhase form hb]

/-- Settles O35: both forms, and the injectivity that the target's inverse gives. -/
theorem addressPhaseIsInvertible : Obligations.AddressPhaseIsInvertible :=
  ⟨fun addr => ⟨addrPhase_byte addr, toNat_addrPhase_word addr⟩,
    fun _ _ _ => addrPhase_injective_of_aligned,
    fun form _ => phaseAddr_addrPhase form⟩

/-! ## A 32-bit field of a vector -/

theorem fieldBit_add (lsb : Nat) (w : Word) {i : Nat} (hi : i < 32) : fieldBit lsb w (lsb + i) = w.getLsbD i := by
  simp [fieldBit, hi]

theorem fieldBit_outside {lsb j : Nat} (w : Word) (hj : j < lsb ∨ lsb + 32 ≤ j) : fieldBit lsb w j = false := by
  have hrange : ¬ (lsb ≤ j ∧ j < lsb + 32) := by omega
  rw [fieldBit, ← Bool.decide_and, decide_eq_false hrange, Bool.false_and]

/-- A word is the slice of a vector that shows its bits. -/
theorem wordAt_eq_of_bit {v : Bits} {lo : Nat} {w : Word} (h : ∀ i < 32, v.bit (lo + i) = w.getLsbD i) :
    v.wordAt lo = w :=
  BitVec.eq_of_getLsbD_eq fun i hi => (Bits.getLsbD_wordAt v lo i hi).trans (h i hi)

/-! ## The write payload (R151) -/

/-- The two fields are disjoint, so the word leaves the address field alone. -/
theorem wordAt_wrPayload_addr {c : Config} (hc : c.valid = true) (addr word : Word) :
    (wrPayload c addr word).wordAt c.axiWrAddrLsb = addrPhase c.addrPhaseForm addr := by
  obtain ⟨-, -, -, -, -, -, -, -, -, -, haddr, hdisjoint, -, -⟩ := Config.bounds_of_valid hc
  refine wordAt_eq_of_bit fun i hi => ?_
  have hlen : c.axiWrAddrLsb + i < c.axiWrDrLen := by omega
  have hdata : fieldBit c.axiWrDataLsb word (c.axiWrAddrLsb + i) = false := fieldBit_outside word (by omega)
  rw [bit_wrPayload, hdata, fieldBit_add _ _ hi, decide_eq_true hlen, Bool.true_and, Bool.or_false]

/-- The two fields are disjoint, so the address phase leaves the data field alone. -/
theorem wordAt_wrPayload_data {c : Config} (hc : c.valid = true) (addr word : Word) :
    (wrPayload c addr word).wordAt c.axiWrDataLsb = word := by
  obtain ⟨-, -, -, -, -, -, -, -, -, hdata, -, hdisjoint, -, -⟩ := Config.bounds_of_valid hc
  refine wordAt_eq_of_bit fun i hi => ?_
  have hlen : c.axiWrDataLsb + i < c.axiWrDrLen := by omega
  have haddr : fieldBit c.axiWrAddrLsb (addrPhase c.addrPhaseForm addr) (c.axiWrDataLsb + i) = false :=
    fieldBit_outside _ (by omega)
  rw [bit_wrPayload, haddr, fieldBit_add _ _ hi, decide_eq_true hlen, Bool.true_and, Bool.false_or]

theorem bit_wrPayload_outside {c : Config} {j : Nat} (addr word : Word)
    (haddr : j < c.axiWrAddrLsb ∨ c.axiWrAddrLsb + 32 ≤ j) (hdata : j < c.axiWrDataLsb ∨ c.axiWrDataLsb + 32 ≤ j) :
    (wrPayload c addr word).bit j = false := by
  rw [bit_wrPayload, fieldBit_outside _ haddr, fieldBit_outside _ hdata, Bool.or_false, Bool.and_false]

/-! ## The read payload and the retrieve capture (R152) -/

theorem wordAt_rdPayload_addr {c : Config} (hc : c.valid = true) (addr : Word) :
    (rdPayload c addr).wordAt c.axiRdAddrLsb = addrPhase c.addrPhaseForm addr := by
  obtain ⟨-, -, -, -, -, -, -, -, -, -, -, -, haddr, -⟩ := Config.bounds_of_valid hc
  refine wordAt_eq_of_bit fun i hi => ?_
  have hlen : c.axiRdAddrLsb + i < c.axiRdDrLen := by omega
  rw [bit_rdPayload, fieldBit_add _ _ hi, decide_eq_true hlen, Bool.true_and]

theorem bit_rdPayload_outside {c : Config} {j : Nat} (addr : Word)
    (haddr : j < c.axiRdAddrLsb ∨ c.axiRdAddrLsb + 32 ≤ j) : (rdPayload c addr).bit j = false := by
  rw [bit_rdPayload, fieldBit_outside _ haddr, Bool.and_false]

theorem getLsbD_rdWord (c : Config) (r : Bits) {j : Nat} (hj : j < 32) :
    (rdWord c r).getLsbD j = r.bit (c.axiRdDataLsb + j) :=
  Bits.getLsbD_wordAt r c.axiRdDataLsb j hj

/-! ## The payloads' statements -/

/-- Settles O36, from what the slices of each payload are and the bits outside its fields. -/
theorem payloadLayouts : Obligations.PayloadLayouts := by
  intro c addr word hc
  refine ⟨⟨length_wrPayload c addr word, wordAt_wrPayload_addr hc addr word, wordAt_wrPayload_data hc addr word, ?_⟩,
    ⟨length_rdPayload c addr, wordAt_rdPayload_addr hc addr, ?_⟩, ?_, ?defaults⟩
  · exact fun _ => bit_wrPayload_outside addr word
  · exact fun _ => bit_rdPayload_outside addr
  · exact fun r _ => getLsbD_rdWord c r
  case defaults => decide

/-- Settles O37: equal payloads have equal fields, and the address phase is injective on aligned addresses. -/
theorem writePayloadsAreDistinct : Obligations.WritePayloadsAreDistinct := by
  intro c a b v w hc ha hb h
  have hphase : addrPhase c.addrPhaseForm a = addrPhase c.addrPhaseForm b := by
    rw [← wordAt_wrPayload_addr hc a v, h, wordAt_wrPayload_addr hc b w]
  have hword : v = w := by
    rw [← wordAt_wrPayload_data hc a v, h, wordAt_wrPayload_data hc b w]
  exact ⟨addrPhase_injective_of_aligned ha hb hphase, hword⟩

end Sys2Proof.Machine
end

section
/-!
PROOFS of the family 60_exceptions: a pin failure inside a command (spec/60_exceptions.md R206).
-/
namespace Sys2Proof.Machine

/-! ## The one failed event of a command -/

theorem ok_of_mem_okEvents {ps : List PinPrim} {e : PinEvent} (h : e ∈ okEvents ps) : e.ok = true := by
  obtain ⟨p, -, rfl⟩ := List.mem_map.mp h
  rfl

/-- Where the last event is the only failed one, a failed event is the last. -/
theorem eq_of_okEvents_append_failed {ps : List PinPrim} {x e : PinEvent} {before after : List PinEvent}
    (h : okEvents ps ++ [x] = before ++ e :: after) (he : e.ok = false) : before = okEvents ps ∧ after = [] := by
  rcases List.eq_nil_or_concat after with rfl | ⟨init, last, rfl⟩
  · obtain ⟨hbefore, -⟩ := List.append_inj' h rfl
    exact ⟨hbefore.symm, rfl⟩
  · rw [List.concat_eq_append, ← List.cons_append, ← List.append_assoc] at h
    obtain ⟨hok, -⟩ := List.append_inj' h rfl
    have hmem : e ∈ okEvents ps := by rw [hok]; simp
    rw [ok_of_mem_okEvents hmem] at he
    cases he

/-- The levels that the obligations recompute from the events are the model's (R24, R26). -/
theorem levels_okEvents (ps : List PinPrim) (l : Level × Level × Level) :
    Spec.levels (okEvents ps) l = linesAfter ps l := by
  induction ps generalizing l with
  | nil => rfl
  | cons p rest ih =>
    have hcons : Spec.levels (okEvents (p :: rest)) l = Spec.levels (okEvents rest) (p.onLines l) := by
      cases p with
      | set line b => cases line <;> rfl
      | readTdo => rfl
      | toggle => rfl
      | releaseLine line => cases line <;> rfl
    rw [hcons, ih]
    rfl

/-! ## How a command with a failed event has ended -/

/-- The primitives before a failed one have succeeded, it is the last, and the command has ended with it
(R206). -/
theorem Drive.Sound.eq_ended_of_failed_event {r : Run} {d : Drive} {before after : List PinEvent} {e : PinEvent}
    (h : d.Sound r) (htrace : d.run.st.trace = r.st.trace ++ (before ++ e :: after)) (he : e.ok = false) :
    ∃ r', d = .ended .ioError r' ∧ after = [] ∧ r'.st.tap = .unknown ∧
      r'.st.lines = Spec.levels before r.st.lines := by
  obtain ⟨-, ps, hlines, -, hend⟩ := h
  have hnot (hall : d.run.st.trace = r.st.trace ++ okEvents ps) : False := by
    have hmem : e ∈ okEvents ps := by
      rw [List.append_cancel_left (hall.symm.trans htrace)]
      simp
    rw [ok_of_mem_okEvents hmem] at he
    cases he
  cases d with
  | going r' => exact (hnot hend.1).elim
  | ended st r' =>
    rcases hend with ⟨rfl, htap, -, p, hfail⟩ | ⟨-, hall⟩
    · rw [List.append_assoc] at hfail
      obtain ⟨rfl, rfl⟩ := eq_of_okEvents_append_failed (List.append_cancel_left (hfail.symm.trans htrace)) he
      exact ⟨r', rfl, rfl, htap, by rw [levels_okEvents]; exact hlines⟩
    · exact (hnot hall).elim

theorem Drive.finish_trace (d : Drive) (data : State → RespData) : (d.finish data).trace = d.run.st.trace := by
  cases d <;> rfl

/-- Settles O32, by the ways a command can go: an answer without a primitive has no event, and a drive with a
failed one has ended with it. -/
theorem pinFailureEndsTheCommand : Obligations.PinFailureEndsTheCommand := by
  intro i s t before after e hi h hev he
  obtain ⟨-, -, -, -, -, -, -, -, -, es, htrace⟩ := exec_frame h
  rw [newEvents_of_append htrace] at hev
  rw [hev] at htrace
  rcases exec_cases h with ⟨hrelease, -⟩ | ⟨-, st, data, m, f, rfl, -⟩ | ⟨-, d, data, rfl, hd⟩
  · exact absurd hrelease hi
  · have hempty : s.trace = s.trace ++ (before ++ e :: after) := htrace
    simp at hempty
  · rw [Drive.finish_trace] at htrace
    obtain ⟨r', rfl, hlast, htap, hlines⟩ := hd.eq_ended_of_failed_event htrace he
    exact ⟨hlast, htap, rfl, hlines⟩

end Sys2Proof.Machine
end

section
/-!
PROOFS of the family 60_exceptions: the readiness check (spec/60_exceptions.md R204).
-/
namespace Sys2Proof.Machine

/-! ## What it is to lack readiness -/

theorem notReady_tapReset_iff {s : State} : Spec.notReady .tapReset s ↔ s.pinsReady = false := by
  simp [Spec.notReady, Spec.needsSession]

theorem State.sessionReady_eq_false_iff {s : State} :
    s.sessionReady = false ↔ ¬(s.pinsReady = true ∧ s.claimed = true ∧ s.tap ≠ .unknown) := by
  rw [← Bool.not_eq_true, State.sessionReady_iff]
  tauto

theorem notReady_iff_of_needsSession {i : Instr} {s : State} (h : Spec.needsSession s.cfg i) :
    Spec.notReady i s ↔ s.sessionReady = false := by
  have hreset : i ≠ .tapReset := by
    rintro rfl
    exact h
  rw [State.sessionReady_eq_false_iff]
  simp [Spec.notReady, hreset, h]

/-! ## A command that lacks readiness -/

theorem exec_axiWrite_hw {s : State} (hb : s.cfg.backend = .hw) (addr word : Word) :
    exec (.axiWrite addr word) s = .next (s.hwWrite addr word) := by
  simp only [exec, execAxiWrite, hb]

theorem exec_axiRead_hw {s : State} (hb : s.cfg.backend = .hw) (addr : Word) :
    exec (.axiRead addr) s = .next (s.hwRead addr) := by
  simp only [exec, execAxiRead, hb]

theorem State.tapReset_of_not_pinsReady {s : State} (h : s.pinsReady = false) :
    s.tapReset = s.respond .deviceNotReady .none := by
  simp [State.tapReset, h]

theorem State.rawShift_of_not_sessionReady {s : State} {v : Bits} (kind : ScanKind)
    (hv : shiftLengthOk s.cfg v.length = true) (h : s.sessionReady = false) :
    s.rawShift kind v = s.respond .deviceNotReady .none := by
  simp [State.rawShift, hv, h]

theorem State.hwWrite_of_not_sessionReady {s : State} (addr word : Word) (h : s.sessionReady = false) :
    s.hwWrite addr word = s.respond .deviceNotReady .none := by
  simp [State.hwWrite, h]

theorem State.hwRead_of_not_sessionReady {s : State} (addr : Word) (h : s.sessionReady = false) :
    s.hwRead addr = s.respond .deviceNotReady .none := by
  simp [State.hwRead, h]

/-- A session command that lacks readiness answers so and does nothing else (R204). -/
theorem exec_of_not_sessionReady {i : Instr} {s : State} (hw : i.wf s.cfg = true)
    (hn : Spec.needsSession s.cfg i) (h : s.sessionReady = false) :
    exec i s = .next (s.respond .deviceNotReady .none) := by
  cases i with
  | tapReset | release => exact hn.elim
  | shiftIr v => exact congrArg _ (State.rawShift_of_not_sessionReady .ir hw h)
  | shiftDr v => exact congrArg _ (State.rawShift_of_not_sessionReady .dr hw h)
  | axiWrite addr word => rw [exec_axiWrite_hw hn, State.hwWrite_of_not_sessionReady addr word h]
  | axiRead addr => rw [exec_axiRead_hw hn, State.hwRead_of_not_sessionReady addr h]

/-! ## A command that has its readiness -/

/-- The state holds no answer `DEVICE_NOT_READY`. -/
def State.FoundReady (t : State) : Prop := t.resp.map Response.status ≠ some .deviceNotReady

theorem State.foundReady_respond {s : State} {st : Status} (data : RespData) (h : st ≠ .deviceNotReady) :
    (s.respond st data).FoundReady := fun heq => h (Option.some.inj heq)

/-- A command that performs its part ends with `OK`, `IO_ERROR` or `PROTOCOL_ERROR` (R200). -/
theorem Drive.Sound.finish_foundReady {r : Run} {d : Drive} (h : d.Sound r) (data : State → RespData) :
    (d.finish data).FoundReady := by
  cases d with
  | going r' => exact State.foundReady_respond _ (by decide)
  | ended e r' =>
    obtain ⟨-, ps, -, -, ⟨rfl, -⟩ | ⟨rfl, -⟩⟩ := h <;> exact State.foundReady_respond _ (by decide)

theorem State.tapReset_foundReady {s : State} (h : s.pinsReady = true) : s.tapReset.FoundReady := by
  rw [State.tapReset, if_pos h]
  exact (tapResetDrive_sound s).finish_foundReady _

theorem State.rawShift_foundReady {s : State} (kind : ScanKind) (v : Bits) (h : s.sessionReady = true) :
    (s.rawShift kind v).FoundReady := by
  unfold State.rawShift
  split_ifs
  · exact State.foundReady_respond _ (by decide)
  · exact (scan_sound kind v s.begin).finish_foundReady _

theorem State.hwWrite_foundReady {s : State} (addr word : Word) (h : s.sessionReady = true) :
    (s.hwWrite addr word).FoundReady := by
  rw [State.hwWrite, h, Bool.not_true, if_neg Bool.false_ne_true]
  split_ifs
  · exact State.foundReady_respond _ (by decide)
  · exact (writeScans_sound addr word s.begin).finish_foundReady _

theorem State.hwRead_foundReady {s : State} (addr : Word) (h : s.sessionReady = true) :
    (s.hwRead addr).FoundReady := by
  rw [State.hwRead, h, Bool.not_true, if_neg Bool.false_ne_true]
  split_ifs
  · exact State.foundReady_respond _ (by decide)
  · exact (readScans_sound addr s.begin).finish_foundReady _

theorem State.emulWrite_foundReady (s : State) (addr word : Word) : (s.emulWrite addr word).FoundReady := by
  unfold State.emulWrite
  split_ifs <;> exact State.foundReady_respond _ (by decide)

theorem State.emulRead_foundReady (s : State) (addr : Word) : (s.emulRead addr).FoundReady := by
  unfold State.emulRead
  split_ifs <;> exact State.foundReady_respond _ (by decide)

/-- A command that lacks nothing it needs does not answer `DEVICE_NOT_READY` (R204). -/
theorem exec_foundReady {i : Instr} {s t : State} (hr : ¬ Spec.notReady i s) (h : exec i s = .next t) :
    t.FoundReady := by
  have hsession (hn : Spec.needsSession s.cfg i) : s.sessionReady = true := by
    rwa [notReady_iff_of_needsSession hn, Bool.not_eq_false] at hr
  cases i with
  | tapReset =>
    cases h
    rw [notReady_tapReset_iff, Bool.not_eq_false] at hr
    exact State.tapReset_foundReady hr
  | shiftIr v => cases h; exact State.rawShift_foundReady .ir v (hsession trivial)
  | shiftDr v => cases h; exact State.rawShift_foundReady .dr v (hsession trivial)
  | axiWrite addr word =>
    cases hb : s.cfg.backend with
    | hw => rw [exec_axiWrite_hw hb] at h; cases h; exact State.hwWrite_foundReady addr word (hsession hb)
    | emul => rw [exec_axiWrite_emul hb] at h; cases h; exact s.emulWrite_foundReady addr word
  | axiRead addr =>
    cases hb : s.cfg.backend with
    | hw => rw [exec_axiRead_hw hb] at h; cases h; exact State.hwRead_foundReady addr (hsession hb)
    | emul => rw [exec_axiRead_emul hb] at h; cases h; exact s.emulRead_foundReady addr
  | release => cases h; exact State.foundReady_respond _ (by decide)

/-- Settles O29: TAP_RESET and the session commands answer `DEVICE_NOT_READY` and nothing else without their
readiness, no command does with it, and a known mirror of R38 is an idle one. -/
theorem readinessIsCheckedFirst : Obligations.ReadinessIsCheckedFirst := by
  intro i s hw
  refine ⟨fun hr => ?lacking, fun t hr h => exec_foundReady hr h, fun hn hr htap => ?idle⟩
  case lacking =>
    rw [← State.respond_eq_answered]
    rcases hr with ⟨rfl, hpins⟩ | ⟨hn, hsession⟩
    · exact congrArg _ (State.tapReset_of_not_pinsReady hpins)
    · exact exec_of_not_sessionReady hw hn (State.sessionReady_eq_false_iff.mpr hsession)
  case idle =>
    rw [notReady_iff_of_needsSession hn, Bool.not_eq_false, State.sessionReady_iff] at hr
    obtain ⟨-, hknown, -⟩ := hr
    exact htap.resolve_left hknown

end Sys2Proof.Machine
end

section
/-!
PROOFS of the family 60_exceptions: an IR capture outside the check pattern (spec/60_exceptions.md R207).
-/
namespace Sys2Proof.Machine

/-! ## The capture check -/

/-- The check that the model tests is that of R153. -/
theorem captureOk_iff_checkPasses {c : Config} {capture : Bits} :
    captureOk c.irCaptureCheck capture = true ↔ Spec.checkPasses c capture := by
  unfold captureOk Spec.checkPasses
  cases c.irCaptureCheck with
  | none => simp
  | some check => simp

theorem captureOk_eq_false_iff {c : Config} {capture : Bits} :
    captureOk c.irCaptureCheck capture = false ↔ ¬ Spec.checkPasses c capture := by
  rw [← captureOk_iff_checkPasses, Bool.not_eq_true]

/-! ## The scans that a failed check ends -/

/-- Where no primitive fails, no part of a command ends with `IO_ERROR`. -/
theorem Drive.Sound.ne_ioError {r r' : Run} {d : Drive} (h : d.Sound r) (hok : ∀ k, r.st.okAt k = true) :
    d ≠ .ended .ioError r' := by
  rintro rfl
  exact nomatch h.no_pinFailure hok

/-- A write ends with the access port's scan (R207). -/
theorem writeScans_of_check_fails (addr word : Word) {r : Run} (hv : r.st.cfg.valid = true) (hm : r.st.IdleTap)
    (hok : r.st.NoPinFault) (hcheck : ¬ Spec.checkPasses r.st.cfg (captured r.st (r.reads + 1) r.st.cfg.irLen)) :
    writeScans addr word r = .ended .protocolError (r.scanned .ir r.st.cfg.irAxiWrite) := by
  rw [← captureOk_eq_false_iff] at hcheck
  rcases writeScans_cases addr word r hv hm with ⟨hc, -⟩ | ⟨-, h⟩ | ⟨r', h⟩
  · exact absurd (hc.symm.trans hcheck) (by decide)
  · exact h
  · exact absurd h ((writeScans_sound addr word r).ne_ioError hok)

/-- A read ends with the access port's scan (R207). -/
theorem readScans_of_check_fails (addr : Word) {r : Run} (hv : r.st.cfg.valid = true) (hm : r.st.IdleTap)
    (hok : r.st.NoPinFault) (hcheck : ¬ Spec.checkPasses r.st.cfg (captured r.st (r.reads + 1) r.st.cfg.irLen)) :
    readScans addr r = .ended .protocolError (r.scanned .ir r.st.cfg.irAxiRead) := by
  rw [← captureOk_eq_false_iff] at hcheck
  rcases readScans_cases addr r hv hm with ⟨hc, -⟩ | ⟨-, h⟩ | ⟨_, -, hc, -⟩ | ⟨r', h⟩
  · exact absurd (hc.symm.trans hcheck) (by decide)
  · exact h
  · exact absurd (hc.symm.trans hcheck) (by decide)
  · exact absurd h ((readScans_sound addr r).ne_ioError hok)

/-- The reads of a read's address phase are one per bit of its two scans (R116). -/
theorem Run.addressed_reads (addr : Word) {r : Run} (hv : r.st.cfg.valid = true) :
    (r.addressed addr).reads = r.reads + r.st.cfg.irLen + r.st.cfg.axiRdDrLen := by
  obtain ⟨-, -, -, -, -, hcode, -⟩ := Config.bounds_of_valid hv
  have hreads : (r.addressed addr).reads =
      r.reads + r.st.cfg.irAxiRead.length + (rdPayload r.st.cfg addr).length := rfl
  rw [hreads, hcode, length_rdPayload]

theorem Run.keeps_addressed (addr : Word) (r : Run) : r.st.Keeps (r.addressed addr).st := rfl

/-- A read whose access port passes the check ends with the data instruction's scan (R207). -/
theorem readScans_of_data_check_fails (addr : Word) {r : Run} {d : Bits} (hv : r.st.cfg.valid = true)
    (hm : r.st.IdleTap) (hok : r.st.NoPinFault) (hd : r.st.cfg.irAxiReadData = some d)
    (hport : Spec.checkPasses r.st.cfg (captured r.st (r.reads + 1) r.st.cfg.irLen))
    (hdata : ¬ Spec.checkPasses r.st.cfg
      (captured r.st (r.reads + r.st.cfg.irLen + r.st.cfg.axiRdDrLen + 1) r.st.cfg.irLen)) :
    readScans addr r = .ended .protocolError ((r.addressed addr).scanned .ir d) := by
  rw [← captureOk_iff_checkPasses] at hport
  rw [← captureOk_eq_false_iff, ← Run.addressed_reads addr hv, ← (r.keeps_addressed addr).captured_eq] at hdata
  rcases readScans_cases addr r hv hm with ⟨-, hc, -⟩ | ⟨hc, -⟩ | ⟨d', hd', -, -, h⟩ | ⟨r', h⟩
  · exact absurd ((hc d hd).symm.trans hdata) (by decide)
  · exact absurd (hport.symm.trans hc) (by decide)
  · cases hd.symm.trans hd'
    exact h
  · exact absurd h ((readScans_sound addr r).ne_ioError hok)

/-! ## The state those scans leave -/

theorem State.begin_scanned_st (s : State) (kind : ScanKind) (v : Bits) :
    (s.begin.scanned kind v).st = Spec.afterScan s 1 v (Spec.scanPrims s kind s.tap v) := rfl

/-- The data instruction's scan after the address phase: the block holds what that scan leaves, and the trace
all four parts (R154). -/
theorem State.begin_addressed_scanned_st (addr : Word) {s : State} {d : Bits} (hv : s.cfg.valid = true) :
    ((s.begin.addressed addr).scanned .ir d).st = Spec.afterScan s (s.cfg.irLen + s.cfg.axiRdDrLen + 1) d
      (Spec.scanPrims s .ir s.tap s.cfg.irAxiRead ++
        Spec.scanPrims s .dr (.known .runTestIdle) (rdPayload s.cfg addr) ++
        ticksPrims (idleTicks s.cfg.readWaitTcks) ++
        Spec.scanPrims s .ir (.known .runTestIdle) d) := by
  have hreads := Run.addressed_reads (r := s.begin) addr hv
  rw [State.begin_reads, State.begin_st, Nat.zero_add] at hreads
  simp only [Run.scanned, Spec.afterScan, hreads, (s.begin.keeps_addressed addr).captured_eq, okEvents_append,
    ← List.append_assoc]
  rfl

/-! ## The commands -/

theorem State.LiveSession.sessionReady {s : State} (h : s.LiveSession) : s.sessionReady = true := by
  obtain ⟨hclaimed, hidle, hpins, -⟩ := h
  exact State.sessionReady_iff.mpr ⟨hclaimed, hidle.ne_unknown, hpins⟩

theorem State.hwWrite_of_liveSession {s : State} {addr : Word} (word : Word) (hs : s.LiveSession)
    (ha : addr.toNat % 4 = 0) :
    s.hwWrite addr word = (writeScans addr word s.begin).finish fun _ => .none := by
  simp [State.hwWrite, hs.sessionReady, aligned_iff.mpr ha]

theorem State.hwRead_of_liveSession {s : State} {addr : Word} (hs : s.LiveSession) (ha : addr.toNat % 4 = 0) :
    s.hwRead addr = (readScans addr s.begin).finish fun t => .word (rdWord t.cfg t.srIn) := by
  simp [State.hwRead, hs.sessionReady, aligned_iff.mpr ha]

/-- Settles O33: past the readiness and the alignment check, the scans end where the check fails, and the
command answers `PROTOCOL_ERROR` from there. -/
theorem captureCheckEndsTheCommand : Obligations.CaptureCheckEndsTheCommand := by
  refine ⟨fun s addr word hv hb hs ha hcheck => ⟨?write, ?read⟩, fun s addr d hv hb hs ha hd hport hdata => ?data⟩
  case write =>
    rw [exec_axiWrite_hw hb, State.hwWrite_of_liveSession word hs ha]
    obtain ⟨-, hidle, -, hok⟩ := hs
    rw [writeScans_of_check_fails addr word (r := s.begin) hv hidle hok hcheck, Drive.finish_ended,
      State.begin_scanned_st, State.respond_eq_answered]
    rfl
  case read =>
    rw [exec_axiRead_hw hb, State.hwRead_of_liveSession hs ha]
    obtain ⟨-, hidle, -, hok⟩ := hs
    rw [readScans_of_check_fails addr (r := s.begin) hv hidle hok hcheck, Drive.finish_ended,
      State.begin_scanned_st, State.respond_eq_answered]
    rfl
  case data =>
    rw [exec_axiRead_hw hb, State.hwRead_of_liveSession hs ha]
    obtain ⟨-, hidle, -, hok⟩ := hs
    rw [readScans_of_data_check_fails addr (r := s.begin) hv hidle hok hd hport (by simpa using hdata),
      Drive.finish_ended, State.begin_addressed_scanned_st addr hv, State.respond_eq_answered]

end Sys2Proof.Machine
end

section
/-!
PROOFS of the family 70_reset_and_hazards: the ticks and the pin primitives of every command
(spec/70_reset_and_hazards.md R256).
-/
namespace Sys2Proof.Machine

/-! ## Counting the ticks between two states -/

/-- From `s` to `t` exactly `ticks` ticks take place, none cut short, of which `shifted` sample TDO. -/
def State.Takes (s t : State) (ticks shifted : Nat) : Prop :=
  ∃ ts : List Tick, t.trace = s.trace ++ okEvents (ticksPrims ts) ∧ ts.length = ticks ∧
    (ts.filter fun u => u.sample.isSome).length = shifted

theorem State.Takes.of_trace_eq {s t : State} (h : t.trace = s.trace) : s.Takes t 0 0 :=
  ⟨[], by simp [h, ticksPrims, okEvents], rfl, rfl⟩

theorem State.Takes.of_eq {s t : State} {a b m n : Nat} (h : s.Takes t a m) (ha : a = b) (hm : m = n) :
    s.Takes t b n := ha ▸ hm ▸ h

theorem State.Takes.trans {s t u : State} {a b m n : Nat} (h : s.Takes t a m) (h' : t.Takes u b n) :
    s.Takes u (a + b) (m + n) := by
  obtain ⟨ts, htrace, rfl, rfl⟩ := h
  obtain ⟨us, htrace', rfl, rfl⟩ := h'
  refine ⟨ts ++ us, ?_, List.length_append, by rw [List.filter_append, List.length_append]⟩
  rw [htrace', htrace, ticksPrims_append, okEvents_append, List.append_assoc]

/-- One clock pulse a tick, and three primitives a tick with one more where it samples (R113). -/
theorem State.Takes.counts {s t : State} {ticks shifted : Nat} (h : s.Takes t ticks shifted) :
    (wireTms (newEvents s t)).length = ticks ∧
      (newEvents s t).length = 3 * (wireTms (newEvents s t)).length + shifted := by
  obtain ⟨ts, htrace, rfl, rfl⟩ := h
  rw [newEvents_of_append htrace, wireTms_okTicks, List.length_map, length_okEvents, length_ticksPrims]
  exact ⟨rfl, rfl⟩

/-! ## The ticks of a scan, an idle wait and the bridge's scans -/

/-- The tick that leads from Test-Logic-Reset to Run-Test/Idle before a scan (R115). -/
def Mirror.extraTick (m : Mirror) : Nat := if m = .known .testLogicReset then 1 else 0

theorem Run.takes_scanned (kind : ScanKind) (v : Bits) (r : Run) : r.st.Takes (r.scanned kind v).st
    (Spec.scanLength kind v.length + r.st.tap.extraTick) v.length :=
  ⟨_, rfl, length_scanTicks r.st.cfg.bitOrder kind r.st.tap v, samples_scanTicks r.st.cfg.bitOrder kind r.st.tap v⟩

/-- A scan that starts in Run-Test/Idle takes no extra tick. -/
theorem Run.takes_scanned_of_runTestIdle (kind : ScanKind) (v : Bits) {r : Run}
    (hm : r.st.tap = .known .runTestIdle) :
    r.st.Takes (r.scanned kind v).st (Spec.scanLength kind v.length) v.length := by
  have h := r.takes_scanned kind v
  rwa [hm] at h

theorem Run.takes_waited (k : Nat) (r : Run) : r.st.Takes (r.waited k).st k 0 :=
  ⟨idleTicks k, rfl, List.length_replicate, by simp [idleTicks, Tick.plain]⟩

/-- The scans of a write: the port's code, the payload, and the wait (R154). -/
theorem Run.takes_wrote (addr word : Word) {r : Run} (hv : r.st.cfg.valid = true) :
    r.st.Takes (r.wrote addr word).st
      ((r.st.cfg.irLen + 6) + (r.st.cfg.axiWrDrLen + 5) + r.st.cfg.writeWaitTcks + r.st.tap.extraTick)
      (r.st.cfg.irLen + r.st.cfg.axiWrDrLen) := by
  obtain ⟨-, -, -, -, hcode, -⟩ := Config.bounds_of_valid hv
  have hselect := r.takes_scanned .ir r.st.cfg.irAxiWrite
  have hpayload := Run.takes_scanned_of_runTestIdle .dr (wrPayload r.st.cfg addr word)
    (r := r.scanned .ir r.st.cfg.irAxiWrite) rfl
  have hall := (hselect.trans hpayload).trans (Run.takes_waited r.st.cfg.writeWaitTcks _)
  rw [hcode, length_wrPayload] at hall
  refine hall.of_eq ?_ rfl
  simp only [Spec.scanLength]
  omega

/-- The address phase of a read: the port's code, the payload, and the wait (R154). -/
theorem Run.takes_addressed (addr : Word) {r : Run} (hv : r.st.cfg.valid = true) :
    r.st.Takes (r.addressed addr).st
      ((r.st.cfg.irLen + 6) + (r.st.cfg.axiRdDrLen + 5) + r.st.cfg.readWaitTcks + r.st.tap.extraTick)
      (r.st.cfg.irLen + r.st.cfg.axiRdDrLen) := by
  obtain ⟨-, -, -, -, -, hcode, -⟩ := Config.bounds_of_valid hv
  have hselect := r.takes_scanned .ir r.st.cfg.irAxiRead
  have hpayload := Run.takes_scanned_of_runTestIdle .dr (rdPayload r.st.cfg addr)
    (r := r.scanned .ir r.st.cfg.irAxiRead) rfl
  have hall := (hselect.trans hpayload).trans (Run.takes_waited r.st.cfg.readWaitTcks _)
  rw [hcode, length_rdPayload] at hall
  refine hall.of_eq ?_ rfl
  simp only [Spec.scanLength]
  omega

/-- The data instruction's scan, where the parameter is set (R154). -/
theorem Run.takes_dataSelected {r : Run} (hv : r.st.cfg.valid = true) (hm : r.st.tap = .known .runTestIdle) :
    r.st.Takes r.dataSelected.st (if r.st.cfg.irAxiReadData = none then 0 else r.st.cfg.irLen + 6)
      (if r.st.cfg.irAxiReadData = none then 0 else r.st.cfg.irLen) := by
  obtain ⟨-, -, -, -, -, -, hdata, -⟩ := Config.bounds_of_valid hv
  unfold Run.dataSelected
  cases hd : r.st.cfg.irAxiReadData with
  | none => exact State.Takes.of_trace_eq rfl
  | some d =>
    have h := Run.takes_scanned_of_runTestIdle .ir d hm
    rwa [hdata d hd] at h

/-- The scans of a read: the address phase, the data instruction, and the retrieve scan (R154, R172). -/
theorem Run.takes_readBack (addr : Word) {r : Run} (hv : r.st.cfg.valid = true) :
    r.st.Takes (r.readBack addr).st
      ((r.st.cfg.irLen + 6) + 2 * (r.st.cfg.axiRdDrLen + 5) + r.st.cfg.readWaitTcks +
        (if r.st.cfg.irAxiReadData = none then 0 else r.st.cfg.irLen + 6) + r.st.tap.extraTick)
      (r.st.cfg.irLen + 2 * r.st.cfg.axiRdDrLen +
        (if r.st.cfg.irAxiReadData = none then 0 else r.st.cfg.irLen)) := by
  obtain ⟨-, htap⟩ := (r.addressed addr).dataSelected_frame rfl
  have hdata := Run.takes_dataSelected (r := r.addressed addr) hv rfl
  rw [(r.keeps_addressed addr).cfg_eq] at hdata
  have hretrieve := Run.takes_scanned_of_runTestIdle .dr (rdPayload r.st.cfg addr) htap
  have hall := ((Run.takes_addressed addr hv).trans hdata).trans hretrieve
  rw [length_rdPayload] at hall
  refine hall.of_eq ?_ (by omega)
  simp only [Spec.scanLength]
  omega

/-! ## The session commands that answer `OK` -/

/-- The state holds an answer `OK`. -/
abbrev State.AnsweredOk (t : State) : Prop := t.resp.map Response.status = some .ok

theorem State.not_answeredOk_respond {s : State} {st : Status} {data : RespData} (h : st ≠ .ok) :
    ¬ (s.respond st data).AnsweredOk := fun heq => h (Option.some.inj heq)

theorem State.LiveSession.idleTap {s : State} (h : s.LiveSession) : s.IdleTap := by
  obtain ⟨-, hidle, -, -⟩ := h
  exact hidle

/-- The ticks of a raw scan (R134, R137). -/
theorem State.takes_rawShift {s : State} (kind : ScanKind) (v : Bits) (hs : s.LiveSession)
    (hok : (s.rawShift kind v).AnsweredOk) :
    s.Takes (s.rawShift kind v) (Spec.scanLength kind v.length + s.tap.extraTick) v.length := by
  cases hlen : shiftLengthOk s.cfg v.length with
  | false =>
    rw [State.rawShift, hlen] at hok
    exact absurd hok (State.not_answeredOk_respond (by decide))
  | true =>
    rw [State.rawShift_of_liveSession kind hs (shiftLengthOk_iff.mp hlen)]
    exact s.begin.takes_scanned kind v

/-- A write on hardware answers `OK` only past its checks, with its scans (R160). -/
theorem State.hwWrite_of_answeredOk {s : State} {addr word : Word} (hok : (s.hwWrite addr word).AnsweredOk) :
    s.hwWrite addr word = (writeScans addr word s.begin).finish fun _ => .none := by
  unfold State.hwWrite at hok ⊢
  split_ifs at hok ⊢
  · exact absurd hok (State.not_answeredOk_respond (by decide))
  · exact absurd hok (State.not_answeredOk_respond (by decide))
  · rfl

/-- A read on hardware answers `OK` only past its checks, with its scans (R170). -/
theorem State.hwRead_of_answeredOk {s : State} {addr : Word} (hok : (s.hwRead addr).AnsweredOk) :
    s.hwRead addr = (readScans addr s.begin).finish fun t => .word (rdWord t.cfg t.srIn) := by
  unfold State.hwRead at hok ⊢
  split_ifs at hok ⊢
  · exact absurd hok (State.not_answeredOk_respond (by decide))
  · exact absurd hok (State.not_answeredOk_respond (by decide))
  · rfl

/-- The ticks of a write on hardware: only scans that all go through answer `OK` (R160). -/
theorem State.takes_hwWrite {s : State} (addr word : Word) (hv : s.cfg.valid = true) (hm : s.IdleTap)
    (hok : (s.hwWrite addr word).AnsweredOk) :
    s.Takes (s.hwWrite addr word)
      ((s.cfg.irLen + 6) + (s.cfg.axiWrDrLen + 5) + s.cfg.writeWaitTcks + s.tap.extraTick)
      (s.cfg.irLen + s.cfg.axiWrDrLen) := by
  have hscans := State.hwWrite_of_answeredOk hok
  rw [hscans] at hok ⊢
  rcases writeScans_cases addr word s.begin hv hm with ⟨-, h⟩ | ⟨-, h⟩ | ⟨r', h⟩ <;> rw [h] at hok ⊢
  · exact Run.takes_wrote (r := s.begin) addr word hv
  · exact absurd hok (State.not_answeredOk_respond (by decide))
  · exact absurd hok (State.not_answeredOk_respond (by decide))

/-- The ticks of a read on hardware: only scans that all go through answer `OK` (R170). -/
theorem State.takes_hwRead {s : State} (addr : Word) (hv : s.cfg.valid = true) (hm : s.IdleTap)
    (hok : (s.hwRead addr).AnsweredOk) :
    s.Takes (s.hwRead addr)
      ((s.cfg.irLen + 6) + 2 * (s.cfg.axiRdDrLen + 5) + s.cfg.readWaitTcks +
        (if s.cfg.irAxiReadData = none then 0 else s.cfg.irLen + 6) + s.tap.extraTick)
      (s.cfg.irLen + 2 * s.cfg.axiRdDrLen + (if s.cfg.irAxiReadData = none then 0 else s.cfg.irLen)) := by
  have hscans := State.hwRead_of_answeredOk hok
  rw [hscans] at hok ⊢
  rcases readScans_cases addr s.begin hv hm with ⟨-, -, h⟩ | ⟨-, h⟩ | ⟨_, -, -, -, h⟩ | ⟨r', h⟩ <;>
    rw [h] at hok ⊢
  · exact Run.takes_readBack (r := s.begin) addr hv
  · exact absurd hok (State.not_answeredOk_respond (by decide))
  · exact absurd hok (State.not_answeredOk_respond (by decide))
  · exact absurd hok (State.not_answeredOk_respond (by decide))

/-! ## TAP_RESET and RELEASE -/

theorem Run.keeps_claimedPins (r : Run) : r.st.Keeps r.claimedPins.st := by
  unfold Run.claimedPins
  split_ifs <;> rfl

/-- A claim drives TCK low, once (R131). -/
theorem Run.claimedPins_trace (r : Run) : r.claimedPins.st.trace =
    r.st.trace ++ okEvents (if r.st.claimed then [] else [.set .tck false]) := by
  unfold Run.claimedPins
  split_ifs
  · exact (List.append_nil _).symm
  · rfl

/-- Without a pin failure, TAP_RESET's events are the claim's and those of the reset sequence (R131). -/
theorem State.newEvents_tapReset {s : State} (hv : s.cfg.valid = true) (hp : s.pinsReady = true)
    (hok : s.NoPinFault) : newEvents s s.tapReset =
      okEvents (if s.claimed then [] else [.set .tck false]) ++ okEvents (ticksPrims (resetTicks s.cfg)) := by
  have hdrive : s.tapResetDrive = .going s.begin.claimedPins.wasReset := by
    rcases tapResetDrive_cases s hv with h | ⟨r', h⟩
    · exact h
    · exact absurd h ((tapResetDrive_sound s).ne_ioError hok)
  have hreset : s.tapReset = s.tapResetDrive.finish fun _ => .none := by rw [State.tapReset, if_pos hp]; rfl
  have htrace : s.begin.claimedPins.wasReset.st.trace =
      s.begin.claimedPins.st.trace ++ okEvents (ticksPrims (resetTicks s.begin.claimedPins.st.cfg)) := rfl
  refine newEvents_of_append ?_
  rw [hreset, Drive.finish_trace, hdrive, Drive.run_going, htrace, Run.claimedPins_trace,
    s.begin.keeps_claimedPins.cfg_eq, List.append_assoc, State.begin_st]

theorem length_resetTicks_prims (c : Config) : (ticksPrims (resetTicks c)).length = 3 * c.resetTcks := by
  rw [length_ticksPrims]
  simp [resetTicks, Tick.plain]

/-- One pulse a tick, and the claim shows none (R118, R131). -/
theorem State.counts_tapReset {s : State} (hv : s.cfg.valid = true) (hp : s.pinsReady = true)
    (hok : s.NoPinFault) : (wireTms (newEvents s s.tapReset)).length = s.cfg.resetTcks ∧
      (newEvents s s.tapReset).length = 3 * s.cfg.resetTcks + (if s.claimed then 0 else 1) := by
  have hpulses : (wireTms (okEvents (ticksPrims (resetTicks s.cfg)))).length = s.cfg.resetTcks := by
    rw [wireTms_okTicks, List.length_map, resetTicks, List.length_replicate]
  rw [State.newEvents_tapReset hv hp hok, List.length_append, length_okEvents, length_okEvents,
    length_resetTicks_prims, Nat.add_comm]
  cases s.claimed <;> exact ⟨hpulses, rfl⟩

/-- Releasing a line is one primitive, whether it succeeds or not (R140). -/
theorem releaseStep_event (r : Run) (line : Line) :
    ∃ ok, (releaseStep r line).st.trace = r.st.trace ++ [{ prim := .releaseLine line, ok := ok }] := by
  unfold releaseStep
  split_ifs
  · exact ⟨true, r.performed_trace _⟩
  · exact ⟨false, rfl⟩

/-- With the pins claimed, RELEASE tries to release each of the three lines and does no more (R140). -/
theorem State.newEvents_release {s : State} (hc : s.claimed = true) (hp : s.pinsReady = true) :
    ∃ a b c, newEvents s s.release = [{ prim := .releaseLine .tck, ok := a },
      { prim := .releaseLine .tms, ok := b }, { prim := .releaseLine .tdi, ok := c }] := by
  obtain ⟨a, ha⟩ := releaseStep_event s.begin .tck
  obtain ⟨b, hb⟩ := releaseStep_event (releaseStep s.begin .tck) .tms
  obtain ⟨c, hc'⟩ := releaseStep_event (releaseStep (releaseStep s.begin .tck) .tms) .tdi
  have htrace : s.release.trace = (releasePins s.begin).st.trace := by
    rw [State.release, hc, hp]
    rfl
  refine ⟨a, b, c, newEvents_of_append ?_⟩
  rw [htrace, releasePins, hc', hb, ha, List.append_assoc, List.append_assoc]
  rfl

theorem newEvents_eq_nil_of_trace_eq {s t : State} (h : t.trace = s.trace) : newEvents s t = [] :=
  newEvents_of_append (by rw [h, List.append_nil])

/-- Settles O43, by the ticks that each part of a command takes; only scans that all go through answer `OK`. -/
theorem tickCounts : Obligations.TickCounts := by
  refine ⟨fun s t hv hp hok h => ?reset, fun i s t ticks shifted hv hb hs h hok hcount => ?session,
    fun s t hc hp h => ?release, fun s t addr word hb h => ?emul⟩
  case reset =>
    cases h
    exact State.counts_tapReset hv hp hok
  case session =>
    cases i with
    | tapReset | release => exact hcount.elim
    | shiftIr v =>
      obtain ⟨rfl, rfl⟩ := hcount
      cases h
      exact (State.takes_rawShift .ir v hs hok).counts
    | shiftDr v =>
      obtain ⟨rfl, rfl⟩ := hcount
      cases h
      exact (State.takes_rawShift .dr v hs hok).counts
    | axiWrite addr word =>
      obtain ⟨rfl, rfl⟩ := hcount
      rw [exec_axiWrite_hw hb] at h
      cases h
      exact (State.takes_hwWrite addr word hv hs.idleTap hok).counts
    | axiRead addr =>
      obtain ⟨rfl, rfl⟩ := hcount
      rw [exec_axiRead_hw hb] at h
      cases h
      exact (State.takes_hwRead addr hv hs.idleTap hok).counts
  case release =>
    cases h
    obtain ⟨a, b, c, hev⟩ := State.newEvents_release hc hp
    rw [hev]
    exact ⟨Clocks.wireTms_eq (clocks_of_no_toggle (by simp)), rfl⟩
  case emul =>
    rw [exec_axiWrite_emul hb, exec_axiRead_emul hb] at h
    rcases h with h | h <;> cases h
    · exact newEvents_eq_nil_of_trace_eq (s.emulWrite_trace addr word)
    · exact newEvents_eq_nil_of_trace_eq (s.emulRead_trace addr)

end Sys2Proof.Machine
end

section
/-!
PROOFS: that decoding and encoding undo each other (spec/30_encoding.md R81 to R88, D36).
-/
namespace Sys2Proof

/-! ## Decoding what was encoded -/

/-- The header word of an admitted length and its operand words decode by the operands alone, whatever words
follow (R85, R88). -/
theorem decode_headerWord {c : Config} {o : Opcode} {len : Nat} {ws : List Word} (rest : List Word)
    (hlen : len < 256) (hp : lengthProblem c o len = none) (hws : ws.length = operandWords o len) :
    decode c (headerWord o len :: (ws ++ rest)) = decodeOperands o len ws := by
  obtain ⟨-, hfield, -⟩ := Laws.headerWord_fields o len hlen
  have hl : operandWords o (headerLen (headerWord o len)) ≤ (ws ++ rest).length := by
    rw [hfield, ← hws, List.length_append]
    exact Nat.le_add_right _ _
  rw [decode_of_ok (Laws.checkHeader_headerWord c o len hlen hp) hl, hfield, ← hws, List.take_left]

/-- The operand words of a vector are that vector again (R83, R87). -/
theorem decodeShift_toWords (mk : Bits → Instr) (v : Bits) :
    decodeShift mk v.length v.toWords = .command (mk v) (1 + vectorWords v.length) := by
  have hspare := spareBitsClear_toWords v []
  have hvector := Bits.ofWords_toWords v []
  rw [List.append_nil] at hspare hvector
  rw [decodeShift, if_pos hspare, hvector]

/-- An admitted SHIFT length fits the header's field (R10, R86). -/
theorem shiftLength_lt {c : Config} {n : Nat} (hc : c.valid = true) (h : shiftLengthOk c n = true) : n < 256 := by
  obtain ⟨-, -, hmax, -⟩ := Config.bounds_of_valid hc
  obtain ⟨-, hn⟩ := Machine.shiftLengthOk_iff.mp h
  omega

theorem length_encode_shiftIr (v : Bits) : (encode (.shiftIr v)).length = 1 + vectorWords v.length := by
  rw [encode, List.length_cons, Bits.length_toWords, Nat.add_comm]

theorem length_encode_shiftDr (v : Bits) : (encode (.shiftDr v)).length = 1 + vectorWords v.length := by
  rw [encode, List.length_cons, Bits.length_toWords, Nat.add_comm]

/-- Settles O14, by the operands of each opcode after its header word. -/
theorem decodingUndoesEncoding : Obligations.DecodingUndoesEncoding := by
  intro c i rest hc hw
  cases i with
  | tapReset => exact decode_headerWord (ws := []) rest (by decide) rfl rfl
  | shiftIr v =>
    rw [length_encode_shiftIr, ← decodeShift_toWords]
    exact decode_headerWord rest (shiftLength_lt hc hw) (if_pos hw) (Bits.length_toWords v)
  | shiftDr v =>
    rw [length_encode_shiftDr, ← decodeShift_toWords]
    exact decode_headerWord rest (shiftLength_lt hc hw) (if_pos hw) (Bits.length_toWords v)
  | axiWrite addr word => exact decode_headerWord (ws := [addr, word]) rest (by decide) rfl rfl
  | axiRead addr => exact decode_headerWord (ws := [addr]) rest (by decide) rfl rfl
  | release => exact decode_headerWord (ws := []) rest (by decide) rfl rfl

/-! ## Encoding what was decoded -/

/-- A SHIFT's operand words are the encoding of the vector they carry: one vector has one encoding (D36). -/
theorem encode_of_decodeShift {mk : Bits → Instr} {n k : Nat} {ws : List Word} {i : Instr}
    (hl : ws.length = vectorWords n) (h : decodeShift mk n ws = .command i k) :
    ∃ v, i = mk v ∧ v.length = n ∧ v.toWords = ws ∧ k = 1 + ws.length := by
  obtain ⟨hspare, hi, hk⟩ := (decodeShift_eq_command mk n ws i k).mp h
  exact ⟨_, hi.symm, Bits.length_ofWords n ws, Bits.toWords_ofWords n ws hl hspare, by rw [hl, hk]⟩

/-- The command that operand words decode to is encoded as their header word and them. -/
theorem encode_of_decodeOperands {o : Opcode} {n k : Nat} {ws : List Word} {i : Instr}
    (hn : operandWords o n = ws.length) (hzero : o ≠ .shiftIr → o ≠ .shiftDr → n = 0)
    (h : decodeOperands o n ws = .command i k) : encode i = headerWord o n :: ws ∧ k = 1 + ws.length := by
  cases o with
  | shiftIr =>
    obtain ⟨v, rfl, rfl, hws, hk⟩ := encode_of_decodeShift hn.symm h
    exact ⟨by rw [encode, hws], hk⟩
  | shiftDr =>
    obtain ⟨v, rfl, rfl, hws, hk⟩ := encode_of_decodeShift hn.symm h
    exact ⟨by rw [encode, hws], hk⟩
  | tapReset | release =>
    obtain rfl := hzero nofun nofun
    obtain rfl := List.length_eq_zero_iff.mp hn.symm
    cases h
    exact ⟨rfl, rfl⟩
  | axiWrite =>
    obtain rfl := hzero nofun nofun
    obtain ⟨addr, word, rfl⟩ := List.length_eq_two.mp hn.symm
    cases h
    exact ⟨rfl, rfl⟩
  | axiRead =>
    obtain rfl := hzero nofun nofun
    obtain ⟨addr, rfl⟩ := List.length_eq_one_iff.mp hn.symm
    cases h
    exact ⟨rfl, rfl⟩

/-- Only a SHIFT has a length (R86 clause 4). -/
theorem headerLen_eq_zero {c : Config} {h : Word} {o : Opcode} (hc : checkHeader c h = .ok o)
    (hir : o ≠ .shiftIr) (hdr : o ≠ .shiftDr) : headerLen h = 0 := by
  obtain ⟨-, -, hl⟩ := (checkHeader_eq_ok c h o).mp hc
  rw [lengthProblem_eq_none] at hl
  simpa [hir, hdr] using hl

/-- Settles O15: a header that passes is the header word of its opcode and length, and the operand words are
those of the command they decode to. -/
theorem encodingUndoesDecoding : Obligations.EncodingUndoesDecoding := by
  intro c ws i n _ hd
  refine ⟨decode_command_wf hd, ?_⟩
  cases ws with
  | nil => cases hd
  | cons h rest =>
    obtain ⟨o, hc, hl, hop⟩ := decode_cons_eq_command hd
    have htake : (rest.take (operandWords o (headerLen h))).length = operandWords o (headerLen h) :=
      List.length_take_of_le hl
    obtain ⟨henc, hn⟩ := encode_of_decodeOperands htake.symm (headerLen_eq_zero hc) hop
    rw [htake] at hn
    refine ⟨by rw [hn, List.length_cons]; omega, ?_⟩
    rw [henc, hn, Nat.add_comm, List.take_succ_cons, ← eq_headerWord hc]

/-- Settles O16, by running the decoder on the words that the spec writes out. -/
theorem writtenOutWordsDecode : Obligations.WrittenOutWordsDecode := by
  refine ⟨?_, ?_, ?_, ?_, ?_, ?_, ?_⟩ <;> decide

end Sys2Proof
end

section
/-!
PROOFS: the emulation buffer's canonical form (spec/10_state.md section 2, notes/assumptions/12.md), and the
constraints of the construction parameters (spec/00_scope.md R10).
-/
namespace Sys2Proof.Machine

/-! ## A buffer in canonical form is its entries -/

/-- With rising addresses an entry is what the lookup of its address finds. -/
theorem Memory.mem_iff_lookup {m : Memory} (h : m.Pairwise fun p q => p.1 < q.1) (p : Host.Cell) :
    p ∈ m ↔ Memory.lookup m p.1 = some p.2 := by
  induction m with
  | nil => simp [Memory.lookup]
  | cons q rest ih =>
    obtain ⟨hfirst, hrest⟩ := List.pairwise_cons.mp h
    rw [List.mem_cons, ih hrest, Memory.lookup]
    by_cases hq : q.1 = p.1
    · have hnot : Memory.lookup rest p.1 ≠ some p.2 := fun hl => by
        have := hfirst p ((ih hrest).mpr hl)
        omega
      rw [if_pos hq, or_iff_left hnot, Option.some.injEq]
      exact ⟨fun hp => hp ▸ rfl, fun hb => Prod.ext hq.symm hb.symm⟩
    · rw [if_neg hq, or_iff_right fun hp : p = q => hq (hp ▸ rfl)]

/-- Settles O5: the bytes decide what each lookup finds, the lookups decide the entries, and the addresses
decide their order. -/
theorem buffersThatReadAlikeAreEqual : Obligations.BuffersThatReadAlikeAreEqual := by
  intro c m m' h h' hread
  have hlookup (a : Nat) : Memory.lookup m a = Memory.lookup m' a := by
    rw [Memory.lookup_of_wf c m h, Memory.lookup_of_wf c m' h', hread]
  obtain ⟨hrising, -⟩ := h
  obtain ⟨hrising', -⟩ := h'
  have hirrefl : Std.Irrefl fun p q : Host.Cell => p.1 < q.1 := ⟨fun p => lt_irrefl p.1⟩
  have hantisymm : Std.Antisymm fun p q : Host.Cell => p.1 < q.1 :=
    ⟨fun p q hpq hqp => absurd hqp (lt_asymm hpq)⟩
  refine List.Pairwise.eq_of_mem_iff hrising hrising' fun p => ?_
  rw [Memory.mem_iff_lookup hrising, Memory.mem_iff_lookup hrising', hlookup]

/-! ## The constraints of R10 -/

/-- The check `expect & ~mask = 0`, bit by bit. -/
theorem zipWith_andNot_all_iff {expect mask : Bits} (h : expect.length = mask.length) :
    ((List.zipWith (fun e m => e && !m) expect mask).all fun b => !b) = true ↔
      ∀ j, expect.bit j = true → mask.bit j = true := by
  induction expect generalizing mask with
  | nil => simp [Bits.bit]
  | cons e es ih =>
    cases mask with
    | nil => cases h
    | cons m ms =>
      have hbits : (∀ j, Bits.bit (e :: es) j = true → Bits.bit (m :: ms) j = true) ↔
          (e = true → m = true) ∧ ∀ j, Bits.bit es j = true → Bits.bit ms j = true :=
        ⟨fun hall => ⟨hall 0, fun j => hall (j + 1)⟩, fun hall j => by
          cases j with
          | zero => exact hall.1
          | succ j => exact hall.2 j⟩
      rw [hbits, List.zipWith_cons_cons, List.all_cons, Bool.and_eq_true, ih (Nat.succ.inj h)]
      cases e <;> simp

theorem captureCheckOk_iff {c : Config} : c.captureCheckOk = true ↔ ∀ expect mask,
    c.irCaptureCheck = some (expect, mask) → expect.length = c.irLen ∧ mask.length = c.irLen ∧
      ∀ j, expect.bit j = true → mask.bit j = true := by
  unfold Config.captureCheckOk
  cases hcheck : c.irCaptureCheck with
  | none => simp
  | some check =>
    obtain ⟨expect, mask⟩ := check
    simp only [Bool.and_eq_true, beq_iff_eq, Option.some.injEq, Prod.mk.injEq, and_imp, and_assoc]
    constructor
    · rintro ⟨he, hm, hall⟩ _ _ rfl rfl
      exact ⟨he, hm, (zipWith_andNot_all_iff (he.trans hm.symm)).mp hall⟩
    · intro hall
      obtain ⟨he, hm, hbits⟩ := hall expect mask rfl rfl
      exact ⟨he, hm, (zipWith_andNot_all_iff (he.trans hm.symm)).mpr hbits⟩

theorem codesOk_iff {c : Config} : c.codesOk = true ↔ (1 ≤ c.irLen ∧ c.irLen ≤ 255) ∧
    c.irAxiWrite.length = c.irLen ∧ c.irAxiRead.length = c.irLen ∧
      ∀ d, c.irAxiReadData = some d → d.length = c.irLen := by
  unfold Config.codesOk
  cases c.irAxiReadData <;> simp [and_assoc]

/-- Two fields of 32 bits are disjoint exactly when one lies below the other. -/
theorem fields_disjoint_iff {a b : Nat} :
    (∀ j, ¬((a ≤ j ∧ j ≤ a + 31) ∧ (b ≤ j ∧ j ≤ b + 31))) ↔ a + 32 ≤ b ∨ b + 32 ≤ a := by
  refine ⟨fun h => ?_, fun h j => by omega⟩
  have hmax := h (max a b)
  omega

theorem payloadsOk_iff {c : Config} : c.payloadsOk = true ↔
    (32 ≤ c.axiWrDrLen ∧ c.axiWrDrLen ≤ 255) ∧ (32 ≤ c.axiRdDrLen ∧ c.axiRdDrLen ≤ 255) ∧
    c.axiWrDataLsb + 32 ≤ c.axiWrDrLen ∧ c.axiWrAddrLsb + 32 ≤ c.axiWrDrLen ∧
    (∀ j, ¬((c.axiWrDataLsb ≤ j ∧ j ≤ c.axiWrDataLsb + 31) ∧ (c.axiWrAddrLsb ≤ j ∧ j ≤ c.axiWrAddrLsb + 31))) ∧
    c.axiRdAddrLsb + 32 ≤ c.axiRdDrLen ∧ c.axiRdDataLsb + 32 ≤ c.axiRdDrLen := by
  rw [fields_disjoint_iff]
  simp [Config.payloadsOk, and_assoc]

theorem bufferOk_iff {c : Config} : c.bufferOk = true ↔ (c.backend = .hw → c.emulInit = []) := by
  unfold Config.bufferOk
  cases c.backend <;> simp

/-- The check of a construction is R10's list (R10). -/
theorem valid_iff_parametersOk {c : Config} : c.valid = true ↔ Spec.parametersOk c := by
  have hsequencer : c.sequencerOk = true ↔ 5 ≤ c.resetTcks ∧ 1 ≤ c.maxShiftBits ∧ c.maxShiftBits ≤ 255 := by
    simp [Config.sequencerOk, and_assoc]
  unfold Config.valid Spec.parametersOk
  simp only [Bool.and_eq_true, hsequencer, codesOk_iff, captureCheckOk_iff, payloadsOk_iff, bufferOk_iff, and_assoc]

theorem powerOn_inv {c : Config} (hc : c.valid = true) : (State.powerOn c).Inv :=
  ⟨hc, .inl rfl, fun _ => rfl, ⟨nofun, fun h => absurd rfl h⟩, ⟨⟨List.Pairwise.nil, nofun⟩, fun _ => rfl⟩,
    ⟨Nat.zero_le _, Nat.zero_le _⟩, rfl⟩

/-- Settles O3: the check of a construction is R10's list, and the power-on state meets the invariant. -/
theorem constructedInstancesMeetTheInvariant : Obligations.ConstructedInstancesMeetTheInvariant := by
  refine ⟨fun c => ⟨fun h => ?_, fun h => ?_⟩, rfl, powerOn_inv (by decide)⟩
  · have hc := valid_iff_parametersOk.mpr h
    exact ⟨if_pos hc, powerOn_inv hc⟩
  · exact if_neg fun hc => h (valid_iff_parametersOk.mp hc)

end Sys2Proof.Machine
end

section
/-!
PROOFS: the levels that the primitives leave (spec/10_state.md R24, R26), how every command ends, and the
invariant between commands (R38, R39; spec/60_exceptions.md R202).
-/
namespace Sys2Proof.Machine

/-! ## The outputs follow the primitives -/

theorem levels_append (es fs : List PinEvent) (l : Level × Level × Level) :
    Spec.levels (es ++ fs) l = Spec.levels fs (Spec.levels es l) := by
  induction es generalizing l with
  | nil => rfl
  | cons e rest ih =>
    obtain ⟨p, ok⟩ := e
    cases ok with
    | false => exact ih l
    | true =>
      cases p with
      | set line b => cases line <;> exact ih _
      | readTdo => exact ih l
      | toggle => exact ih _
      | releaseLine line => cases line <;> exact ih _

/-- From `s` to `t` events were appended to the trace, and they alone moved the lines. -/
def State.Follows (s t : State) : Prop :=
  ∃ es, t.trace = s.trace ++ es ∧ t.lines = Spec.levels es s.lines

theorem State.Follows.of_same {s t : State} (htrace : t.trace = s.trace) (hlines : t.lines = s.lines) :
    s.Follows t := ⟨[], by rw [htrace, List.append_nil], hlines⟩

theorem State.Follows.trans {s t u : State} (h : s.Follows t) (h' : t.Follows u) : s.Follows u := by
  obtain ⟨es, htrace, hlines⟩ := h
  obtain ⟨fs, htrace', hlines'⟩ := h'
  exact ⟨es ++ fs, by rw [htrace', htrace, List.append_assoc], by rw [hlines', hlines, levels_append]⟩

theorem Drive.Sound.follows {r : Run} {d : Drive} (h : d.Sound r) : r.st.Follows d.run.st := by
  obtain ⟨-, ps, hlines, -, hend⟩ := h
  rw [← levels_okEvents] at hlines
  cases d with
  | going r' => exact ⟨okEvents ps, hend.1, hlines⟩
  | ended e r' =>
    rcases hend with ⟨-, -, -, p, htrace⟩ | ⟨-, htrace⟩
    · exact ⟨_, htrace.trans (List.append_assoc _ _ _), by rw [levels_append]; exact hlines⟩
    · exact ⟨_, htrace, hlines⟩

theorem releaseStep_follows (r : Run) (line : Line) : r.st.Follows (releaseStep r line).st := by
  unfold releaseStep
  split_ifs
  · exact ⟨_, r.performed_trace _, by rw [Run.performed_lines]; cases line <;> rfl⟩
  · exact ⟨_, rfl, rfl⟩

theorem State.release_follows (s : State) : s.Follows s.release := by
  unfold State.release
  split_ifs
  · exact ((releaseStep_follows s.begin .tck).trans (releaseStep_follows _ .tms)).trans (releaseStep_follows _ .tdi)
  · exact .of_same rfl rfl

theorem exec_follows {i : Instr} {s t : State} (h : exec i s = .next t) : s.Follows t := by
  rcases exec_cases h with ⟨-, rfl⟩ | ⟨-, st, data, m, f, rfl, -⟩ | ⟨-, d, data, rfl, hd⟩
  · exact s.release_follows
  · exact .of_same rfl rfl
  · have hfollows : s.Follows d.run.st := hd.follows
    cases d <;> exact hfollows

theorem State.Follows.lines_eq {s t : State} (h : s.Follows t) :
    t.lines = Spec.levels (newEvents s t) s.lines := by
  obtain ⟨es, htrace, hlines⟩ := h
  rw [newEvents_of_append htrace, hlines]

/-- Settles O23: the parts of every command follow their primitives, and so does each release of a line. -/
theorem outputsFollowThePrimitives : Obligations.OutputsFollowThePrimitives := by
  intro i s t h
  have hfollows := exec_follows h
  obtain ⟨es, htrace, -⟩ := id hfollows
  exact ⟨⟨es, htrace⟩, hfollows.lines_eq⟩

/-! ## Where the parts of a command leave the mirror and the lines -/

/-- A drive that goes through stands in an idle state with the lines driven, and one that the capture check
ends in Run-Test/Idle with the lines low (R207). -/
def Drive.AtRest : Drive → Prop
  | .going r => r.st.IdleTap ∧ r.st.tck = .low ∧ r.st.tms ≠ .z ∧ r.st.tdi ≠ .z
  | .ended e r => e = .protocolError →
      r.st.tap = .known .runTestIdle ∧ r.st.tck = .low ∧ r.st.tms = .low ∧ r.st.tdi = .low

theorem Drive.atRest_ioError (r : Run) : (Drive.ended .ioError r).AtRest := nofun

theorem scan_atRest (kind : ScanKind) {v : Bits} {r : Run} (hv : 1 ≤ v.length) (hm : r.st.IdleTap) :
    (scan kind v r).AtRest := by
  rcases scan_cases kind v r hv hm with h | ⟨r', h⟩ <;> rw [h]
  · exact ⟨.inr rfl, rfl, nofun, nofun⟩
  · exact Drive.atRest_ioError r'

theorem writeScans_atRest (addr word : Word) {r : Run} (hv : r.st.cfg.valid = true) (hm : r.st.IdleTap) :
    (writeScans addr word r).AtRest := by
  rcases writeScans_cases addr word r hv hm with ⟨-, h⟩ | ⟨-, h⟩ | ⟨r', h⟩ <;> rw [h]
  · exact ⟨.inr rfl, rfl, nofun, nofun⟩
  · exact fun _ => ⟨rfl, rfl, rfl, rfl⟩
  · exact Drive.atRest_ioError r'

theorem readScans_atRest (addr : Word) {r : Run} (hv : r.st.cfg.valid = true) (hm : r.st.IdleTap) :
    (readScans addr r).AtRest := by
  rcases readScans_cases addr r hv hm with ⟨-, -, h⟩ | ⟨-, h⟩ | ⟨_, -, -, -, h⟩ | ⟨r', h⟩ <;> rw [h]
  · exact ⟨.inr rfl, rfl, nofun, nofun⟩
  · exact fun _ => ⟨rfl, rfl, rfl, rfl⟩
  · exact fun _ => ⟨rfl, rfl, rfl, rfl⟩
  · exact Drive.atRest_ioError r'

theorem tapResetDrive_atRest {s : State} (hv : s.cfg.valid = true) : s.tapResetDrive.AtRest := by
  rcases tapResetDrive_cases s hv with h | ⟨r', h⟩ <;> rw [h]
  · exact ⟨.inl rfl, rfl, nofun, nofun⟩
  · exact Drive.atRest_ioError r'

/-- With what every drive does, the mirror at its end is unknown, or idle with the lines driven. -/
theorem Drive.AtRest.unknown_or_idle {r : Run} {d : Drive} (h : d.AtRest) (hs : d.Sound r) :
    d.run.st.tap = .unknown ∨
      d.run.st.IdleTap ∧ d.run.st.tck = .low ∧ d.run.st.tms ≠ .z ∧ d.run.st.tdi ≠ .z := by
  cases d with
  | going r' => exact .inr h
  | ended e r' =>
    obtain ⟨-, ps, -, -, ⟨-, hu, -⟩ | ⟨he, -⟩⟩ := hs
    · exact .inl hu
    · obtain ⟨htap, hc, hm, hd⟩ := h he
      exact .inr ⟨.inr htap, hc, by rw [Drive.run_ended, hm]; nofun, by rw [Drive.run_ended, hd]; nofun⟩

/-! ## A session, from its claim on -/

/-- The state once the pins are claimed (R131). -/
def State.inSession (s : State) : State := { s with claimed := true }

theorem State.inSession_of_claimed {s : State} (h : s.claimed = true) : s.inSession = s := by
  rw [State.inSession, ← h]

theorem claimPins_within (n : Nat) (s : State) : s.inSession.Within n (claimPins s.begin).run.st := by
  unfold claimPins
  split_ifs with hc
  · rw [State.inSession_of_claimed (s := s) hc]
    exact State.Within.refl n s
  · rcases doPrim_cases (.set .tck false) { s.begin with st := s.inSession } with ⟨-, h⟩ | ⟨-, h⟩
    · exact (congrArg (fun d : Drive => s.inSession.Within n d.run.st) h).mpr (Run.within_performed n _ _ nofun)
    · exact (congrArg (fun d : Drive => s.inSession.Within n d.run.st) h).mpr ⟨rfl, id, id, id⟩

theorem tapResetDrive_within (n : Nat) (s : State) : s.inSession.Within n s.tapResetDrive.run.st :=
  Drive.within_andThen (r := { s.begin with st := s.inSession }) (claimPins_within n s) (resetSeq_within n)

/-! ## How every command ends -/

/-- The ways a command can lead from `s`: RELEASE; an answer without a primitive, which a scan without an
encoding, a missing readiness, an alignment or range error or the buffer gives; or a drive over the pins, in a
session that exists or that TAP_RESET opens. -/
inductive State.Ends (s : State) : Instr → State → Prop
  | released : State.Ends s .release s.release
  | illegal (i : Instr) : State.Ends s i s.illegalCommand
  | refused (i : Instr) (st : Status) (hst : st = .deviceNotReady ∨ st = .alignmentError) :
      State.Ends s i (s.respond st .none)
  | outOfRange (i : Instr) (hb : s.cfg.backend = .emul) : State.Ends s i (s.respond .ioError .none)
  | bufferRead (addr w : Word) : State.Ends s (.axiRead addr) (s.respond .ok (.word w))
  | bufferWritten (addr word : Word) (hb : s.cfg.backend = .emul) (hin : inBuffer s.cfg addr = true) :
      State.Ends s (.axiWrite addr word)
        (({ s with emul := memWrite s.cfg s.emul addr word } : State).respond .ok .none)
  | driven (i : Instr) (d : Drive) (data : State → RespData) (hclaim : s.claimed = true ∨ i = .tapReset)
      (hsound : d.Sound s.begin)
      (hwithin : s.cfg.valid = true → s.inSession.Within s.cfg.shiftRegBits d.run.st)
      (hrest : s.cfg.valid = true → s.TapOk → d.AtRest) : State.Ends s i (d.finish data)

theorem State.tapReset_ends (s : State) : s.Ends .tapReset s.tapReset := by
  unfold State.tapReset
  split_ifs
  · exact .driven _ _ _ (.inr rfl) (tapResetDrive_sound s) (fun _ => tapResetDrive_within _ s)
      fun hv _ => tapResetDrive_atRest hv
  · exact .refused _ _ (.inl rfl)

/-- Past the readiness check, a mirror of R38 is idle (R204). -/
theorem State.TapOk.idleTap {s : State} (h : s.TapOk) (hready : s.sessionReady = true) : s.IdleTap := by
  obtain ⟨-, hknown, -⟩ := State.sessionReady_iff.mp hready
  exact h.resolve_left hknown

theorem State.claimed_of_sessionReady {s : State} (hready : s.sessionReady = true) : s.claimed = true := by
  obtain ⟨hclaimed, -, -⟩ := State.sessionReady_iff.mp hready
  exact hclaimed

theorem State.rawShift_ends (s : State) (i : Instr) (kind : ScanKind) (v : Bits) :
    s.Ends i (s.rawShift kind v) := by
  unfold State.rawShift
  split_ifs with hlen hready
  · exact .illegal _
  · have hclaimed := State.claimed_of_sessionReady hready
    obtain ⟨hv, hmax⟩ := shiftLengthOk_iff.mp (by simpa using hlen)
    refine .driven _ _ _ (.inl hclaimed) (scan_sound kind v _) (fun _ => ?_) fun _ htap =>
      scan_atRest kind (r := s.begin) hv (htap.idleTap hready)
    rw [State.inSession_of_claimed hclaimed]
    exact scan_within kind v s.begin (hmax.trans s.cfg.le_shiftRegBits.1)
  · exact .refused _ _ (.inl rfl)

theorem State.hwWrite_ends (s : State) (addr word : Word) : s.Ends (.axiWrite addr word) (s.hwWrite addr word) := by
  unfold State.hwWrite
  split_ifs with hready
  · exact .refused _ _ (.inl rfl)
  · exact .refused _ _ (.inr rfl)
  · replace hready : s.sessionReady = true := by simpa using hready
    have hclaimed := State.claimed_of_sessionReady hready
    refine .driven _ _ _ (.inl hclaimed) (writeScans_sound addr word _) (fun hv => ?_) fun hv htap =>
      writeScans_atRest addr word (r := s.begin) hv (htap.idleTap hready)
    obtain ⟨-, -, -, -, hcode, -⟩ := Config.bounds_of_valid hv
    rw [State.inSession_of_claimed hclaimed]
    exact writeScans_within addr word s.begin hcode

theorem State.hwRead_ends (s : State) (addr : Word) : s.Ends (.axiRead addr) (s.hwRead addr) := by
  unfold State.hwRead
  split_ifs with hready
  · exact .refused _ _ (.inl rfl)
  · exact .refused _ _ (.inr rfl)
  · replace hready : s.sessionReady = true := by simpa using hready
    have hclaimed := State.claimed_of_sessionReady hready
    refine .driven _ _ _ (.inl hclaimed) (readScans_sound addr _) (fun hv => ?_) fun hv htap =>
      readScans_atRest addr (r := s.begin) hv (htap.idleTap hready)
    obtain ⟨-, -, -, -, -, hcode, hdata, -⟩ := Config.bounds_of_valid hv
    rw [State.inSession_of_claimed hclaimed]
    exact readScans_within addr s.begin hcode hdata

theorem State.emulWrite_ends {s : State} (hb : s.cfg.backend = .emul) (addr word : Word) :
    s.Ends (.axiWrite addr word) (s.emulWrite addr word) := by
  unfold State.emulWrite
  split_ifs with ha hin
  · exact .refused _ _ (.inr rfl)
  · exact .outOfRange _ hb
  · exact .bufferWritten addr word hb (by simpa using hin)

theorem State.emulRead_ends {s : State} (hb : s.cfg.backend = .emul) (addr : Word) :
    s.Ends (.axiRead addr) (s.emulRead addr) := by
  unfold State.emulRead
  split_ifs
  · exact .refused _ _ (.inr rfl)
  · exact .outOfRange _ hb
  · exact .bufferRead addr _

theorem exec_ends {i : Instr} {s t : State} (h : exec i s = .next t) : s.Ends i t := by
  cases i with
  | tapReset => cases h; exact s.tapReset_ends
  | shiftIr v => cases h; exact s.rawShift_ends _ .ir v
  | shiftDr v => cases h; exact s.rawShift_ends _ .dr v
  | axiWrite addr word =>
    cases hb : s.cfg.backend with
    | hw => rw [exec_axiWrite_hw hb] at h; cases h; exact s.hwWrite_ends addr word
    | emul => rw [exec_axiWrite_emul hb] at h; cases h; exact State.emulWrite_ends hb addr word
  | axiRead addr =>
    cases hb : s.cfg.backend with
    | hw => rw [exec_axiRead_hw hb] at h; cases h; exact s.hwRead_ends addr
    | emul => rw [exec_axiRead_emul hb] at h; cases h; exact State.emulRead_ends hb addr
  | release => cases h; exact .released

/-- A drive's answer: `OK` where it has gone through, else the error that ended it and no data (R92, R200). -/
theorem Drive.Sound.finish_cases {r : Run} {d : Drive} (h : d.Sound r) (data : State → RespData) :
    (∃ r', d = .going r' ∧ d.finish data = r'.st.respond .ok (data r'.st)) ∨
      (∃ r', d = .ended .ioError r' ∧ d.finish data = r'.st.respond .ioError .none) ∨
      ∃ r', d = .ended .protocolError r' ∧ d.finish data = r'.st.respond .protocolError .none := by
  cases d with
  | going r' => exact .inl ⟨r', rfl, rfl⟩
  | ended e r' =>
    obtain ⟨-, ps, -, -, ⟨rfl, -⟩ | ⟨rfl, -⟩⟩ := h
    · exact .inr (.inl ⟨r', rfl, rfl⟩)
    · exact .inr (.inr ⟨r', rfl, rfl⟩)

/-! ## The answers -/

/-- Every answer is one the block may give: never `BUSY`, and no data with an error (R92, R201). -/
theorem exec_respOk {i : Instr} {s t : State} (h : exec i s = .next t) : t.respOk = true := by
  cases exec_ends h with
  | released => rfl
  | illegal => rfl
  | refused _ st hst => rcases hst with rfl | rfl <;> rfl
  | outOfRange => rfl
  | bufferRead => rfl
  | bufferWritten => rfl
  | driven _ d data _ hsound =>
    rcases hsound.finish_cases data with ⟨r', -, h⟩ | ⟨r', -, h⟩ | ⟨r', -, h⟩ <;> rw [h] <;> rfl

theorem Status.toNat_word (st : Status) : st.word.toNat = (match st with
    | .ok => 0
    | .deviceNotReady => 1
    | .protocolError => 2
    | .ioError => 3
    | .busy => 4
    | .illegalCommand => 5
    | .alignmentError => 6) := by
  cases st <;> rfl

/-- Settles O18, by the seven codes, and by the answers that commands give. -/
theorem statusWordsCarryTheCodes : Obligations.StatusWordsCarryTheCodes := by
  refine ⟨Status.toNat_word, fun i s t h r hr hbusy => ?_⟩
  have hok := exec_respOk h
  rw [State.respOk, hr] at hok
  simp [hbusy] at hok

/-! ## The invariant -/

theorem State.Keeps.emul_eq {s t : State} (h : s.Keeps t) : t.emul = s.emul := by rw [h]

/-- The invariant looks at no field that an answer moves but the response. -/
theorem State.Inv.respond {s : State} (h : s.Inv) {st : Status} {data : RespData}
    (hresp : (s.respond st data).respOk = true) : (s.respond st data).Inv := by
  obtain ⟨hv, htap, hsession, hpins, hbuffer, hreg, -⟩ := h
  exact ⟨hv, htap, hsession, hpins, hbuffer, hreg, hresp⟩

theorem State.Inv.illegalCommand {s : State} (h : s.Inv) : s.illegalCommand.Inv := by
  obtain ⟨hv, htap, hsession, hpins, hbuffer, hreg, -⟩ := h
  exact ⟨hv, htap, hsession, hpins, hbuffer, hreg, rfl⟩

theorem State.Inv.takeWords {s : State} (h : s.Inv) (n : Nat) : (s.takeWords n).Inv := h

theorem State.Inv.release {s : State} (h : s.Inv) : s.release.Inv := by
  obtain ⟨hv, -, -, ⟨hclock, -⟩, hbuffer, hreg, -⟩ := h
  obtain ⟨htap, hclaimed, hout, hin, hemul, -, hclock'⟩ := release_frame s
  obtain ⟨hcfg, -⟩ := exec_frame (i := .release) (s := s) rfl
  refine ⟨by rw [hcfg]; exact hv, .inl htap, fun _ => htap, ⟨hclock' hclock, fun hk => absurd htap hk⟩, ?_, ?_, rfl⟩
  · rw [State.BufferOk, hcfg, hemul]
    exact hbuffer
  · rw [State.ShiftRegOk, hcfg, hout, hin]
    exact hreg

/-- A drive keeps the invariant: its end is at rest or the mirror is unknown, and the session exists. -/
theorem State.Inv.drive {s : State} (h : s.Inv) {d : Drive} (hsound : d.Sound s.begin)
    (hwithin : s.inSession.Within s.cfg.shiftRegBits d.run.st) (hrest : d.AtRest) {st : Status} {data : RespData}
    (hresp : (d.run.st.respond st data).respOk = true) : (d.run.st.respond st data).Inv := by
  obtain ⟨hv, -, -, ⟨hclock, -⟩, hbuffer, ⟨hout, hin⟩, -⟩ := h
  obtain ⟨hclaimed, hclock', hout', hin'⟩ := hwithin
  have hkeeps : s.Keeps d.run.st := hsound.1
  have hcfg := hkeeps.cfg_eq
  have hend := hrest.unknown_or_idle hsound
  refine ⟨hcfg ▸ hv, ?_, fun hfalse => ?_, ⟨hclock' hclock, fun hknown => ?_⟩, ?_, ?_, hresp⟩
  · exact hend.imp_right fun hidle => hidle.1
  · exact absurd (hfalse.symm.trans hclaimed) Bool.false_ne_true
  · exact (hend.resolve_left hknown).2
  · rw [State.BufferOk, State.respond_cfg, State.respond_emul, hcfg, hkeeps.emul_eq]
    exact hbuffer
  · rw [State.ShiftRegOk, State.respond_cfg, hcfg]
    exact ⟨hout' hout, hin' hin⟩

theorem State.Inv.exec {i : Instr} {s t : State} (hs : s.Inv) (h : exec i s = .next t) : t.Inv := by
  have hresp := exec_respOk h
  obtain ⟨hv, htap, hsession, hpins, ⟨hwf, hhw⟩, hreg, hold⟩ := id hs
  cases exec_ends h with
  | released => exact hs.release
  | illegal => exact hs.illegalCommand
  | refused => exact hs.respond hresp
  | outOfRange => exact hs.respond hresp
  | bufferRead => exact hs.respond hresp
  | bufferWritten addr word hb hin =>
    have hemul : s.cfg.backend ≠ .hw := by rw [hb]; nofun
    exact ⟨hv, htap, hsession, hpins, ⟨memWrite_wf s.cfg s.emul addr word hin hwf, fun hw => absurd hw hemul⟩, hreg, rfl⟩
  | driven _ d data _ hsound hwithin hrest =>
    cases d <;> exact hs.drive hsound (hwithin hv) (hrest hv htap) hresp

/-- A host's action touches the lock, the port and the queue alone (R221). -/
theorem HostAction.take_inv {a : HostAction} {s t : State} (hs : s.Inv) (h : a.take s = .next t) : t.Inv := by
  cases a with
  | acquire g givesUp =>
    cases h
    unfold State.acquireLock
    split_ifs <;> exact hs
  | release g =>
    simp only [HostAction.take, State.releaseLock] at h
    split_ifs at h
    cases h
    exact hs
  | present g words => cases h; exact hs

/-- Settles O4, by what a step can do. -/
theorem stepKeepsTheInvariant : Obligations.StepKeepsTheInvariant := by
  intro s t hs h
  rcases step_cases s with ⟨i, n, -, hstep⟩ | ⟨why, n, -, hstep⟩ | ⟨-, hstep⟩ | ⟨-, a, pre, post, -, -, hstep⟩
  · exact (hs.takeWords n).exec (hstep.symm.trans h)
  · cases hstep.symm.trans h
    exact (hs.takeWords n).illegalCommand
  · cases hstep.symm.trans h
    exact hs
  · exact HostAction.take_inv (s := { s with hostQueue := pre ++ post }) hs (hstep.symm.trans h)

/-! ## The parameters -/

theorem HostAction.take_cfg {a : HostAction} {s t : State} (h : a.take s = .next t) : t.cfg = s.cfg := by
  cases a with
  | acquire g givesUp =>
    cases h
    unfold State.acquireLock
    split_ifs <;> rfl
  | release g =>
    simp only [HostAction.take, State.releaseLock] at h
    split_ifs at h
    cases h
    rfl
  | present g words => cases h; rfl

/-- Settles O8, by what a step can do. -/
theorem nothingWritesAParameter : Obligations.NothingWritesAParameter := by
  intro s t h
  rcases step_cases s with ⟨i, n, -, hstep⟩ | ⟨why, n, -, hstep⟩ | ⟨-, hstep⟩ | ⟨-, a, pre, post, -, -, hstep⟩
  · obtain ⟨hcfg, -⟩ := exec_frame (hstep.symm.trans h)
    exact hcfg
  · cases hstep.symm.trans h
    rfl
  · cases hstep.symm.trans h
    rfl
  · exact HostAction.take_cfg (s := { s with hostQueue := pre ++ post }) (hstep.symm.trans h)

/-! ## The state that each error leaves (R202) -/

/-- A drive that a pin failure ends has at least the failed event on its trace. -/
theorem Drive.Sound.newEvents_ne_nil {s : State} {r : Run} (h : (Drive.ended .ioError r).Sound s.begin) :
    newEvents s (r.st.respond .ioError .none) ≠ [] := by
  obtain ⟨-, ps, -, -, ⟨-, -, -, p, htrace⟩ | ⟨he, -⟩⟩ := h
  · rw [List.append_assoc] at htrace
    rw [newEvents_of_append (es := okEvents ps ++ [{ prim := p, ok := false }]) htrace]
    simp
  · cases he

theorem Drive.Sound.tap_unknown {r r' : Run} (h : (Drive.ended .ioError r').Sound r) : r'.st.tap = .unknown := by
  obtain ⟨-, ps, -, -, ⟨-, htap, -⟩ | ⟨he, -⟩⟩ := h
  · exact htap
  · cases he

/-- Settles O34, by the way the command has ended, which its status tells. -/
theorem stateLeftByEachError : Obligations.StateLeftByEachError := by
  intro i s t st hv htap h hst
  have hlines := (exec_follows h).lines_eq
  cases exec_ends h with
  | released => cases hst; exact ⟨by simp, nofun, nofun, nofun⟩
  | illegal => cases hst; exact ⟨fun _ => ⟨rfl, by simp⟩, nofun, nofun, nofun⟩
  | refused _ e he =>
    cases hst
    rcases he with rfl | rfl <;> exact ⟨fun _ => ⟨rfl, by simp⟩, nofun, nofun, nofun⟩
  | outOfRange _ hb =>
    cases hst
    exact ⟨by simp, nofun, fun _ hev => absurd (newEvents_eq_nil_of_trace_eq rfl) hev, fun _ _ => ⟨hb, rfl⟩⟩
  | bufferRead => cases hst; exact ⟨by simp, nofun, nofun, nofun⟩
  | bufferWritten => cases hst; exact ⟨by simp, nofun, nofun, nofun⟩
  | driven _ d data hclaim hsound hwithin hrest =>
    obtain ⟨hclaimed, -⟩ := hwithin hv
    have hkeeps : s.Keeps d.run.st := hsound.1
    rcases hsound.finish_cases data with ⟨r, rfl, hfin⟩ | ⟨r, rfl, hfin⟩ | ⟨r, rfl, hfin⟩ <;>
      rw [hfin] at hst hlines ⊢ <;> cases hst
    · exact ⟨by simp, nofun, nofun, nofun⟩
    · refine ⟨by simp, nofun, fun _ _ => ⟨hsound.tap_unknown, ?_, hkeeps.emul_eq, hlines⟩,
        fun _ hev => absurd hev hsound.newEvents_ne_nil⟩
      have hopen : (s.claimed || i == .tapReset) = true := by
        rcases hclaim with hc | rfl
        · rw [hc, Bool.true_or]
        · exact Bool.or_true _
      exact hclaimed.trans hopen.symm
    · obtain ⟨hidle, hc, hm, hd⟩ := hrest hv htap rfl
      exact ⟨by simp, fun _ => ⟨hidle, hclaimed, hc, hm, hd, hkeeps.emul_eq⟩, nofun, nofun⟩

end Sys2Proof.Machine
end

section
/-!
PROOFS: the step, the command port and the chip lock (spec/10_state.md R20, spec/60_exceptions.md R220 to R223,
spec/70_reset_and_hazards.md R240).
-/
namespace Sys2Proof.Machine

/-! ## What a step is, by what stands on the port -/

theorem step_of_fetch_command {s : State} {i : Instr} {n : Nat} (hf : s.fetch = .command i n) :
    step s = exec i (s.takeWords n) := by
  simp only [step, hf]

theorem step_of_fetch_incomplete {s : State} (hf : s.fetch = .incomplete) : step s = s.hostTurn := by
  simp only [step, hf]

/-- Without a presenter no command is complete (R221). -/
theorem State.fetch_of_no_presenter {s : State} (hp : s.presenter = none) : s.fetch = .incomplete := by
  simp [State.fetch, State.portLive, hp]

theorem State.hostTurn_of_none {s : State} (h : pickAction s [] s.hostQueue = none) : s.hostTurn = .next s := by
  simp only [State.hostTurn, h]

/-- Settles O2: the hosts' turn with no action to take leaves the state; after power-on there is no presenter
and no action. -/
theorem powerOnWaitsForACommand : Obligations.PowerOnWaitsForACommand := by
  have hwait (s : State) (hf : s.fetch = .incomplete) (hq : pickAction s [] s.hostQueue = none) :
      step s = .next s := by
    rw [step_of_fetch_incomplete hf, State.hostTurn_of_none hq]
  exact ⟨hwait, fun c => hwait (State.powerOn c) (State.fetch_of_no_presenter rfl) rfl⟩

theorem State.takeWords_of_presenter {s : State} {h : HostId} (hp : s.presenter = some h) (n : Nat) :
    s.takeWords n =
      { s with port := s.port.drop n, presenter := if s.port.drop n = [] then none else some h } := by
  rw [State.takeWords, hp]
  simp

/-- Settles O6: the words are decoded because their presenter holds the lock. -/
theorem stepRunsTheDecodedCommand : Obligations.StepRunsTheDecodedCommand := by
  intro s h i n hp hl hd
  have hf : s.fetch = .command i n := (s.fetch_of_presenter hp hl).trans hd
  rw [step_of_fetch_command hf, State.takeWords_of_presenter hp]

/-! ## A host that is the only one with something to do -/

theorem HostAction.enabled_acquire {s : State} {h : HostId} {g : Bool} :
    (HostAction.acquire h g).enabled s = true ↔ s.lock = none ∨ s.cfg.lockWait = .bounded ∧ g = true := by
  simp [HostAction.enabled]

theorem HostAction.enabled_present {s : State} {h : HostId} {ws : List Word} :
    (HostAction.present h ws).enabled s = true ↔ s.lock = some h ∧ (s.port = [] ∨ s.presenter = some h) := by
  simp [HostAction.enabled]

/-- A lone action with a step takes place. -/
theorem step_of_enabled {s : State} {a : HostAction} (hf : s.fetch = .incomplete) (hq : s.hostQueue = [a])
    (ha : a.enabled s = true) : step s = a.take { s with hostQueue := [] } := by
  have hpick : pickAction s [] s.hostQueue = some (a, []) := by simp [hq, pickAction, ha]
  rw [step_of_fetch_incomplete hf, State.hostTurn, hpick]

/-- A lone action without a step is held. -/
theorem step_of_held {s : State} {a : HostAction} (hf : s.fetch = .incomplete) (hq : s.hostQueue = [a])
    (ha : ¬ a.enabled s = true) : step s = .next s := by
  have hpick : pickAction s [] s.hostQueue = none := by simp [hq, pickAction, ha]
  rw [step_of_fetch_incomplete hf, State.hostTurn_of_none hpick]

theorem State.acquireLock_of_free {s : State} (h : HostId) (hl : s.lock = none) :
    s.acquireLock h = { s with lock := some h, lockAnswer := some (h, .granted) } := by
  simp [State.acquireLock, hl]

theorem State.acquireLock_of_held {s : State} (h : HostId) (hl : s.lock ≠ none) :
    s.acquireLock h = { s with lockAnswer := some (h, .busy) } := by
  simp [State.acquireLock, hl]

theorem State.releaseLock_of_holder {s : State} {h : HostId} (hl : s.lock = some h) :
    s.releaseLock h = .next { s with lock := none, lockAnswer := some (h, .released) } := if_pos hl

/-- A bounded acquire of a held lock that gives up (R221). -/
theorem step_of_acquire_busy {s : State} {h : HostId} (hf : s.fetch = .incomplete)
    (hq : s.hostQueue = [.acquire h true]) (hl : s.lock ≠ none) (hw : s.cfg.lockWait = .bounded) :
    step s = .next { s with hostQueue := [], lockAnswer := some (h, .busy) } := by
  rw [step_of_enabled hf hq (HostAction.enabled_acquire.mpr (.inr ⟨hw, rfl⟩)), HostAction.take,
    State.acquireLock_of_held (s := { s with hostQueue := [] }) h hl]

/-- Settles O44, action by action: whether it has a step, and what it then does. -/
theorem theChipLock : Obligations.TheChipLock := by
  refine fun s h hf => ⟨fun g hq hl => ?granted, fun g hq hl hwait => ?held, step_of_acquire_busy hf,
    fun hq hl => ?released, fun ws hq hl => ?unpresented⟩
  case granted =>
    rw [step_of_enabled hf hq (HostAction.enabled_acquire.mpr (.inl hl)), HostAction.take,
      State.acquireLock_of_free (s := { s with hostQueue := [] }) h hl]
  case held =>
    refine step_of_held hf hq fun ha => ?_
    rcases HostAction.enabled_acquire.mp ha with hfree | ⟨hbounded, rfl⟩
    · exact hl hfree
    · rcases hwait with hunbounded | hfalse
      · rw [hunbounded] at hbounded
        cases hbounded
      · cases hfalse
  case released =>
    rw [step_of_enabled hf hq rfl, HostAction.take,
      State.releaseLock_of_holder (s := { s with hostQueue := [] }) hl]
  case unpresented =>
    refine step_of_held hf hq fun ha => ?_
    obtain ⟨hholder, -⟩ := HostAction.enabled_present.mp ha
    exact hl hholder

/-! ## A command from its presentation on -/

theorem encode_ne_nil (i : Instr) : encode i ≠ [] := by
  cases i <;> exact List.cons_ne_nil _ _

/-- Settles O45: the words go to the empty port, and decode to the command that they encode. -/
theorem presentedCommandsRun : Obligations.PresentedCommandsRun := by
  intro s h i hv hw hl hport hpres hq
  constructor
  · have hf : s.fetch = .incomplete := State.fetch_of_no_presenter hpres
    rw [step_of_enabled hf hq (HostAction.enabled_present.mpr ⟨hl, .inl hport⟩)]
    simp [HostAction.take, State.putWords, hport, encode_ne_nil i]
  · have hd : decode s.cfg (encode i) = .command i (encode i).length := by
      simpa using decodingUndoesEncoding s.cfg i [] hv hw
    rw [stepRunsTheDecodedCommand { s with hostQueue := [], port := encode i, presenter := some h } h i _ rfl hl hd]
    simp [← hport, ← hpres]

/-! ## What a host's action can do -/

/-- A host's action performs no command (R221). -/
theorem HostAction.take_frame {a : HostAction} {s t : State} (h : a.take s = .next t) :
    t.resp = s.resp ∧ t.trace = s.trace ∧ t.emul = s.emul ∧ t.tap = s.tap ∧ t.drawNo = s.drawNo := by
  cases a with
  | acquire g givesUp =>
    cases h
    unfold State.acquireLock
    split_ifs <;> exact ⟨rfl, rfl, rfl, rfl, rfl⟩
  | release g =>
    simp only [HostAction.take, State.releaseLock] at h
    split_ifs at h
    cases h
    exact ⟨rfl, rfl, rfl, rfl, rfl⟩
  | present g words => cases h; exact ⟨rfl, rfl, rfl, rfl, rfl⟩

/-- Only its holder's release takes a lock away (R221). -/
theorem HostAction.take_lock {a : HostAction} {s t : State} {h : HostId} (htake : a.take s = .next t)
    (hl : s.lock = some h) (ht : t.lock ≠ some h) : a = .release h ∧ t.lock = none ∧ t.port = s.port := by
  cases a with
  | acquire g givesUp =>
    cases htake
    rw [State.acquireLock_of_held g (by rw [hl]; nofun)] at ht
    exact absurd hl ht
  | release g =>
    simp only [HostAction.take, State.releaseLock, hl] at htake
    split_ifs at htake with hg
    cases htake
    cases hg
    exact ⟨rfl, rfl, rfl⟩
  | present g words => cases htake; exact absurd hl ht

/-- Settles O46: a step that performs or refuses words has found their presenter holding the lock and leaves the
lock alone, and of the hosts' actions only the holder's release takes it. -/
theorem onlyTheLockHolderIsServed : Obligations.OnlyTheLockHolderIsServed := by
  intro s t h
  rcases step_cases s with ⟨i, n, hf, hstep⟩ | ⟨why, n, hf, hstep⟩ | ⟨-, hstep⟩ | ⟨-, a, pre, post, hq, -, hstep⟩ <;>
    rw [hstep] at h
  · obtain ⟨⟨g, hp, hl⟩, -⟩ := s.fetch_eq_command hf
    obtain ⟨-, hlock, -⟩ := exec_frame h
    exact ⟨fun _ => ⟨g, hp, hl, hlock.trans hl⟩, fun k hk ht => absurd (hlock.trans hk) ht⟩
  · obtain ⟨⟨g, hp, hl⟩, -⟩ := s.fetch_eq_illegal hf
    cases h
    exact ⟨fun _ => ⟨g, hp, hl, hl⟩, fun k hk ht => absurd hk ht⟩
  · cases h
    exact ⟨by simp, fun k hk ht => absurd hk ht⟩
  · obtain ⟨hresp, htrace, hemul, htap, hdraw⟩ := HostAction.take_frame h
    refine ⟨by simp [hresp, htrace, hemul, htap, hdraw], fun k hk ht => ?_⟩
    obtain ⟨rfl, hfree, hport⟩ := HostAction.take_lock h hk ht
    exact ⟨hfree, by simp [Spec.releases, hq], hport, hresp⟩

/-! ## Faults -/

/-- Every command answers a next state (R200). -/
theorem exec_eq_perform (i : Instr) (s : State) : exec i s = .next (perform i s) := by
  cases i <;> rfl

/-- A host's action takes place, or it is the release of a lock that its host does not hold. -/
theorem HostAction.take_cases (a : HostAction) (s : State) : (∃ t, a.take s = .next t) ∨
    ∃ h, a = .release h ∧ s.lock ≠ some h ∧ a.take s = .fault .releaseWithoutLock := by
  cases a with
  | acquire g givesUp => exact .inl ⟨_, rfl⟩
  | release g =>
    by_cases hl : s.lock = some g
    · exact .inl ⟨_, State.releaseLock_of_holder hl⟩
    · exact .inr ⟨g, rfl, hl, if_neg hl⟩
  | present g words => exact .inl ⟨_, rfl⟩

/-- Settles O47, by what a step can do: of its parts only a host's action can fault. -/
theorem onlyAWrongReleaseFaults : Obligations.OnlyAWrongReleaseFaults := by
  refine ⟨fun i s => ⟨_, exec_eq_perform i s⟩, fun s => ?_⟩
  rcases step_cases s with ⟨i, n, -, hstep⟩ | ⟨why, n, -, hstep⟩ | ⟨-, hstep⟩ | ⟨-, a, pre, post, hq, -, hstep⟩ <;>
    rw [hstep]
  · exact .inl ⟨_, exec_eq_perform i _⟩
  · exact .inl ⟨_, rfl⟩
  · exact .inl ⟨_, rfl⟩
  · refine (a.take_cases { s with hostQueue := pre ++ post }).imp_right ?_
    rintro ⟨h, rfl, hl, hfault⟩
    exact ⟨hfault, h, by simp [Spec.releases, hq], hl⟩

end Sys2Proof.Machine
end

section
/-!
PROOFS: TAP_RESET and RELEASE (spec/41_tap_commands.md R131, R140; spec/40_tap_fsm.md R118).
-/
namespace Sys2Proof.Machine

/-! ## TAP_RESET without a pin failure -/

theorem State.tapReset_of_pinsReady {s : State} (hp : s.pinsReady = true) :
    s.tapReset = s.tapResetDrive.finish fun _ => .none := by
  rw [State.tapReset, if_pos hp]
  rfl

theorem tapResetDrive_of_noPinFault {s : State} (hv : s.cfg.valid = true) (hok : s.NoPinFault) :
    s.tapResetDrive = .going s.begin.claimedPins.wasReset := by
  rcases tapResetDrive_cases s hv with h | ⟨r', h⟩
  · exact h
  · exact absurd h ((tapResetDrive_sound s).ne_ioError hok)

/-- The primitives of the reset sequence, written out (R113, R118). -/
theorem ticksPrims_resetTicks (c : Config) : ticksPrims (resetTicks c) =
    (List.replicate c.resetTcks [.set .tms true, .set .tdi false, .toggle]).flatten := by
  rw [ticksPrims, resetTicks, List.flatMap_replicate]
  rfl

/-- The claim leaves what TAP_RESET's first lines say (R131). -/
theorem State.claimedPins_st (s : State) : s.begin.claimedPins.st =
    { s with
      claimed := true
      tck := if s.claimed then s.tck else .low
      trace := s.trace ++ okEvents (if s.claimed then [] else [.set .tck false]) } := by
  unfold Run.claimedPins
  rw [State.begin_st]
  cases hc : s.claimed with
  | true =>
    rw [if_pos rfl, if_pos rfl, if_pos rfl, okEvents, List.map_nil, List.append_nil]
    exact (State.inSession_of_claimed hc).symm
  | false => rfl

/-- The reset sequence after the claim moves every line (R118, R131). -/
theorem State.claimedPins_wasReset_st (s : State) : s.begin.claimedPins.wasReset.st =
    { s with
      claimed := true
      tap := .known .testLogicReset
      tck := .low
      tms := .high
      tdi := .low
      trace := s.trace ++ okEvents ((if s.claimed then [] else [.set .tck false]) ++
        (List.replicate s.cfg.resetTcks [.set .tms true, .set .tdi false, .toggle]).flatten) } := by
  rw [← ticksPrims_resetTicks, okEvents_append, ← List.append_assoc, Run.wasReset, State.claimedPins_st]

/-- Settles O24: the drive goes through, and leaves the claim and the reset sequence. -/
theorem tapResetCompletes : Obligations.TapResetCompletes := by
  intro s hv hp hok
  refine congrArg Host.Outcome.next ?_
  rw [State.tapReset_of_pinsReady hp, tapResetDrive_of_noPinFault hv hok, Drive.finish_going,
    State.claimedPins_wasReset_st, State.respond_eq_answered]

/-! ## What TAP_RESET never does -/

theorem State.Keeps.lock_eq {s t : State} (h : s.Keeps t) : t.lock = s.lock := by rw [h]

/-- The part samples no TDO, and so leaves the shift register alone. -/
def Drive.SamplesNothing (r : Run) (d : Drive) : Prop :=
  d.run.st.srOut = r.st.srOut ∧ d.run.st.srIn = r.st.srIn ∧
    ∃ es, d.run.st.trace = r.st.trace ++ es ∧ ∀ e ∈ es, e.prim ≠ .readTdo

theorem Drive.samplesNothing_of_same {r : Run} {d : Drive} (hout : d.run.st.srOut = r.st.srOut)
    (hin : d.run.st.srIn = r.st.srIn) (htrace : d.run.st.trace = r.st.trace) : d.SamplesNothing r :=
  ⟨hout, hin, [], by rw [htrace, List.append_nil], nofun⟩

theorem Drive.SamplesNothing.andThen {r : Run} {d : Drive} {f : Run → Drive} (h : d.SamplesNothing r)
    (hf : ∀ r', (f r').SamplesNothing r') : (d.andThen f).SamplesNothing r := by
  cases d with
  | ended e r' => exact h
  | going r' =>
    obtain ⟨hout, hin, es, htrace, hes⟩ := h
    obtain ⟨hout', hin', fs, htrace', hfs⟩ := hf r'
    exact ⟨hout'.trans hout, hin'.trans hin, es ++ fs,
      by rw [Drive.andThen_going, htrace', ← List.append_assoc, ← htrace]; rfl,
      List.forall_mem_append.2 ⟨hes, hfs⟩⟩

theorem doPrim_samplesNothing {p : PinPrim} (hp : p ≠ .readTdo) (r : Run) : (doPrim p r).SamplesNothing r := by
  rcases doPrim_cases p r with ⟨-, h⟩ | ⟨-, h⟩ <;> rw [h]
  · exact ⟨r.performed_srOut p, r.performed_srIn p, _, r.performed_trace p, by simpa using hp⟩
  · exact ⟨rfl, rfl, _, rfl, by simpa using hp⟩

theorem doPrims_samplesNothing {ps : List PinPrim} (hps : PinPrim.readTdo ∉ ps) (r : Run) :
    (doPrims ps r).SamplesNothing r := by
  induction ps generalizing r with
  | nil => exact Drive.samplesNothing_of_same rfl rfl rfl
  | cons p rest ih =>
    rw [List.mem_cons, not_or] at hps
    obtain ⟨hp, hrest⟩ := hps
    exact (doPrim_samplesNothing (Ne.symm hp) r).andThen (ih hrest)

theorem doTick_plain_samplesNothing (b : Bool) (r : Run) : (doTick (Tick.plain b) r).SamplesNothing r :=
  (doPrims_samplesNothing (by simp [Tick.prims, Tick.plain]) r).andThen fun _ =>
    Drive.samplesNothing_of_same rfl rfl rfl

theorem doTicks_resetTicks_samplesNothing (n : Nat) (r : Run) :
    (doTicks (List.replicate n (Tick.plain true)) r).SamplesNothing r := by
  induction n generalizing r with
  | zero => exact Drive.samplesNothing_of_same rfl rfl rfl
  | succ n ih => exact (doTick_plain_samplesNothing true r).andThen ih

theorem claimPins_samplesNothing (r : Run) : (claimPins r).SamplesNothing r := by
  unfold claimPins
  split_ifs
  · exact Drive.samplesNothing_of_same rfl rfl rfl
  · exact doPrim_samplesNothing (p := .set .tck false) nofun { r with st := { r.st with claimed := true } }

theorem tapResetDrive_samplesNothing (s : State) : s.tapResetDrive.SamplesNothing s.begin :=
  (claimPins_samplesNothing _).andThen fun r => (doTicks_resetTicks_samplesNothing _ r).andThen fun _ =>
    Drive.samplesNothing_of_same rfl rfl rfl

/-! ## A pin failure inside TAP_RESET -/

/-- Whatever the tick count, TAP_RESET's drive goes through all its primitives, or a pin failure ends it. -/
theorem tapResetDrive_prims (s : State) :
    (∃ r, s.tapResetDrive = .going r ∧ r.prims = (if s.claimed then 0 else 1) + 3 * s.cfg.resetTcks) ∨
      ∃ r, s.tapResetDrive = .ended .ioError r := by
  unfold State.tapResetDrive
  rcases claimPins_cases s.begin with h | ⟨r', h, -⟩ <;> rw [h]
  · rw [Drive.andThen_going, resetSeq, s.begin.keeps_claimedPins.cfg_eq]
    have hclaim : s.begin.claimedPins.prims = if s.claimed then 0 else 1 := by
      unfold Run.claimedPins
      rw [State.begin_st]
      split_ifs <;> rfl
    rcases doTicks_cases (resetTicks s.begin.st.cfg) s.begin.claimedPins with h | ⟨_, _, _, _, _, _, _, _, h⟩ <;> rw [h]
    · refine .inl ⟨_, rfl, ?_⟩
      exact (Run.foldl_ticked_prims _ _).trans (by rw [hclaim, length_resetTicks_prims, State.begin_st])
    · exact .inr ⟨_, rfl⟩
  · exact .inr ⟨_, rfl⟩

/-- A drive that goes through has met no failure among its primitives. -/
theorem Drive.Sound.okAt_of_going {s : State} {r : Run} (h : (Drive.going r).Sound s.begin) {k : Nat} (hk : 1 ≤ k)
    (hle : k ≤ r.prims) : s.okAt k = true := by
  obtain ⟨-, ps, -, hok, -, hprims⟩ := h
  exact hok k hk (by rw [← hprims]; exact hle)

/-- A failure of one of its primitives ends TAP_RESET (R206). -/
theorem tapResetDrive_of_failure {s : State} {k : Nat} (hk : 1 ≤ k)
    (hle : k ≤ (if s.claimed then 0 else 1) + 3 * s.cfg.resetTcks) (hfail : s.okAt k = false) :
    ∃ r, s.tapResetDrive = .ended .ioError r := by
  rcases tapResetDrive_prims s with ⟨r, h, hprims⟩ | h
  · have hsound := tapResetDrive_sound s
    rw [h] at hsound
    rw [hsound.okAt_of_going hk (by rw [hprims]; exact hle)] at hfail
    cases hfail
  · exact h

theorem State.newEvents_tapReset_of_claimed {s : State} (hv : s.cfg.valid = true) (hp : s.pinsReady = true)
    (hok : s.NoPinFault) (hc : s.claimed = true) : newEvents s s.tapReset = okEvents (ticksPrims (resetTicks s.cfg)) := by
  rw [State.newEvents_tapReset hv hp hok, hc]
  rfl

theorem State.tapReset_of_failure {s : State} {k : Nat} (hp : s.pinsReady = true) (hk : 1 ≤ k)
    (hle : k ≤ (if s.claimed then 0 else 1) + 3 * s.cfg.resetTcks) (hfail : s.okAt k = false) :
    s.tapReset.tap = .unknown ∧ s.tapReset.resp = some { status := .ioError, data := .none } := by
  obtain ⟨r, hr⟩ := tapResetDrive_of_failure hk hle hfail
  have hsound := tapResetDrive_sound s
  rw [hr] at hsound
  rw [State.tapReset_of_pinsReady hp, hr]
  exact ⟨hsound.tap_unknown, rfl⟩

/-- A drive's end, answered. -/
theorem Drive.finish_eq_respond (d : Drive) (data : State → RespData) :
    ∃ st out, d.finish data = d.run.st.respond st out := by
  cases d <;> exact ⟨_, _, rfl⟩

/-- What TAP_RESET without a pin failure leaves in the block (R131). -/
theorem tapReset_leaves {s t : State} (hv : s.cfg.valid = true) (hp : s.pinsReady = true) (hok : s.NoPinFault)
    (h : exec .tapReset s = .next t) : t.cfg = s.cfg ∧ t.claimed = true ∧
      (t.tap, t.claimed, t.tck, t.tms, t.tdi, t.srOut, t.srIn, t.resp, t.lock, t.emul, t.refused) =
        (.known .testLogicReset, true, .low, .high, .low, s.srOut, s.srIn,
          some { status := .ok, data := .none }, s.lock, s.emul, s.refused) := by
  cases (tapResetCompletes s hv hp hok).symm.trans h
  exact ⟨rfl, rfl, rfl⟩

/-- Settles O25: the drive opens the session and samples nothing, a failed primitive ends it, and a second one
finds the state that the first has left. -/
theorem tapResetErrorsAndIdempotence : Obligations.TapResetErrorsAndIdempotence := by
  refine ⟨fun s hp => congrArg _ (State.tapReset_of_not_pinsReady hp), fun s t hp h => ?frame,
    fun s t u hv hp hok h hp' hok' h' => ?again⟩
  case frame =>
    cases h
    have hfailure : (∃ k, 1 ≤ k ∧ k ≤ (if s.claimed then 0 else 1) + 3 * s.cfg.resetTcks ∧ s.okAt k = false) →
        s.tapReset.tap = .unknown ∧ s.tapReset.resp = some { status := .ioError, data := .none } :=
      fun ⟨_, hk, hle, hfail⟩ => State.tapReset_of_failure hp hk hle hfail
    obtain ⟨hout, hin, es, htrace, hes⟩ := tapResetDrive_samplesNothing s
    obtain ⟨hclaimed, -⟩ := tapResetDrive_within 0 s
    have hkeeps : s.Keeps s.tapResetDrive.run.st := (tapResetDrive_sound s).1
    obtain ⟨st, out, hfin⟩ := s.tapResetDrive.finish_eq_respond fun _ => .none
    rw [← State.tapReset_of_pinsReady hp] at hfin
    refine ⟨?_, ?_, ?_, ?_, ?_, ?_, hfailure⟩ <;> rw [hfin]
    · exact hclaimed
    · exact hout
    · exact hin
    · exact hkeeps.emul_eq
    · exact hkeeps.lock_eq
    · rw [newEvents_of_append (s := s) (t := s.tapResetDrive.run.st.respond st out) htrace]
      exact hes
  case again =>
    obtain ⟨hcfg, hclaimed, hleft⟩ := tapReset_leaves hv hp hok h
    have hv' : t.cfg.valid = true := by rw [hcfg]; exact hv
    refine ⟨?_, ?_⟩
    · obtain ⟨-, -, hleft'⟩ := tapReset_leaves hv' hp' hok' h'
      simp only [Prod.mk.injEq] at hleft
      obtain ⟨htap, -, htck, htms, htdi, -, -, hresp, -⟩ := hleft
      rw [hleft', htap, hclaimed, htck, htms, htdi, hresp]
    · cases h'
      rw [State.newEvents_tapReset_of_claimed hv' hp' hok' hclaimed, wireTms_okTicks, resetTicks, hcfg,
        List.map_replicate]
      rfl

/-! ## RELEASE -/

/-- One release: the line's level falls with the pin layer's answer, and the event is on the trace (R140). -/
theorem releaseStep_st {r : Run} (line : Line) {ok : Bool} (h : r.nextOk = ok) : (releaseStep r line).st =
    { (if ok then r.st.setLine line .z else r.st) with
      trace := r.st.trace ++ [{ prim := .releaseLine line, ok := ok }] } := by
  unfold releaseStep
  rw [h]
  cases ok with
  | true => cases line <;> rfl
  | false => rfl

theorem releaseStep_nextOk (r : Run) (line : Line) : (releaseStep r line).nextOk = r.st.okAt (r.prims + 2) := by
  have hprims : (releaseStep r line).prims = r.prims + 1 := by unfold releaseStep; split_ifs <;> rfl
  rw [Run.nextOk, (releaseStep_keeps r line).okAt_eq, hprims]

/-- The three releases, each with the pin layer's own answer (R140). -/
theorem State.releasePins_st (s : State) : (releasePins s.begin).st =
    { s with
      tck := if s.okAt 1 then .z else s.tck
      tms := if s.okAt 2 then .z else s.tms
      tdi := if s.okAt 3 then .z else s.tdi
      trace := s.trace ++ [{ prim := .releaseLine .tck, ok := s.okAt 1 },
        { prim := .releaseLine .tms, ok := s.okAt 2 }, { prim := .releaseLine .tdi, ok := s.okAt 3 }] } := by
  have hfirst : s.begin.nextOk = s.okAt 1 := rfl
  have hsecond : (releaseStep s.begin .tck).nextOk = s.okAt 2 := releaseStep_nextOk s.begin .tck
  have hthird : (releaseStep (releaseStep s.begin .tck) .tms).nextOk = s.okAt 3 := by
    have hprims : (releaseStep s.begin .tck).prims = 1 := by unfold releaseStep; split_ifs <;> rfl
    rw [releaseStep_nextOk, hprims, (releaseStep_keeps s.begin .tck).okAt_eq, State.begin_st]
  rw [releasePins, releaseStep_st .tdi hthird, releaseStep_st .tms hsecond, releaseStep_st .tck hfirst]
  cases s.okAt 1 <;> cases s.okAt 2 <;> cases s.okAt 3 <;> simp [State.setLine]

/-- Settles O27: with the pins claimed and ready the three releases are tried, and without nothing is. -/
theorem releaseAlwaysCompletes : Obligations.ReleaseAlwaysCompletes := by
  intro s
  refine congrArg Host.Outcome.next ?_
  rw [← State.respond_eq_answered]
  by_cases hc : (s.claimed && s.pinsReady) = true
  · rw [State.release, if_pos hc, State.releasePins_st]
    rw [Bool.and_eq_true] at hc
    simp [hc]
  · rw [State.release, if_neg hc]
    rw [Bool.and_eq_true] at hc
    simp only [← and_assoc, hc, false_and, if_false, List.append_nil]

end Sys2Proof.Machine
end

section
/-!
PROOFS: the AXI commands: their alignment (spec/20_memory.md R57), the order of their errors
(spec/60_exceptions.md R205), their completion on hardware (spec/42_axi_bridge.md R160, R170), and reading back
under `EMUL` (spec/20_memory.md R55, R64).
-/
namespace Sys2Proof.Machine

/-! ## Misaligned addresses -/

theorem aligned_eq_false_iff {addr : Word} : aligned addr = false ↔ addr.toNat % 4 ≠ 0 := by
  rw [← Bool.not_eq_true, aligned_iff]

theorem State.emulWrite_of_misaligned {s : State} {addr : Word} (word : Word) (ha : aligned addr = false) :
    s.emulWrite addr word = s.respond .alignmentError .none := by
  simp [State.emulWrite, ha]

theorem State.emulRead_of_misaligned {s : State} {addr : Word} (ha : aligned addr = false) :
    s.emulRead addr = s.respond .alignmentError .none := by
  simp [State.emulRead, ha]

theorem State.hwWrite_of_misaligned {s : State} {addr : Word} (word : Word) (hready : s.sessionReady = true)
    (ha : aligned addr = false) : s.hwWrite addr word = s.respond .alignmentError .none := by
  simp [State.hwWrite, hready, ha]

theorem State.hwRead_of_misaligned {s : State} {addr : Word} (hready : s.sessionReady = true)
    (ha : aligned addr = false) : s.hwRead addr = s.respond .alignmentError .none := by
  simp [State.hwRead, hready, ha]

/-- What an AXI command needs before its alignment decides: the `EMUL` backend, or a session (R205). -/
def State.AxiReady (s : State) : Prop :=
  s.cfg.backend = .emul ∨ (s.pinsReady = true ∧ s.claimed = true ∧ s.tap ≠ .unknown)

theorem State.AxiReady.sessionReady {s : State} (h : s.AxiReady) (hb : s.cfg.backend = .hw) :
    s.sessionReady = true := by
  rcases h with hemul | ⟨hpins, hclaimed, hknown⟩
  · rw [hb] at hemul
    cases hemul
  · exact State.sessionReady_iff.mpr ⟨hclaimed, hknown, hpins⟩

theorem exec_axiWrite_of_misaligned {s : State} {addr : Word} (word : Word) (ha : addr.toNat % 4 ≠ 0)
    (h : s.AxiReady) : exec (.axiWrite addr word) s = .next (s.respond .alignmentError .none) := by
  replace ha := aligned_eq_false_iff.mpr ha
  cases hb : s.cfg.backend with
  | hw => rw [exec_axiWrite_hw hb, State.hwWrite_of_misaligned word (h.sessionReady hb) ha]
  | emul => rw [exec_axiWrite_emul hb, State.emulWrite_of_misaligned word ha]

theorem exec_axiRead_of_misaligned {s : State} {addr : Word} (ha : addr.toNat % 4 ≠ 0) (h : s.AxiReady) :
    exec (.axiRead addr) s = .next (s.respond .alignmentError .none) := by
  replace ha := aligned_eq_false_iff.mpr ha
  cases hb : s.cfg.backend with
  | hw => rw [exec_axiRead_hw hb, State.hwRead_of_misaligned (h.sessionReady hb) ha]
  | emul => rw [exec_axiRead_emul hb, State.emulRead_of_misaligned ha]

/-- Settles O30: past the readiness check, which `EMUL` has none of, alignment decides. -/
theorem misalignedAddressesAreRefused : Obligations.MisalignedAddressesAreRefused :=
  fun _ _ word ha h => ⟨exec_axiWrite_of_misaligned word ha h, exec_axiRead_of_misaligned ha h⟩

/-! ## A pin failure during the first IR scan -/

/-- A failure of one of its primitives ends a scan (R206). -/
theorem scan_of_failure (kind : ScanKind) {v : Bits} {s : State} {k : Nat} (hv : 1 ≤ v.length) (hm : s.IdleTap)
    (hk : 1 ≤ k) (hle : k ≤ 3 * (Spec.scanLength kind v.length + s.tap.extraTick) + v.length)
    (hfail : s.okAt k = false) : ∃ r, scan kind v s.begin = .ended .ioError r := by
  rcases scan_cases kind v s.begin hv hm with h | h
  · have hsound := scan_sound kind v s.begin
    rw [h] at hsound
    have hprims : (s.begin.scanned kind v).prims =
        3 * (Spec.scanLength kind v.length + s.tap.extraTick) + v.length := by
      have hlen := length_scanTicks s.cfg.bitOrder kind s.tap v
      rw [Run.scanned, State.begin_prims, Nat.zero_add, State.begin_st, length_scanTicks_prims, hlen]
      cases kind <;> rfl
    rw [hsound.okAt_of_going hk (by rw [hprims]; exact hle)] at hfail
    cases hfail
  · exact h

/-- The bridge's selection ends with the failure, before any capture check (R205). -/
theorem bridgeSelect_of_failure {code : Bits} {s : State} {k : Nat} (hv : 1 ≤ code.length) (hm : s.IdleTap)
    (hk : 1 ≤ k) (hle : k ≤ 3 * (code.length + 6 + s.tap.extraTick) + code.length) (hfail : s.okAt k = false) :
    ∃ r, bridgeSelect code s.begin = .ended .ioError r := by
  obtain ⟨r, h⟩ := scan_of_failure .ir hv hm hk hle hfail
  exact ⟨r, by rw [bridgeSelect, h, Drive.andThen_ended]⟩

theorem writeScans_of_select_ended {addr word : Word} {r r' : Run} {e : Status}
    (h : bridgeSelect r.st.cfg.irAxiWrite r = .ended e r') : writeScans addr word r = .ended e r' := by
  rw [writeScans, h, Drive.andThen_ended]

theorem readScans_of_select_ended {addr : Word} {r r' : Run} {e : Status}
    (h : bridgeSelect r.st.cfg.irAxiRead r = .ended e r') : readScans addr r = .ended e r' := by
  rw [readScans, h, Drive.andThen_ended]

theorem State.hwWrite_of_sessionReady {s : State} {addr : Word} (word : Word) (hready : s.sessionReady = true)
    (ha : addr.toNat % 4 = 0) :
    s.hwWrite addr word = (writeScans addr word s.begin).finish fun _ => .none := by
  simp [State.hwWrite, hready, aligned_iff.mpr ha]

theorem State.hwRead_of_sessionReady {s : State} {addr : Word} (hready : s.sessionReady = true)
    (ha : addr.toNat % 4 = 0) :
    s.hwRead addr = (readScans addr s.begin).finish fun t => .word (rdWord t.cfg t.srIn) := by
  simp [State.hwRead, hready, aligned_iff.mpr ha]

/-- A SHIFT without an encoding is refused before anything else is looked at (R205). -/
theorem State.rawShift_of_illegal {s : State} {v : Bits} (kind : ScanKind)
    (hv : ¬(1 ≤ v.length ∧ v.length ≤ s.cfg.maxShiftBits)) : s.rawShift kind v = s.illegalCommand := by
  rw [State.rawShift, if_pos]
  rw [Bool.not_eq_true', ← Bool.not_eq_true, shiftLengthOk_iff]
  exact hv

/-- Settles O31, clause by clause in the order of the checks: the encoding, the readiness, the alignment, and a
pin failure before the capture check. -/
theorem errorPriority : Obligations.ErrorPriority := by
  refine ⟨fun s v hv => ?encoding, fun s addr word hb hn => ?readiness, fun s addr word hb ha _ => ?alignment,
    fun s t addr word k hv hb ha hm hc hp hk hle hfail h => ?failure⟩
  case encoding =>
    exact ⟨congrArg _ (State.rawShift_of_illegal .ir hv), congrArg _ (State.rawShift_of_illegal .dr hv)⟩
  case readiness =>
    replace hn := State.sessionReady_eq_false_iff.mpr hn
    exact ⟨exec_of_not_sessionReady rfl hb hn, exec_of_not_sessionReady rfl hb hn⟩
  case alignment => exact misalignedAddressesAreRefused s addr word ha (.inl hb)
  case failure =>
    obtain ⟨-, -, -, hir, hwr, hrd, -⟩ := Config.bounds_of_valid hv
    have hready : s.sessionReady = true := State.sessionReady_iff.mpr ⟨hc, hm.ne_unknown, hp⟩
    rcases h with h | h
    · obtain ⟨r, hselect⟩ := bridgeSelect_of_failure (code := s.cfg.irAxiWrite) (by omega) hm hk
        (by rw [hwr]; exact hle) hfail
      rw [exec_axiWrite_hw hb, State.hwWrite_of_sessionReady word hready ha, writeScans_of_select_ended hselect] at h
      cases h
      rfl
    · obtain ⟨r, hselect⟩ := bridgeSelect_of_failure (code := s.cfg.irAxiRead) (by omega) hm hk
        (by rw [hrd]; exact hle) hfail
      rw [exec_axiRead_hw hb, State.hwRead_of_sessionReady hready ha, readScans_of_select_ended hselect] at h
      cases h
      rfl

/-! ## The scans that go through -/

theorem writeScans_of_noPinFault (addr word : Word) {r : Run} (hv : r.st.cfg.valid = true) (hm : r.st.IdleTap)
    (hok : r.st.NoPinFault) (hcheck : Spec.checkPasses r.st.cfg (captured r.st (r.reads + 1) r.st.cfg.irLen)) :
    writeScans addr word r = .going (r.wrote addr word) := by
  rw [← captureOk_iff_checkPasses] at hcheck
  rcases writeScans_cases addr word r hv hm with ⟨-, h⟩ | ⟨hc, -⟩ | ⟨r', h⟩
  · exact h
  · exact absurd (hcheck.symm.trans hc) (by decide)
  · exact absurd h ((writeScans_sound addr word r).ne_ioError hok)

theorem Run.keeps_wrote (addr word : Word) (r : Run) : r.st.Keeps (r.wrote addr word).st := rfl

/-- What the scans of a write leave: the payload's scan, and the trace of all three parts (R154). -/
theorem State.begin_wrote_st (addr word : Word) {s : State} (hv : s.cfg.valid = true) :
    (s.begin.wrote addr word).st = Spec.afterScan s (s.cfg.irLen + 1) (wrPayload s.cfg addr word)
      (Spec.scanPrims s .ir s.tap s.cfg.irAxiWrite ++
        Spec.scanPrims s .dr (.known .runTestIdle) (wrPayload s.cfg addr word) ++
        ticksPrims (idleTicks s.cfg.writeWaitTcks)) := by
  obtain ⟨-, -, -, -, hcode, -⟩ := Config.bounds_of_valid hv
  have hreads : (s.begin.scanned .ir s.cfg.irAxiWrite).reads = s.cfg.irLen :=
    (Nat.zero_add _).trans hcode
  simp only [Spec.afterScan, okEvents_append, ← List.append_assoc, ← hreads]
  rfl

/-- Settles O38: past its checks the write's scans go through and leave `Run.wrote`. -/
theorem axiWriteCompletesOnHardware : Obligations.AxiWriteCompletesOnHardware := by
  intro s addr word hv hb hs ha hcheck
  rw [exec_axiWrite_hw hb, State.hwWrite_of_liveSession word hs ha]
  obtain ⟨-, hidle, -, hok⟩ := hs
  rw [writeScans_of_noPinFault addr word (r := s.begin) hv hidle hok hcheck, Drive.finish_going,
    State.begin_wrote_st addr word hv, State.respond_eq_answered]

theorem readScans_of_noPinFault (addr : Word) {r : Run} (hv : r.st.cfg.valid = true) (hm : r.st.IdleTap)
    (hok : r.st.NoPinFault) (hport : Spec.checkPasses r.st.cfg (captured r.st (r.reads + 1) r.st.cfg.irLen))
    (hdata : ∀ d, r.st.cfg.irAxiReadData = some d → Spec.checkPasses r.st.cfg
      (captured r.st (r.reads + r.st.cfg.irLen + r.st.cfg.axiRdDrLen + 1) r.st.cfg.irLen)) :
    readScans addr r = .going (r.readBack addr) := by
  rw [← captureOk_iff_checkPasses] at hport
  rcases readScans_cases addr r hv hm with ⟨-, -, h⟩ | ⟨hc, -⟩ | ⟨d, hd, -, hc, -⟩ | ⟨r', h⟩
  · exact h
  · exact absurd (hport.symm.trans hc) (by decide)
  · rw [Run.addressed_reads addr hv, (r.keeps_addressed addr).captured_eq, captureOk_eq_false_iff] at hc
    exact absurd (hdata d hd) hc
  · exact absurd h ((readScans_sound addr r).ne_ioError hok)

theorem State.begin_addressed_reads (addr : Word) {s : State} (hv : s.cfg.valid = true) :
    (s.begin.addressed addr).reads = s.cfg.irLen + s.cfg.axiRdDrLen := by
  rw [Run.addressed_reads (r := s.begin) addr hv, State.begin_reads, State.begin_st, Nat.zero_add]

/-- What the scans of a read leave without a data instruction: the retrieve scan, and the trace of all four parts
(R154). -/
theorem State.begin_readBack_st_of_none (addr : Word) {s : State} (hv : s.cfg.valid = true)
    (hd : s.cfg.irAxiReadData = none) : (s.begin.readBack addr).st =
      Spec.afterScan s (s.cfg.irLen + s.cfg.axiRdDrLen + 1) (rdPayload s.cfg addr)
        (Spec.scanPrims s .ir s.tap s.cfg.irAxiRead ++
          Spec.scanPrims s .dr (.known .runTestIdle) (rdPayload s.cfg addr) ++
          ticksPrims (idleTicks s.cfg.readWaitTcks) ++
          Spec.scanPrims s .dr (.known .runTestIdle) (rdPayload s.cfg addr)) := by
  have hdata : (s.begin.addressed addr).dataSelected = s.begin.addressed addr := by
    have hd' : (s.begin.addressed addr).st.cfg.irAxiReadData = none := hd
    rw [Run.dataSelected, hd']
  simp only [Spec.afterScan, okEvents_append, ← List.append_assoc, Run.readBack, hdata, Run.scanned,
    State.begin_addressed_reads addr hv, (s.begin.keeps_addressed addr).captured_eq]
  rfl

/-- The same with a data instruction, whose scan comes before the retrieve scan. -/
theorem State.begin_readBack_st_of_some (addr : Word) {s : State} {d : Bits} (hv : s.cfg.valid = true)
    (hd : s.cfg.irAxiReadData = some d) : (s.begin.readBack addr).st =
      Spec.afterScan s (2 * s.cfg.irLen + s.cfg.axiRdDrLen + 1) (rdPayload s.cfg addr)
        (Spec.scanPrims s .ir s.tap s.cfg.irAxiRead ++
          Spec.scanPrims s .dr (.known .runTestIdle) (rdPayload s.cfg addr) ++
          ticksPrims (idleTicks s.cfg.readWaitTcks) ++
          Spec.scanPrims s .ir (.known .runTestIdle) d ++
          Spec.scanPrims s .dr (.known .runTestIdle) (rdPayload s.cfg addr)) := by
  obtain ⟨-, -, -, -, -, -, hcode, -⟩ := Config.bounds_of_valid hv
  have hdata : (s.begin.addressed addr).dataSelected = (s.begin.addressed addr).scanned .ir d := by
    have hd' : (s.begin.addressed addr).st.cfg.irAxiReadData = some d := hd
    rw [Run.dataSelected, hd']
  have hreads : ((s.begin.addressed addr).scanned .ir d).reads = 2 * s.cfg.irLen + s.cfg.axiRdDrLen := by
    have hstep : ((s.begin.addressed addr).scanned .ir d).reads = (s.begin.addressed addr).reads + d.length := rfl
    rw [hstep, State.begin_addressed_reads addr hv, hcode d hd]
    omega
  have hkeeps : s.Keeps ((s.begin.addressed addr).scanned .ir d).st := rfl
  have hlast (r : Run) : (r.scanned .dr (rdPayload s.cfg addr)).st =
      { r.st with
        tap := .known .runTestIdle, tck := .low, tms := .low, tdi := .low, srOut := rdPayload s.cfg addr
        srIn := captured r.st (r.reads + 1) (rdPayload s.cfg addr).length
        trace := r.st.trace ++ okEvents (ticksPrims (scanTicks r.st.cfg.bitOrder .dr r.st.tap (rdPayload s.cfg addr))) } :=
    rfl
  rw [Run.readBack, hdata, State.begin_st, hlast, hreads, hkeeps.captured_eq]
  simp only [Spec.afterScan, okEvents_append, ← List.append_assoc]
  rfl

/-- Settles O39: past its checks the read's scans go through and leave `Run.readBack`, whose capture holds the
word. -/
theorem axiReadCompletesOnHardware : Obligations.AxiReadCompletesOnHardware := by
  intro s addr hv hb hs ha hport
  rw [exec_axiRead_hw hb, State.hwRead_of_liveSession hs ha]
  obtain ⟨-, hidle, -, hok⟩ := hs
  refine ⟨fun hd => ?_, fun d hd hdata => ?_⟩
  · rw [readScans_of_noPinFault addr (r := s.begin) hv hidle hok hport (fun d hd' => by cases hd.symm.trans hd'),
      Drive.finish_going, State.begin_readBack_st_of_none addr hv hd, State.respond_eq_answered, Spec.afterScan,
      length_rdPayload]
    rfl
  · rw [readScans_of_noPinFault addr (r := s.begin) hv hidle hok hport (fun _ _ => by simpa using hdata),
      Drive.finish_going, State.begin_readBack_st_of_some addr hv hd, State.respond_eq_answered, Spec.afterScan,
      length_rdPayload]
    rfl

/-! ## Bytes and words of the buffer -/

/-- Settles O41: the bits of each order's slices, and the word that its bytes make. -/
theorem wordBytesFollowTheByteOrder : Obligations.WordBytesFollowTheByteOrder := by
  refine ⟨fun w k j hk hj => ⟨?_, ?_⟩, wordOfBytes_wordByte⟩ <;>
    simp [wordByte, hj]

/-- Words at aligned addresses are the same or apart. -/
theorem disjoint_of_aligned {a b : Word} (ha : a.toNat % 4 = 0) (hb : b.toNat % 4 = 0) (h : b ≠ a) :
    b.toNat + 4 ≤ a.toNat ∨ a.toNat + 4 ≤ b.toNat := by
  have hne : b.toNat ≠ a.toNat := fun he => h (BitVec.eq_of_toNat_eq he)
  omega

/-- A word read after a word written, at aligned addresses (R64 under `EMUL`). -/
theorem memRead_memWrite_aligned (c : Config) (m : Memory) {a b : Word} (v : Word) (ha : a.toNat % 4 = 0)
    (hb : b.toNat % 4 = 0) : memRead c (memWrite c m a v) b = if b = a then v else memRead c m b := by
  split_ifs with h
  · rw [h, memRead_memWrite]
  · exact memRead_memWrite_of_disjoint c m a b v (disjoint_of_aligned ha hb h)

/-- An AXI_WRITE under `EMUL` to an aligned word inside the buffer (R160). -/
theorem exec_axiWrite_emul_ok {s : State} {addr : Word} (word : Word) (hb : s.cfg.backend = .emul)
    (ha : addr.toNat % 4 = 0) (hin : addr.toNat + 4 ≤ s.cfg.emulLen) : exec (.axiWrite addr word) s =
      .next (({ s with emul := memWrite s.cfg s.emul addr word } : State).respond .ok .none) := by
  rw [exec_axiWrite_emul hb, State.emulWrite_of_inBuffer word (aligned_iff.mpr ha) (inBuffer_iff.mpr hin)]

/-- An AXI_READ under `EMUL` of an aligned word inside the buffer (R170). -/
theorem exec_axiRead_emul_ok {s : State} {addr : Word} (hb : s.cfg.backend = .emul) (ha : addr.toNat % 4 = 0)
    (hin : addr.toNat + 4 ≤ s.cfg.emulLen) :
    exec (.axiRead addr) s = .next (s.respond .ok (.word (memRead s.cfg s.emul addr))) := by
  rw [exec_axiRead_emul hb, State.emulRead_of_inBuffer (aligned_iff.mpr ha) (inBuffer_iff.mpr hin)]

/-- Settles O42: both commands complete, and the read sees the buffer that the write has left. -/
theorem emulationReadsTheLastWrite : Obligations.EmulationReadsTheLastWrite := by
  intro s t u a b word hemul ha hb hina hinb ht hu
  cases (exec_axiWrite_emul_ok word hemul ha hina).symm.trans ht
  cases (exec_axiRead_emul_ok (s := ({ s with emul := memWrite s.cfg s.emul a word } : State).respond .ok .none)
    hemul hb hinb).symm.trans hu
  rw [← memRead_memWrite_aligned s.cfg s.emul word ha hb]
  rfl

end Sys2Proof.Machine
end

section
/-!
PROOFS: the host's macros and the loader's steps (spec/43_host_sequences.md R180 to R191).
-/
namespace Sys2Proof.Machine

/-! ## The addresses of a patch -/

theorem toNat_patchAddr (base : Word) (i : Nat) : (patchAddr base i).toNat = (base.toNat + 4 * i) % 2 ^ 32 := by
  rw [patchAddr, BitVec.toNat_add, BitVec.toNat_ofNat, Nat.add_mod_mod]

theorem patchAddr_aligned_iff (base : Word) (i : Nat) :
    (patchAddr base i).toNat % 4 = 0 ↔ base.toNat % 4 = 0 := by
  rw [toNat_patchAddr]
  omega

/-- A word that lies below 2^32 has the unwrapped address (R180). -/
theorem toNat_patchAddr_of_fits {base : Word} {i : Nat} (h : base.toNat + 4 * i + 4 ≤ 2 ^ 32) :
    (patchAddr base i).toNat = base.toNat + 4 * i := by
  rw [toNat_patchAddr, Nat.mod_eq_of_lt (by omega)]

/-! ## One command of PATCH_OFFSET and of VERIFY -/

theorem perform_eq {i : Instr} {s t : State} (h : exec i s = .next t) : perform i s = t := by
  simp only [perform, h]

theorem patchFrom_cons_ok {base : Word} {i : Nat} {w : Word} {ws : List Word} {s t : State}
    (h : perform (.axiWrite (patchAddr base i) w) s = t) (hok : t.status = .ok) :
    patchFrom base i (w :: ws) s = patchFrom base (i + 1) ws t := by
  simp only [patchFrom, h, hok, if_true]

theorem patchFrom_cons_error {base : Word} {i : Nat} {w : Word} {ws : List Word} {s t : State}
    (h : perform (.axiWrite (patchAddr base i) w) s = t) (herr : t.status ≠ .ok) :
    patchFrom base i (w :: ws) s = (.patchError i t.status, t) := by
  simp only [patchFrom, h, herr, if_false]

theorem verifyFrom_cons_ok {base : Word} {i : Nat} {w : Word} {ws : List Word} {s t : State}
    (h : perform (.axiRead (patchAddr base i)) s = t) (hok : t.status = .ok) (hw : t.responseWord = w) :
    verifyFrom base i (w :: ws) s = verifyFrom base (i + 1) ws t := by
  simp only [verifyFrom, h, hok, hw, if_true]

theorem verifyFrom_cons_mismatch {base : Word} {i : Nat} {w : Word} {ws : List Word} {s t : State}
    (h : perform (.axiRead (patchAddr base i)) s = t) (hok : t.status = .ok) (hw : t.responseWord ≠ w) :
    verifyFrom base i (w :: ws) s = (.verifyMismatch i w t.responseWord, t) := by
  simp only [verifyFrom, h, hok, hw, if_true, if_false]

theorem verifyFrom_cons_error {base : Word} {i : Nat} {w : Word} {ws : List Word} {s t : State}
    (h : perform (.axiRead (patchAddr base i)) s = t) (herr : t.status ≠ .ok) :
    verifyFrom base i (w :: ws) s = (.verifyError i t.status, t) := by
  simp only [verifyFrom, h, herr, if_false]

/-- Settles O48: the address is base + 4 i modulo 2^32, and the first command of a sequence is refused for its
misaligned address. -/
theorem patchAddresses : Obligations.PatchAddresses := by
  refine ⟨toNat_patchAddr, patchAddr_aligned_iff, fun s base w ws hb h => ?_⟩
  have ha : (patchAddr base 0).toNat % 4 ≠ 0 := by rwa [ne_eq, patchAddr_aligned_iff]
  have hwrite := perform_eq (exec_axiWrite_of_misaligned w ha h)
  have hread := perform_eq (exec_axiRead_of_misaligned ha h)
  rw [patchOffset, verify, patchFrom_cons_error hwrite nofun, verifyFrom_cons_error hread nofun]
  exact ⟨rfl, rfl⟩

/-! ## The first commands of a list, each with a good answer -/

/-- After each of the first `n` commands the state is good. -/
def Trail (good : Nat → State → Prop) (is : List Instr) (n : Nat) (s : State) : Prop :=
  ∀ j < n, good j (Spec.performAll (is.take (j + 1)) s)

theorem Trail.zero (good : Nat → State → Prop) (is : List Instr) (s : State) : Trail good is 0 s := nofun

theorem Trail.cons {good : Nat → State → Prop} {i : Instr} {is : List Instr} {n : Nat} {s : State}
    (hfirst : good 0 (perform i s)) (hrest : Trail (fun j => good (j + 1)) is n (perform i s)) :
    Trail good (i :: is) (n + 1) s := by
  rintro (_ | j) hj
  · exact hfirst
  · exact hrest j (Nat.lt_of_succ_lt_succ hj)

/-! ## PATCH_OFFSET (R181) -/

/-- The commands of a patch from word `i` on. -/
def patchCommandsFrom (base : Word) (i : Nat) (ws : List Word) : List Instr :=
  ws.mapIdx fun k w => .axiWrite (patchAddr base (i + k)) w

theorem patchCommands_eq (ws : List Word) (base : Word) : patchCommands ws base = patchCommandsFrom base 0 ws := by
  simp [patchCommands, patchCommandsFrom]

theorem patchCommandsFrom_cons (base : Word) (i : Nat) (w : Word) (ws : List Word) :
    patchCommandsFrom base i (w :: ws) = .axiWrite (patchAddr base i) w :: patchCommandsFrom base (i + 1) ws := by
  simp only [patchCommandsFrom, List.mapIdx_cons, Nat.add_zero, Nat.add_assoc, Nat.add_comm 1]

/-- A patch that returns Ok has performed all its commands, each answered OK. -/
theorem patchFrom_eq_ok {base : Word} {i : Nat} {ws : List Word} {s t : State}
    (h : patchFrom base i ws s = (.ok, t)) : t = Spec.performAll (patchCommandsFrom base i ws) s ∧
      Trail (fun _ u => u.status = .ok) (patchCommandsFrom base i ws) ws.length s := by
  induction ws generalizing i s with
  | nil => cases h; exact ⟨rfl, Trail.zero _ _ _⟩
  | cons w ws ih =>
    rw [patchCommandsFrom_cons]
    by_cases hok : (perform (.axiWrite (patchAddr base i) w) s).status = .ok
    · rw [patchFrom_cons_ok rfl hok] at h
      obtain ⟨ht, htrail⟩ := ih h
      exact ⟨ht, Trail.cons hok htrail⟩
    · rw [patchFrom_cons_error rfl hok] at h
      cases h

/-- A patch that returns an error has stopped at the first command not answered OK. -/
theorem patchFrom_eq_error {base : Word} {i n : Nat} {st : Status} {ws : List Word} {s t : State}
    (h : patchFrom base i ws s = (.patchError n st, t)) : ∃ k, n = i + k ∧ k < ws.length ∧ st ≠ .ok ∧
      t = Spec.performAll ((patchCommandsFrom base i ws).take (k + 1)) s ∧ t.status = st ∧
      Trail (fun _ u => u.status = .ok) (patchCommandsFrom base i ws) k s := by
  induction ws generalizing i s with
  | nil => cases h
  | cons w ws ih =>
    rw [patchCommandsFrom_cons]
    by_cases hok : (perform (.axiWrite (patchAddr base i) w) s).status = .ok
    · rw [patchFrom_cons_ok rfl hok] at h
      obtain ⟨k, rfl, hk, hst, ht, hstatus, htrail⟩ := ih h
      exact ⟨k + 1, by omega, Nat.succ_lt_succ hk, hst, ht, hstatus, Trail.cons hok htrail⟩
    · rw [patchFrom_cons_error rfl hok] at h
      cases h
      exact ⟨0, rfl, Nat.succ_pos _, hok, rfl, rfl, Trail.zero _ _ _⟩

/-! ## VERIFY (R183) -/

/-- The commands of a verify from word `i` on. -/
def verifyCommandsFrom (base : Word) (i : Nat) (ws : List Word) : List Instr :=
  (List.range ws.length).map fun k => .axiRead (patchAddr base (i + k))

theorem verifyCommands_eq (ws : List Word) (base : Word) :
    verifyCommands ws base = verifyCommandsFrom base 0 ws := by
  simp [verifyCommands, verifyCommandsFrom]

theorem verifyCommandsFrom_cons (base : Word) (i : Nat) (w : Word) (ws : List Word) :
    verifyCommandsFrom base i (w :: ws) = .axiRead (patchAddr base i) :: verifyCommandsFrom base (i + 1) ws := by
  simp [verifyCommandsFrom, List.range_succ_eq_map, Nat.add_assoc, Nat.add_comm 1]

/-- The answer to the read of word `j` is OK with that word. -/
def ReadsAs (ws : List Word) (j : Nat) (u : State) : Prop := u.status = .ok ∧ ws[j]? = some u.responseWord

theorem readsAs_zero {w : Word} {ws : List Word} {u : State} (hok : u.status = .ok) (hw : u.responseWord = w) :
    ReadsAs (w :: ws) 0 u := ⟨hok, congrArg some hw.symm⟩

/-- A verify that returns Ok has performed all its commands, each answered OK with the word expected. -/
theorem verifyFrom_eq_ok {base : Word} {i : Nat} {ws : List Word} {s t : State}
    (h : verifyFrom base i ws s = (.ok, t)) : t = Spec.performAll (verifyCommandsFrom base i ws) s ∧
      Trail (ReadsAs ws) (verifyCommandsFrom base i ws) ws.length s := by
  induction ws generalizing i s with
  | nil => cases h; exact ⟨rfl, Trail.zero _ _ _⟩
  | cons w ws ih =>
    rw [verifyCommandsFrom_cons]
    by_cases hok : (perform (.axiRead (patchAddr base i)) s).status = .ok
    · by_cases hw : (perform (.axiRead (patchAddr base i)) s).responseWord = w
      · rw [verifyFrom_cons_ok rfl hok hw] at h
        obtain ⟨ht, htrail⟩ := ih h
        exact ⟨ht, Trail.cons (readsAs_zero hok hw) htrail⟩
      · rw [verifyFrom_cons_mismatch rfl hok hw] at h
        cases h
    · rw [verifyFrom_cons_error rfl hok] at h
      cases h

/-- A verify that returns a mismatch has stopped at the first word that differs. -/
theorem verifyFrom_eq_mismatch {base : Word} {i n : Nat} {expected actual : Word} {ws : List Word} {s t : State}
    (h : verifyFrom base i ws s = (.verifyMismatch n expected actual, t)) : ∃ k, n = i + k ∧
      ws[k]? = some expected ∧ actual ≠ expected ∧
      t = Spec.performAll ((verifyCommandsFrom base i ws).take (k + 1)) s ∧ t.status = .ok ∧
      t.responseWord = actual ∧ Trail (ReadsAs ws) (verifyCommandsFrom base i ws) k s := by
  induction ws generalizing i s with
  | nil => cases h
  | cons w ws ih =>
    rw [verifyCommandsFrom_cons]
    by_cases hok : (perform (.axiRead (patchAddr base i)) s).status = .ok
    · by_cases hw : (perform (.axiRead (patchAddr base i)) s).responseWord = w
      · rw [verifyFrom_cons_ok rfl hok hw] at h
        obtain ⟨k, rfl, hk, hne, ht, hstatus, hword, htrail⟩ := ih h
        exact ⟨k + 1, by omega, hk, hne, ht, hstatus, hword, Trail.cons (readsAs_zero hok hw) htrail⟩
      · rw [verifyFrom_cons_mismatch rfl hok hw] at h
        cases h
        exact ⟨0, rfl, rfl, hw, rfl, hok, rfl, Trail.zero _ _ _⟩
    · rw [verifyFrom_cons_error rfl hok] at h
      cases h

/-- A verify that returns an error has stopped at the first command not answered OK. -/
theorem verifyFrom_eq_error {base : Word} {i n : Nat} {st : Status} {ws : List Word} {s t : State}
    (h : verifyFrom base i ws s = (.verifyError n st, t)) : ∃ k, n = i + k ∧ k < ws.length ∧ st ≠ .ok ∧
      t = Spec.performAll ((verifyCommandsFrom base i ws).take (k + 1)) s ∧ t.status = st ∧
      Trail (ReadsAs ws) (verifyCommandsFrom base i ws) k s := by
  induction ws generalizing i s with
  | nil => cases h
  | cons w ws ih =>
    rw [verifyCommandsFrom_cons]
    by_cases hok : (perform (.axiRead (patchAddr base i)) s).status = .ok
    · by_cases hw : (perform (.axiRead (patchAddr base i)) s).responseWord = w
      · rw [verifyFrom_cons_ok rfl hok hw] at h
        obtain ⟨k, rfl, hk, hst, ht, hstatus, htrail⟩ := ih h
        exact ⟨k + 1, by omega, Nat.succ_lt_succ hk, hst, ht, hstatus, Trail.cons (readsAs_zero hok hw) htrail⟩
      · rw [verifyFrom_cons_mismatch rfl hok hw] at h
        cases h
    · rw [verifyFrom_cons_error rfl hok] at h
      cases h
      exact ⟨0, rfl, Nat.succ_pos _, hok, rfl, rfl, Trail.zero _ _ _⟩

/-- Settles O49, by the commands that each result of the two macros has performed. -/
theorem macrosStopAtTheFirstFailure : Obligations.MacrosStopAtTheFirstFailure := by
  refine ⟨fun s t ws base => ?_, fun s t ws base => ?_⟩
  · rw [patchCommands_eq]
    refine ⟨fun h => patchFrom_eq_ok h, fun k st h => ?_⟩
    obtain ⟨k', rfl, hrest⟩ := patchFrom_eq_error h
    rw [Nat.zero_add]
    exact hrest
  · rw [verifyCommands_eq]
    refine ⟨fun h => verifyFrom_eq_ok h, fun k expected actual h => ?_, fun k st h => ?_⟩
    · obtain ⟨k', rfl, hrest⟩ := verifyFrom_eq_mismatch h
      rw [Nat.zero_add]
      exact hrest
    · obtain ⟨k', rfl, hrest⟩ := verifyFrom_eq_error h
      rw [Nat.zero_add]
      exact hrest

/-! ## The loader's steps (R189) -/

/-- Every answer so far lets the host go on. -/
def LoaderStep.AllGood (step : LoaderStep) (answers : List (Status × Word)) : Prop :=
  ∀ k a, answers[k]? = some a → step.goesOn k a.1 a.2 = true

theorem LoaderStep.allGood_nil (step : LoaderStep) : step.AllGood [] := by
  intro k a ha
  cases ha

theorem LoaderStep.AllGood.append {step : LoaderStep} {answers : List (Status × Word)} {a : Status × Word}
    (h : step.AllGood answers) (ha : step.goesOn answers.length a.1 a.2 = true) : step.AllGood (answers ++ [a]) := by
  intro k b hb
  rw [List.getElem?_append] at hb
  split_ifs at hb with hk
  · exact h k b hb
  · obtain ⟨hk', rfl⟩ : k - answers.length = 0 ∧ a = b := by
      rw [List.getElem?_singleton] at hb
      split_ifs at hb with h0
      exact ⟨h0, Option.some.inj hb⟩
    rw [show k = answers.length by omega]
    exact ha

/-- A step presents its next command and goes on with the answer to it. -/
theorem LoaderStep.runFrom_succ {step : LoaderStep} {fuel : Nat} {answers : List (Status × Word)} {s : State}
    {i : Instr} (h : step.AllGood answers) (hi : step.commands[answers.length]? = some i) :
    step.runFrom (fuel + 1) answers s =
      step.runFrom fuel (answers ++ [((perform i s).status, (perform i s).responseWord)]) (perform i s) := by
  have hnext : step.nextCommand answers = some i := (step.nextCommand_of_goesOn answers h).trans hi
  simp only [LoaderStep.runFrom, hnext]

/-- A step stops after an answer that does not let the host go on. -/
theorem LoaderStep.runFrom_of_stop {step : LoaderStep} {fuel : Nat} {answers : List (Status × Word)}
    {a : Status × Word} (s : State) (h : step.goesOn answers.length a.1 a.2 = false) :
    step.runFrom fuel (answers ++ [a]) s = s :=
  step.runFrom_of_none fuel _ s (step.nextCommand_of_stop answers a h)

theorem patchCommands_getElem? {pre ws : List Word} {w : Word} {base : Word} :
    (patchCommands (pre ++ w :: ws) base)[pre.length]? = some (.axiWrite (patchAddr base pre.length) w) := by
  simp [patchCommands]

theorem verifyCommands_getElem? {pre ws : List Word} {w : Word} {base : Word} :
    (verifyCommands (pre ++ w :: ws) base)[pre.length]? = some (.axiRead (patchAddr base pre.length)) := by
  simp [verifyCommands]

/-- A patch step from the word after `pre` on ends where PATCH_OFFSET does. -/
theorem LoaderStep.runFrom_patch {step : LoaderStep} {base : Word} {pre ws : List Word}
    (hc : step.commands = patchCommands (pre ++ ws) base) (hgo : ∀ k st w, step.goesOn k st w = (st == .ok))
    {answers : List (Status × Word)} (hlen : answers.length = pre.length) (hgood : step.AllGood answers) (s : State) :
    step.runFrom ws.length answers s = (patchFrom base pre.length ws s).2 := by
  induction ws generalizing pre answers s with
  | nil => rfl
  | cons w ws ih =>
    have hi : step.commands[answers.length]? = some (.axiWrite (patchAddr base pre.length) w) := by
      rw [hc, hlen, patchCommands_getElem?]
    rw [List.length_cons, LoaderStep.runFrom_succ hgood hi]
    by_cases hok : (perform (.axiWrite (patchAddr base pre.length) w) s).status = .ok
    · rw [patchFrom_cons_ok rfl hok]
      have hlen' : pre.length + 1 = (pre ++ [w]).length := by simp
      rw [hlen']
      refine ih (by simp [hc]) (by simp [hlen]) (hgood.append ?_) _
      rw [hgo, hok]
      rfl
    · rw [patchFrom_cons_error rfl hok]
      refine LoaderStep.runFrom_of_stop _ ?_
      rw [hgo]
      simpa using hok

/-- A verify step from the word after `pre` on ends where VERIFY does. -/
theorem LoaderStep.runFrom_verify {base : Word} {all pre ws : List Word} (hall : all = pre ++ ws)
    {answers : List (Status × Word)} (hlen : answers.length = pre.length)
    (hgood : (LoaderStep.verify all base).AllGood answers) (s : State) :
    (LoaderStep.verify all base).runFrom ws.length answers s = (verifyFrom base pre.length ws s).2 := by
  induction ws generalizing pre answers s with
  | nil => rfl
  | cons w ws ih =>
    have hi : (LoaderStep.verify all base).commands[answers.length]? = some (.axiRead (patchAddr base pre.length)) := by
      rw [hlen, hall]
      exact verifyCommands_getElem?
    have hword : all[answers.length]? = some w := by simp [hall, hlen]
    rw [List.length_cons, LoaderStep.runFrom_succ hgood hi]
    by_cases hok : (perform (.axiRead (patchAddr base pre.length)) s).status = .ok
    · by_cases hw : (perform (.axiRead (patchAddr base pre.length)) s).responseWord = w
      · rw [verifyFrom_cons_ok rfl hok hw]
        have hlen' : pre.length + 1 = (pre ++ [w]).length := by simp
        rw [hlen']
        refine ih (by simp [hall]) (by simp [hlen]) (hgood.append ?_) _
        simp [LoaderStep.goesOn, hok, hword, hw]
      · rw [verifyFrom_cons_mismatch rfl hok hw]
        refine LoaderStep.runFrom_of_stop _ ?_
        simp [LoaderStep.goesOn, hok, hword, Ne.symm hw]
    · rw [verifyFrom_cons_error rfl hok]
      refine LoaderStep.runFrom_of_stop _ ?_
      simp [LoaderStep.goesOn, hok]

theorem LoaderStep.run_of_opened {step : LoaderStep} {answer : LockAnswer} {s : State}
    (h : step.opened answer = true) : step.run answer s = step.runFrom step.commands.length [] s := if_pos h

theorem LoaderStep.run_patchOffset (ws : List Word) (base : Word) (answer : LockAnswer) (s : State) :
    (LoaderStep.patchOffset ws base).run answer s = (Machine.patchOffset ws base s).2 := by
  have hlen : (LoaderStep.patchOffset ws base).commands.length = ws.length := List.length_mapIdx
  rw [LoaderStep.run_of_opened rfl, hlen]
  exact LoaderStep.runFrom_patch (pre := []) rfl (fun _ _ _ => rfl) rfl (LoaderStep.allGood_nil _) s

theorem LoaderStep.run_patch (ws : List Word) (answer : LockAnswer) (s : State) :
    (LoaderStep.patch ws).run answer s = (Machine.patch ws s).2 := by
  have hlen : (LoaderStep.patch ws).commands.length = ws.length := List.length_mapIdx
  rw [LoaderStep.run_of_opened rfl, hlen]
  exact LoaderStep.runFrom_patch (pre := []) (base := 0) rfl (fun _ _ _ => rfl) rfl (LoaderStep.allGood_nil _) s

theorem LoaderStep.run_verify (ws : List Word) (base : Word) (answer : LockAnswer) (s : State) :
    (LoaderStep.verify ws base).run answer s = (Machine.verify ws base s).2 := by
  have hlen : (LoaderStep.verify ws base).commands.length = ws.length := by
    simp [LoaderStep.commands, verifyCommands]
  rw [LoaderStep.run_of_opened rfl, hlen]
  exact LoaderStep.runFrom_verify (pre := []) rfl rfl (LoaderStep.allGood_nil _) s

/-- `init` with its acquire granted is TAP_RESET, unless power-good is wired and not asserted (R191). -/
theorem LoaderStep.run_init_granted (s : State) (givesUp wired asserted : Bool) :
    (LoaderStep.init givesUp wired asserted).run .granted s =
      if wired = true ∧ asserted = false then s else perform .tapReset s := by
  cases wired <;> cases asserted <;> rfl

theorem LoaderStep.opening_eq_acquire_iff (step : LoaderStep) (h : HostId) (givesUp : Bool) :
    step.opening h = [.acquire h givesUp] ↔ ∃ wired asserted, step = .init givesUp wired asserted := by
  cases step <;> simp [LoaderStep.opening]

theorem LoaderStep.closing_eq_release_iff (step : LoaderStep) (h : HostId) :
    step.closing h .granted = [.release h] ↔ step = .teardown ∨ ∃ g, step = .init g true false := by
  cases step with
  | init givesUp wired asserted =>
    cases wired <;> cases asserted <;> simp [LoaderStep.closing, LoaderStep.opened, LoaderStep.notPowered]
  | _ => simp [LoaderStep.closing, LoaderStep.opened]

/-- Settles O50, step by step. -/
theorem loaderStepsAreTheMacros : Obligations.LoaderStepsAreTheMacros := by
  refine ⟨fun s ws base answer => ?_, LoaderStep.run_init_granted, fun s h wired asserted hf hq hl hw => ?_,
    fun s answer => ⟨rfl, rfl, rfl⟩, fun step h givesUp => ?_⟩
  · exact ⟨LoaderStep.run_patchOffset ws base answer s, LoaderStep.run_patch ws answer s,
      LoaderStep.run_verify ws base answer s⟩
  · exact ⟨step_of_acquire_busy hf hq hl hw, rfl, fun _ => rfl, rfl⟩
  · exact ⟨step.opening_eq_acquire_iff h givesUp, step.closing_eq_release_iff h⟩

end Sys2Proof.Machine
end

section
/-!
PROOFS: the bootcode's words, and the macros over the emulation buffer (spec/43_host_sequences.md R181 to R186,
spec/95_test_vectors.md L1-1, L1-2, L1-5).
-/
namespace Sys2Proof.Machine

/-! ## The words of a bootcode (R186) -/

theorem wordsBytes_cons (order : ByteOrder) (w : Word) (ws : List Word) : wordsBytes order (w :: ws) =
    wordByte order w 0 :: wordByte order w 1 :: wordByte order w 2 :: wordByte order w 3 :: wordsBytes order ws := rfl

/-- A length that is no multiple of 4 is refused (U1). -/
theorem bootcodeWords_eq_none (order : ByteOrder) :
    ∀ blob : List Byte, blob.length % 4 ≠ 0 → bootcodeWords order blob = none
  | [], h => absurd rfl h
  | [_], _ => rfl
  | [_, _], _ => rfl
  | [_, _, _], _ => rfl
  | _ :: _ :: _ :: _ :: rest, h => by
    have hrest : rest.length % 4 ≠ 0 := by simp only [List.length_cons] at h; omega
    rw [bootcodeWords, bootcodeWords_eq_none order rest hrest, Option.map_none]

/-- Any other length gives a quarter as many words, each of four bytes, and their bytes are the blob. -/
theorem bootcodeWords_eq_some (order : ByteOrder) : ∀ blob : List Byte, blob.length % 4 = 0 →
    ∃ ws, bootcodeWords order blob = some ws ∧ 4 * ws.length = blob.length ∧
      (∀ i, i < ws.length → ws.getD i 0 = wordOfBytes order (blob.getD (4 * i) 0) (blob.getD (4 * i + 1) 0)
        (blob.getD (4 * i + 2) 0) (blob.getD (4 * i + 3) 0)) ∧
      wordsBytes order ws = blob
  | [], _ => ⟨[], rfl, rfl, nofun, rfl⟩
  | b0 :: b1 :: b2 :: b3 :: rest, h => by
    have hrest : rest.length % 4 = 0 := by simp only [List.length_cons] at h; omega
    obtain ⟨ws, hws, hlen, hwords, hbytes⟩ := bootcodeWords_eq_some order rest hrest
    refine ⟨wordOfBytes order b0 b1 b2 b3 :: ws, by rw [bootcodeWords, hws, Option.map_some], ?_, ?_, ?_⟩
    · simp only [List.length_cons]
      omega
    · rintro (_ | i) hi
      · rfl
      · exact hwords i (Nat.lt_of_succ_lt_succ hi)
    · obtain ⟨h0, h1, h2, h3⟩ := wordByte_wordOfBytes order b0 b1 b2 b3
      rw [wordsBytes_cons, h0, h1, h2, h3, hbytes]

end Sys2Proof.Machine

namespace Sys2Proof

/-- Settles O54, four bytes at a time. -/
theorem bootcodeWords : Obligations.BootcodeWords :=
  fun order blob => ⟨Machine.bootcodeWords_eq_none order blob, Machine.bootcodeWords_eq_some order blob⟩

end Sys2Proof

namespace Sys2Proof.Machine

/-! ## The bytes of words -/

theorem length_wordsBytes (order : ByteOrder) (ws : List Word) : (wordsBytes order ws).length = 4 * ws.length := by
  induction ws with
  | nil => rfl
  | cons w ws ih => rw [wordsBytes_cons]; simp only [List.length_cons, ih]; omega

/-- Byte `k` of word `j` stands at place `4 j + k` (R55). -/
theorem getD_wordsBytes (order : ByteOrder) {ws : List Word} {j k : Nat} {w : Word} (hw : ws[j]? = some w)
    (hk : k < 4) : (wordsBytes order ws).getD (4 * j + k) 0 = wordByte order w k := by
  induction ws generalizing j with
  | nil => cases hw
  | cons x ws ih =>
    rw [wordsBytes_cons]
    cases j with
    | zero =>
      cases hw
      match k, hk with
      | 0, _ | 1, _ | 2, _ | 3, _ => rfl
    | succ j =>
      rw [show 4 * (j + 1) + k = 4 * j + k + 1 + 1 + 1 + 1 by omega]
      exact ih hw

/-! ## A patch of the emulation buffer -/

/-- The byte at an address once words have been patched from `start` on, the byte `old` having stood there. -/
def patchedByte (order : ByteOrder) (ws : List Word) (start a : Nat) (old : Byte) : Byte :=
  if start ≤ a ∧ a < start + 4 * ws.length then (wordsBytes order ws).getD (a - start) 0 else old

theorem patchedByte_inside (order : ByteOrder) {ws : List Word} {start a : Nat} (old : Byte)
    (h : start ≤ a ∧ a < start + 4 * ws.length) :
    patchedByte order ws start a old = (wordsBytes order ws).getD (a - start) 0 := if_pos h

theorem patchedByte_outside (order : ByteOrder) {ws : List Word} {start a : Nat} (old : Byte)
    (h : a < start ∨ start + 4 * ws.length ≤ a) : patchedByte order ws start a old = old := if_neg (by omega)

/-- Patching a word and then the words after it is patching them all. -/
theorem patchedByte_cons (order : ByteOrder) (w : Word) (ws : List Word) (start a : Nat) (old : Byte) :
    patchedByte order (w :: ws) start a old = patchedByte order ws (start + 4) a
      (if start ≤ a ∧ a < start + 4 then wordByte order w (a - start) else old) := by
  by_cases hfirst : start ≤ a ∧ a < start + 4
  · obtain ⟨k, hk, rfl⟩ : ∃ k < 4, a = start + k := ⟨a - start, by omega, by omega⟩
    rw [patchedByte_inside order old (by rw [List.length_cons]; omega), patchedByte_outside order _ (.inl (by omega)),
      if_pos hfirst, Nat.add_sub_cancel_left]
    have hword := getD_wordsBytes order (ws := w :: ws) (j := 0) rfl hk
    rwa [Nat.mul_zero, Nat.zero_add] at hword
  · rw [if_neg hfirst]
    by_cases hin : start + 4 ≤ a ∧ a < start + 4 + 4 * ws.length
    · rw [patchedByte_inside order old (by rw [List.length_cons]; omega), patchedByte_inside order old hin,
        wordsBytes_cons, show a - start = a - (start + 4) + 1 + 1 + 1 + 1 by omega]
      rfl
    · rw [patchedByte_outside order old (by rw [List.length_cons]; omega), patchedByte_outside order old (by omega)]

/-- Under `EMUL` a patch of words that fit the buffer returns Ok, and leaves their bytes there and every other
byte as it was. -/
theorem patchFrom_emul {base : Word} {i : Nat} {ws : List Word} {s : State} (hb : s.cfg.backend = .emul)
    (ha : base.toNat % 4 = 0) (hfit : base.toNat + 4 * (i + ws.length) ≤ s.cfg.emulLen)
    (hlen : s.cfg.emulLen ≤ 2 ^ 32) :
    ∃ t, patchFrom base i ws s = (.ok, t) ∧ t.cfg = s.cfg ∧ ∀ a, Memory.read t.cfg t.emul a =
      patchedByte s.cfg.byteOrder ws (base.toNat + 4 * i) a (Memory.read s.cfg s.emul a) := by
  induction ws generalizing i s with
  | nil =>
    refine ⟨s, rfl, rfl, fun a => ?_⟩
    rw [patchedByte_outside _ _ (by rw [List.length_nil]; omega)]
  | cons w ws ih =>
    rw [List.length_cons] at hfit
    have haddr : (patchAddr base i).toNat = base.toNat + 4 * i := toNat_patchAddr_of_fits (by omega)
    have hwrite := perform_eq (exec_axiWrite_emul_ok w hb ((patchAddr_aligned_iff base i).mpr ha)
      (by rw [haddr]; omega))
    obtain ⟨t, hpatch, hcfg, hbytes⟩ := ih (i := i + 1)
      (s := ({ s with emul := memWrite s.cfg s.emul (patchAddr base i) w } : State).respond .ok .none) hb
      (le_of_eq_of_le (by omega) hfit) hlen
    refine ⟨t, (patchFrom_cons_ok hwrite rfl).trans hpatch, hcfg, fun a => ?_⟩
    rw [hbytes a, patchedByte_cons, ← haddr, ← Memory.read_memWrite, haddr]
    rfl

/-! ## A verify of the emulation buffer -/

/-- Under `EMUL` the read of a word inside the buffer answers OK and changes nothing but the response. -/
theorem perform_axiRead_emul {base : Word} {i : Nat} {s : State} (hb : s.cfg.backend = .emul)
    (ha : base.toNat % 4 = 0) (hfit : base.toNat + 4 * (i + 1) ≤ s.cfg.emulLen) (hlen : s.cfg.emulLen ≤ 2 ^ 32) :
    perform (.axiRead (patchAddr base i)) s = s.respond .ok (.word (memRead s.cfg s.emul (patchAddr base i))) := by
  have haddr : (patchAddr base i).toNat = base.toNat + 4 * i := toNat_patchAddr_of_fits (by omega)
  exact perform_eq (exec_axiRead_emul_ok hb ((patchAddr_aligned_iff base i).mpr ha) (by rw [haddr]; omega))

/-- Under `EMUL` a verify goes on past every word that reads as expected. -/
theorem verifyFrom_emul_cons {base : Word} {i : Nat} {w : Word} {ws : List Word} {s : State}
    (hb : s.cfg.backend = .emul) (ha : base.toNat % 4 = 0) (hfit : base.toNat + 4 * (i + 1) ≤ s.cfg.emulLen)
    (hlen : s.cfg.emulLen ≤ 2 ^ 32) (hw : memRead s.cfg s.emul (patchAddr base i) = w) :
    verifyFrom base i (w :: ws) s = verifyFrom base (i + 1) ws (s.respond .ok (.word w)) := by
  have hread := perform_axiRead_emul hb ha hfit hlen
  rw [hw] at hread
  exact verifyFrom_cons_ok hread rfl rfl

theorem verifyFrom_emul_ok {base : Word} {i : Nat} {ws : List Word} {s : State} (hb : s.cfg.backend = .emul)
    (ha : base.toNat % 4 = 0) (hfit : base.toNat + 4 * (i + ws.length) ≤ s.cfg.emulLen)
    (hlen : s.cfg.emulLen ≤ 2 ^ 32)
    (hws : ∀ j < ws.length, ws[j]? = some (memRead s.cfg s.emul (patchAddr base (i + j)))) :
    (verifyFrom base i ws s).1 = .ok := by
  induction ws generalizing i s with
  | nil => rfl
  | cons w ws ih =>
    rw [List.length_cons] at hfit
    have hfirst : w = memRead s.cfg s.emul (patchAddr base i) := Option.some.inj (hws 0 (Nat.succ_pos _))
    rw [verifyFrom_emul_cons hb ha (by omega) hlen hfirst.symm]
    refine ih (s := s.respond .ok (.word w)) hb (by rw [State.respond_cfg]; omega) hlen fun j hj => ?_
    rw [Nat.add_right_comm, Nat.add_assoc]
    exact hws (j + 1) (Nat.succ_lt_succ hj)

theorem verifyFrom_emul_mismatch {base : Word} {i k : Nat} {w : Word} {ws : List Word} {s : State}
    (hb : s.cfg.backend = .emul) (ha : base.toNat % 4 = 0)
    (hfit : base.toNat + 4 * (i + ws.length) ≤ s.cfg.emulLen) (hlen : s.cfg.emulLen ≤ 2 ^ 32)
    (hw : ws[k]? = some w)
    (hws : ∀ j < k, ws[j]? = some (memRead s.cfg s.emul (patchAddr base (i + j))))
    (hne : memRead s.cfg s.emul (patchAddr base (i + k)) ≠ w) :
    (verifyFrom base i ws s).1 = .verifyMismatch (i + k) w (memRead s.cfg s.emul (patchAddr base (i + k))) := by
  induction ws generalizing i k s with
  | nil => cases hw
  | cons x ws ih =>
    rw [List.length_cons] at hfit
    cases k with
    | zero =>
      cases hw
      rw [Nat.add_zero] at hne ⊢
      rw [verifyFrom_cons_mismatch (perform_axiRead_emul hb ha (by omega) hlen) rfl hne]
      rfl
    | succ k =>
      have hfirst : x = memRead s.cfg s.emul (patchAddr base i) := Option.some.inj (hws 0 (Nat.succ_pos _))
      have hnext (j : Nat) : i + 1 + j = i + (j + 1) := by omega
      rw [verifyFrom_emul_cons hb ha (by omega) hlen hfirst.symm, ← hnext k]
      refine ih (s := s.respond .ok (.word x)) hb (by rw [State.respond_cfg]; omega) hlen hw (fun j hj => ?_) ?_
      · rw [hnext]
        exact hws (j + 1) (Nat.succ_lt_succ hj)
      · rw [hnext]
        exact hne

/-! ## The round trip -/

/-- A word patched reads as itself. -/
theorem memRead_of_patched {c c' : Config} {m m' : Memory} {base : Word} {ws : List Word} {j : Nat} {w : Word}
    (hc : c' = c) (hbytes : ∀ a, Memory.read c' m' a =
      patchedByte c.byteOrder ws base.toNat a (Memory.read c m a))
    (hfit : base.toNat + 4 * ws.length ≤ 2 ^ 32) (hw : ws[j]? = some w) :
    memRead c' m' (patchAddr base j) = w := by
  subst hc
  have hj : j < ws.length := (List.getElem?_eq_some_iff.mp hw).1
  have haddr : (patchAddr base j).toNat = base.toNat + 4 * j := toNat_patchAddr_of_fits (by omega)
  have hbyte (k : Nat) (hk : k < 4) : Memory.read c' m' ((patchAddr base j).toNat + k) = wordByte c'.byteOrder w k := by
    rw [hbytes, haddr, patchedByte_inside _ _ (by omega),
      show base.toNat + 4 * j + k - base.toNat = 4 * j + k by omega, getD_wordsBytes _ hw hk]
  have hzero := hbyte 0 (by decide)
  rw [Nat.add_zero] at hzero
  rw [memRead, hzero, hbyte 1 (by decide), hbyte 2 (by decide), hbyte 3 (by decide), wordOfBytes_wordByte]

/-- Settles O51: the patch leaves the words' bytes, so every word reads as expected. -/
theorem patchThenVerifySucceeds : Obligations.PatchThenVerifySucceeds := by
  intro s ws base hb ha hfit hlen
  obtain ⟨t, hpatch, hcfg, hbytes⟩ := patchFrom_emul (i := 0) (ws := ws) hb ha (by omega) hlen
  have hresult : patchOffset ws base s = (.ok, t) := hpatch
  rw [hresult]
  refine ⟨rfl, verifyFrom_emul_ok (by rw [hcfg]; exact hb) ha (by rw [hcfg]; omega) (by rw [hcfg]; exact hlen)
    fun j hj => ?_⟩
  have hw := List.getElem?_eq_getElem hj
  rw [Nat.zero_add, memRead_of_patched hcfg hbytes (hfit.trans hlen) hw, hw]

/-- Settles O52, from word 0 on. -/
theorem verifyReportsTheFirstMismatch : Obligations.VerifyReportsTheFirstMismatch := by
  intro s ws base k w hb ha hfit hlen hw hws hne
  have h := verifyFrom_emul_mismatch (i := 0) (k := k) hb ha (by omega) hlen hw
  simp only [Nat.zero_add] at h
  exact h hws hne

/-- Settles O53: the patch leaves the words' bytes from address 0 on, and those are the blob. -/
theorem patchLeavesTheBlobInTheBuffer : Obligations.PatchLeavesTheBlobInTheBuffer := by
  intro s t blob ws hb hblob hfit hlen h
  have hmul : blob.length % 4 = 0 := by
    by_contra hne
    cases (bootcodeWords_eq_none _ blob hne).symm.trans hblob
  obtain ⟨ws', hws', hcount, -, hbytes⟩ := bootcodeWords_eq_some s.cfg.byteOrder blob hmul
  cases hws'.symm.trans hblob
  obtain ⟨t', hpatch, -, hread⟩ := patchFrom_emul (base := 0) (i := 0) (ws := ws) hb rfl
    (by rw [Nat.zero_add, hcount]; exact (Nat.zero_add _).trans_le hfit) hlen
  cases hpatch.symm.trans h
  have hstart : (0 : Word).toNat + 4 * 0 = 0 := rfl
  refine ⟨fun a hlow => ?_, fun a hhigh => ?_⟩
  · rw [hread, hstart, patchedByte_inside _ _ (by omega), hbytes, Nat.sub_zero, List.getElem?_eq_getElem hlow,
      List.getD_eq_getElem _ _ hlow]
  · rw [hread, hstart, patchedByte_outside _ _ (by omega)]

end Sys2Proof.Machine
end

section
/-!
PROOFS: the block's mirror tracks the target's TAP (spec/10_state.md R37, spec/20_memory.md R70).
-/
namespace Sys2Proof.Machine

/-! ## The target's TAP at a tick -/

theorem Target.leave_tap (W : TargetWorld) (c : Config) (T : Target) (tdi : Bool) :
    (T.leave W c tdi).tap = T.tap := by
  unfold Target.leave
  split <;> rfl

theorem Target.resetTap_tap (W : TargetWorld) (c : Config) (T : Target) : (T.resetTap W c).tap = T.tap := by
  unfold Target.resetTap
  split <;> rfl

theorem Target.enter_tap (W : TargetWorld) (c : Config) (T : Target) : (T.enter W c).tap = T.tap := by
  unfold Target.enter
  split
  · exact T.updateIr_tap W c
  · exact T.updateDr_tap W c
  · exact T.resetTap_tap W c
  · rfl

/-- Whatever a tick does in the target, it moves the TAP by R111. -/
theorem Target.tick_tap (W : TargetWorld) (c : Config) (T : Target) (tms tdi : Bool) :
    (T.tick W c tms tdi).tap = T.tap.next tms := by
  rw [Target.tick, Target.enter_tap, Target.leave_tap, Target.age_tap]

theorem Target.ticked_tap (W : TargetWorld) (c : Config) (ts : List Tick) (T : Target) :
    Mirror.known (T.ticked W c ts).tap = (Mirror.known T.tap).walk (ts.map Tick.tms) := by
  induction ts generalizing T with
  | nil => rfl
  | cons t ts ih =>
    have hstep : T.ticked W c (t :: ts) = (T.tick W c t.tms t.tdi).ticked W c ts := rfl
    rw [hstep, ih, Target.tick_tap]
    rfl

/-- The target as the command that ends in `t` finds it: it retrieves exactly when the command answers a word. -/
def Target.begun (T : Target) (t : State) : Target := { T with retrieving := t.readAnswered }

theorem Target.reaction_eq (W : TargetWorld) (s t : State) (T : Target) :
    T.reaction W s t = (T.begun t).react W s.cfg (newEvents s t) false false := rfl

/-- The target's reaction to a command whose events are those of complete ticks. -/
theorem Target.reaction_of_ticks {W : TargetWorld} {s t : State} {T : Target} {ts : List Tick}
    (h : t.trace = s.trace ++ okEvents (ticksPrims ts)) :
    T.reaction W s t = ((T.begun t).ticked W s.cfg ts, (T.begun t).answers W s.cfg ts) := by
  rw [Target.reaction_eq, newEvents_of_append h, Target.react_ticks]

/-! ## Ticks between two states -/

/-- From `s` to `t` complete ticks take place, and the mirror has walked along them. -/
def State.Walks (s t : State) : Prop :=
  ∃ ts : List Tick, t.trace = s.trace ++ okEvents (ticksPrims ts) ∧ t.tap = s.tap.walk (ts.map Tick.tms)

theorem State.Walks.of_same {s t : State} (htrace : t.trace = s.trace) (htap : t.tap = s.tap) : s.Walks t :=
  ⟨[], by simp [htrace, ticksPrims, okEvents], htap⟩

theorem State.Walks.trans {s t u : State} (h : s.Walks t) (h' : t.Walks u) : s.Walks u := by
  obtain ⟨ts, htrace, htap⟩ := h
  obtain ⟨us, htrace', htap'⟩ := h'
  refine ⟨ts ++ us, ?_, by rw [htap', htap, List.map_append, Mirror.walk_append]⟩
  rw [htrace', htrace, ticksPrims_append, okEvents_append, List.append_assoc]

theorem Run.walks_scanned (kind : ScanKind) {v : Bits} {r : Run} (hv : 1 ≤ v.length) (hm : r.st.IdleTap) :
    r.st.Walks (r.scanned kind v).st :=
  ⟨scanTicks r.st.cfg.bitOrder kind r.st.tap v, rfl, (scanTicks_walk _ kind _ v hv hm).symm⟩

theorem Run.walks_waited (n : Nat) {r : Run} (hm : r.st.tap = .known .runTestIdle) : r.st.Walks (r.waited n).st := by
  refine ⟨idleTicks n, rfl, ?_⟩
  have htap : (r.waited n).st.tap = r.st.tap := rfl
  rw [htap, hm, idleTicks, List.map_replicate, Mirror.walk_replicate]
  rfl

/-! ## The commands -/

/-- After the command the mirror is unknown, or it has walked along complete ticks. -/
def State.Tracks (s t : State) : Prop := t.tap = .unknown ∨ s.Walks t

theorem State.Walks.respond {s t : State} (h : s.Walks t) (st : Status) (data : RespData) :
    s.Tracks (t.respond st data) := .inr h

theorem Drive.Sound.finish_tracks {s : State} {d : Drive} (hs : d.Sound s.begin) (data : State → RespData)
    (h : (∃ r, d = .ended .ioError r) ∨ s.Walks d.run.st) : s.Tracks (d.finish data) := by
  rcases h with ⟨r, rfl⟩ | h
  · exact .inl hs.tap_unknown
  · cases d <;> exact .inr h

theorem State.rawShift_tracks {s : State} (kind : ScanKind) (v : Bits) (htap : s.TapOk) :
    s.Tracks (s.rawShift kind v) := by
  unfold State.rawShift
  split_ifs with hlen hready
  · exact .inr (.of_same rfl rfl)
  · have hv : 1 ≤ v.length := one_le_of_shiftLengthOk (by simpa using hlen)
    have hidle : s.IdleTap := htap.idleTap hready
    refine (scan_sound kind v s.begin).finish_tracks _ ?_
    rcases scan_cases kind v s.begin hv hidle with h | h
    · exact .inr (by rw [h]; exact Run.walks_scanned (r := s.begin) kind hv hidle)
    · exact .inl h
  · exact .inr (.of_same rfl rfl)

theorem Run.walks_wrote (addr word : Word) {r : Run} (hv : r.st.cfg.valid = true) (hm : r.st.IdleTap) :
    r.st.Walks (r.wrote addr word).st := by
  obtain ⟨-, -, -, hir, hwr, -, -, hwl, -⟩ := Config.bounds_of_valid hv
  have hpayload : 1 ≤ (wrPayload r.st.cfg addr word).length := by rw [length_wrPayload]; omega
  exact ((Run.walks_scanned .ir (by omega) hm).trans (Run.walks_scanned .dr hpayload (.inr rfl))).trans
    (Run.walks_waited _ rfl)

theorem State.hwWrite_tracks {s : State} (addr word : Word) (hv : s.cfg.valid = true) (htap : s.TapOk) :
    s.Tracks (s.hwWrite addr word) := by
  obtain ⟨-, -, -, hir, hwr, -⟩ := Config.bounds_of_valid hv
  unfold State.hwWrite
  split_ifs with hready
  · exact .inr (.of_same rfl rfl)
  · exact .inr (.of_same rfl rfl)
  · have hidle : s.IdleTap := htap.idleTap (by simpa using hready)
    refine (writeScans_sound addr word s.begin).finish_tracks _ ?_
    rcases writeScans_cases addr word s.begin hv hidle with ⟨-, h⟩ | ⟨-, h⟩ | h
    · exact .inr (by rw [h]; exact Run.walks_wrote (r := s.begin) addr word hv hidle)
    · exact .inr (by rw [h]; exact Run.walks_scanned (r := s.begin) .ir (hir.trans_eq hwr.symm) hidle)
    · exact .inl h

theorem Run.walks_addressed (addr : Word) {r : Run} (hv : r.st.cfg.valid = true) (hm : r.st.IdleTap) :
    r.st.Walks (r.addressed addr).st := by
  obtain ⟨-, -, -, hir, -, hrd, -, -, hrl, -⟩ := Config.bounds_of_valid hv
  have hpayload : 1 ≤ (rdPayload r.st.cfg addr).length := by rw [length_rdPayload]; omega
  exact ((Run.walks_scanned .ir (by omega) hm).trans (Run.walks_scanned .dr hpayload (.inr rfl))).trans
    (Run.walks_waited _ rfl)

theorem Run.walks_dataSelected {r : Run} (hv : r.st.cfg.valid = true) (hm : r.st.tap = .known .runTestIdle) :
    r.st.Walks r.dataSelected.st := by
  obtain ⟨-, -, -, hir, -, -, hdata, -⟩ := Config.bounds_of_valid hv
  unfold Run.dataSelected
  split
  · exact .of_same rfl rfl
  · next d hd => exact Run.walks_scanned .ir (by rw [hdata d hd]; exact hir) (.inr hm)

theorem Run.walks_readBack (addr : Word) {r : Run} (hv : r.st.cfg.valid = true) (hm : r.st.IdleTap) :
    r.st.Walks (r.readBack addr).st := by
  obtain ⟨-, -, -, -, -, -, -, -, hrl, -⟩ := Config.bounds_of_valid hv
  obtain ⟨-, htap⟩ := (r.addressed addr).dataSelected_frame rfl
  have hpayload : 1 ≤ (rdPayload r.st.cfg addr).length := by rw [length_rdPayload]; omega
  exact ((Run.walks_addressed addr hv hm).trans (Run.walks_dataSelected hv rfl)).trans
    (Run.walks_scanned .dr hpayload (.inr htap))

theorem State.hwRead_tracks {s : State} (addr : Word) (hv : s.cfg.valid = true) (htap : s.TapOk) :
    s.Tracks (s.hwRead addr) := by
  obtain ⟨-, -, -, hir, -, hrd, hdata, -⟩ := Config.bounds_of_valid hv
  unfold State.hwRead
  split_ifs with hready
  · exact .inr (.of_same rfl rfl)
  · exact .inr (.of_same rfl rfl)
  · have hidle : s.IdleTap := htap.idleTap (by simpa using hready)
    refine (readScans_sound addr s.begin).finish_tracks _ ?_
    rcases readScans_cases addr s.begin hv hidle with ⟨-, -, h⟩ | ⟨-, h⟩ | ⟨d, hd, -, -, h⟩ | h
    · exact .inr (by rw [h]; exact Run.walks_readBack (r := s.begin) addr hv hidle)
    · exact .inr (by rw [h]; exact Run.walks_scanned (r := s.begin) .ir (hir.trans_eq hrd.symm) hidle)
    · have hcode : 1 ≤ d.length := by rw [hdata d hd]; exact hir
      exact .inr (by
        rw [h]
        exact (Run.walks_addressed (r := s.begin) addr hv hidle).trans (Run.walks_scanned .ir hcode (.inr rfl)))
    · exact .inl h

theorem State.emulWrite_tracks (s : State) (addr word : Word) : s.Tracks (s.emulWrite addr word) := by
  unfold State.emulWrite
  split_ifs <;> exact .inr (.of_same rfl rfl)

theorem State.emulRead_tracks (s : State) (addr : Word) : s.Tracks (s.emulRead addr) := by
  unfold State.emulRead
  split_ifs <;> exact .inr (.of_same rfl rfl)

theorem exec_tracks {i : Instr} {s t : State} (hi : i ≠ .tapReset) (hv : s.cfg.valid = true) (htap : s.TapOk)
    (h : exec i s = .next t) : s.Tracks t := by
  cases i with
  | tapReset => exact absurd rfl hi
  | shiftIr v => cases h; exact State.rawShift_tracks .ir v htap
  | shiftDr v => cases h; exact State.rawShift_tracks .dr v htap
  | axiWrite addr word =>
    cases hb : s.cfg.backend with
    | hw => rw [exec_axiWrite_hw hb] at h; cases h; exact State.hwWrite_tracks addr word hv htap
    | emul => rw [exec_axiWrite_emul hb] at h; cases h; exact s.emulWrite_tracks addr word
  | axiRead addr =>
    cases hb : s.cfg.backend with
    | hw => rw [exec_axiRead_hw hb] at h; cases h; exact State.hwRead_tracks addr hv htap
    | emul => rw [exec_axiRead_emul hb] at h; cases h; exact s.emulRead_tracks addr
  | release => cases h; exact .inl (release_frame s).1

theorem Mirror.walk_unknown (tms : List Bool) : Mirror.unknown.walk tms = .unknown := by
  induction tms with
  | nil => rfl
  | cons b rest ih => exact ih

/-- A mirror that has walked along a command's ticks stands where the target's TAP stands. -/
theorem State.Tracks.after {W : TargetWorld} {s t : State} {T : Target} (h : s.Tracks t)
    (hm : s.tap = .unknown ∨ s.tap = .known T.tap) : t.tap = .unknown ∨ t.tap = .known (T.after W s t).tap := by
  rcases h with h | ⟨ts, htrace, htap⟩
  · exact .inl h
  · refine hm.imp (fun hunknown => by rw [htap, hunknown, Mirror.walk_unknown]) fun hknown => ?_
    rw [htap, hknown, Target.after, Target.reaction_of_ticks htrace, Target.ticked_tap]
    rfl

/-! ## TAP_RESET finds the target again -/

/-- Driving TCK low is nothing to the target (R70). -/
theorem Target.react_claim (W : TargetWorld) (c : Config) (claimed : Bool) (rest : List PinEvent) (a b : Bool)
    (T : Target) : T.react W c (okEvents (if claimed then [] else [.set .tck false]) ++ rest) a b =
      T.react W c rest a b := by
  cases claimed <;> rfl

/-- A drive of TAP_RESET that goes through claims the pins and ticks. -/
theorem State.trace_claimedPins_wasReset (s : State) : s.begin.claimedPins.wasReset.st.trace =
    s.trace ++ (okEvents (if s.claimed then [] else [.set .tck false]) ++ okEvents (ticksPrims (resetTicks s.cfg))) := by
  rw [State.claimedPins_wasReset_st, ← ticksPrims_resetTicks, okEvents_append]

/-- After the reset sequence the target's TAP is in Test-Logic-Reset, wherever it was (R119). -/
theorem Target.ticked_resetTicks_tap (W : TargetWorld) {c : Config} (T : Target) (hc : c.valid = true) :
    (T.ticked W c (resetTicks c)).tap = .testLogicReset := by
  have hcount : 5 ≤ c.resetTcks := (Config.bounds_of_valid hc).1
  have hwalk := T.ticked_tap W c (resetTicks c)
  have htms : (resetTicks c).map Tick.tms = List.replicate c.resetTcks true := List.map_replicate
  rw [htms, T.tap.walk_replicate_true hcount] at hwalk
  exact Mirror.known.inj hwalk

theorem State.tapReset_tracks (W : TargetWorld) {s : State} {T : Target} (hv : s.cfg.valid = true)
    (hm : s.tap = .unknown ∨ s.tap = .known T.tap) :
    s.tapReset.tap = .unknown ∨ s.tapReset.tap = .known (T.after W s s.tapReset).tap := by
  cases hp : s.pinsReady with
  | false =>
    rw [State.tapReset_of_not_pinsReady hp]
    exact State.Tracks.after (.inr (.of_same rfl rfl)) hm
  | true =>
    have hsound := tapResetDrive_sound s
    rcases tapResetDrive_cases s hv with h | ⟨r, h⟩
    · right
      have hfin : s.tapReset = s.begin.claimedPins.wasReset.st.respond .ok .none := by
        rw [State.tapReset_of_pinsReady hp, h, Drive.finish_going]
      rw [hfin, Target.after, Target.reaction_eq,
        newEvents_of_append (t := s.begin.claimedPins.wasReset.st.respond .ok .none) s.trace_claimedPins_wasReset,
        Target.react_claim, Target.react_ticks, Target.ticked_resetTicks_tap W _ hv]
      rfl
    · rw [State.tapReset_of_pinsReady hp, h]
      rw [h] at hsound
      exact .inl hsound.tap_unknown

/-- Settles O55: every command but TAP_RESET walks the mirror along its ticks or forgets it, and TAP_RESET finds
the target again. -/
theorem mirrorTracksTheTarget : Obligations.MirrorTracksTheTarget := by
  intro W i s t T hv htap hm h
  by_cases hi : i = .tapReset
  · subst hi
    cases h
    exact State.tapReset_tracks W hv hm
  · exact (exec_tracks hi hv htap h).after hm

end Sys2Proof.Machine
end

section
/-!
PROOFS: a hardware AXI_WRITE under the target contract (spec/20_memory.md R71, R73).
-/
namespace Sys2Proof.Machine

/-! ## A data-register scan as long as its register -/

/-- The target as it acts at the Update-DR of a scan of `v`: time has passed, a latch is used up, and `v` is in
the register and on its parallel output (R70). -/
def Target.updating (W : TargetWorld) (c : Config) (v : Bits) (T : Target) : Target :=
  { T.aged W ((scanTicks c.bitOrder .dr (.known T.tap) v).length - 1) with
    tap := .updateDr
    ir := T.ir
    shift := wireOrder c.bitOrder v
    shifted := v.length
    drOut := (T.ir, v) :: T.drOut
    captures := T.captures + 1
    read := .none }

theorem Target.updating_vector (W : TargetWorld) (c : Config) (v : Bits) (T : Target) :
    (T.updating W c v).vector c = v := wireOrder_wireOrder c.bitOrder v

theorem Target.updating_accesses (W : TargetWorld) (c : Config) (v : Bits) (T : Target) :
    (T.updating W c v).accesses = T.accesses := by
  obtain ⟨-, -, -, -, -, -, -, -, -, haccesses⟩ :=
    T.aged_frame W ((scanTicks c.bitOrder .dr (.known T.tap) v).length - 1)
  exact haccesses

theorem Target.updating_coreHalted (W : TargetWorld) (c : Config) (v : Bits) (T : Target) :
    (T.updating W c v).coreHalted = T.coreHalted := by
  obtain ⟨-, -, -, -, -, -, hhalted, -⟩ :=
    T.aged_frame W ((scanTicks c.bitOrder .dr (.known T.tap) v).length - 1)
  exact hhalted

/-- A scan as long as the selected register: its capture comes out, and Update-DR acts on the vector. -/
theorem Target.scan_dr_startAccess (W : TargetWorld) (c : Config) (v : Bits) (T : Target) (hv : 1 ≤ v.length)
    (hl : v.length = Target.drLen W c T.ir) (ht : T.tap = .testLogicReset ∨ T.tap = .runTestIdle) :
    T.ticked W c (scanTicks c.bitOrder .dr (.known T.tap) v) =
        { ((T.updating W c v).startAccess W c).age W with tap := .runTestIdle } ∧
      T.answers W c (scanTicks c.bitOrder .dr (.known T.tap) v) =
        (T.aged W (gotoIdle (.known T.tap) ++ walkIn .dr).length).drCapture W c := by
  obtain ⟨-, -, -, -, hout, -⟩ := T.aged_frame W ((scanTicks c.bitOrder .dr (.known T.tap) v).length - 1)
  obtain ⟨hticked, hanswers⟩ := T.scan_dr W c v hv hl ht
  refine ⟨?_, hanswers⟩
  rw [hticked, Target.updateDr_of_length W c _ hl]
  simp only [Target.vector, wireOrder_wireOrder, hout]
  rfl

/-- Time does not look at the TAP state. -/
theorem Target.aged_with_tap (W : TargetWorld) (n : Nat) (T : Target) (tap : TapState) :
    ({ T with tap := tap } : Target).aged W n = { T.aged W n with tap := tap } := by
  induction n generalizing T with
  | zero => rfl
  | succ n ih => exact ih (T.age W)

/-! ## The write -/

/-- The ticks of a write that no failure stops, from a mirror state (R154). -/
def writeScanTicks (c : Config) (m : Mirror) (addr word : Word) : List Tick :=
  scanTicks c.bitOrder .ir m c.irAxiWrite ++
    (scanTicks c.bitOrder .dr (.known .runTestIdle) (wrPayload c addr word) ++ idleTicks c.writeWaitTcks)

/-- An AXI_WRITE on hardware that answers `OK` has driven the ticks of its scans, all of them (R160). -/
theorem State.hwWrite_leaves {s : State} {addr word : Word} (hv : s.cfg.valid = true) (hm : s.IdleTap)
    (hok : (s.hwWrite addr word).AnsweredOk) :
    (s.hwWrite addr word).tap = .known .runTestIdle ∧ (s.hwWrite addr word).claimed = s.claimed ∧
      (s.hwWrite addr word).trace = s.trace ++ okEvents (ticksPrims (writeScanTicks s.cfg s.tap addr word)) := by
  have hscans := State.hwWrite_of_answeredOk hok
  rw [hscans] at hok ⊢
  rcases writeScans_cases addr word s.begin hv hm with ⟨-, h⟩ | ⟨-, h⟩ | ⟨r', h⟩ <;> rw [h] at hok ⊢
  · rw [Drive.finish_going, State.begin_wrote_st addr word hv, writeScanTicks, ticksPrims_append, ticksPrims_append,
      ← List.append_assoc]
    exact ⟨rfl, rfl, rfl⟩
  · exact absurd hok (State.not_answeredOk_respond (by decide))
  · exact absurd hok (State.not_answeredOk_respond (by decide))

theorem drLen_irAxiWrite (W : TargetWorld) {c : Config} (h : c.irAxiRead ≠ c.irAxiWrite) :
    Target.drLen W c c.irAxiWrite = c.axiWrDrLen := by
  rw [Target.drLen, drRole_irAxiWrite h]

/-- At the write port the payload of an aligned address is the write of its word (R71, R151). -/
theorem Target.startAccess_wrPayload (W : TargetWorld) {c : Config} {addr : Word} (word : Word) {T : Target}
    (hv : c.valid = true) (hcodes : c.irAxiRead ≠ c.irAxiWrite) (ha : addr.toNat % 4 = 0)
    (hir : T.ir = c.irAxiWrite) (hvec : T.vector c = wrPayload c addr word) :
    T.startAccess W c = T.write W addr word := by
  rw [Target.startAccess, hir, drRole_irAxiWrite hcodes, hvec, wordAt_wrPayload_addr hv, wordAt_wrPayload_data hv,
    phaseAddr_addrPhase _ ha]

/-- A target without a write in flight whose core is halted: its memory is what the accesses alone have made it. -/
structure Target.Rests (T : Target) (mem : List (Word × Word)) : Prop where
  halted : T.coreHalted = true
  noWrites : T.writes = []
  holds : T.mem = mem

theorem Target.Rests.aged {W : TargetWorld} {T : Target} {mem : List (Word × Word)} (h : T.Rests mem) (n : Nat) :
    (T.aged W n).Rests mem := by
  obtain ⟨hmem, hwrites, -⟩ := T.aged_of_no_writes W n h.halted h.noWrites
  obtain ⟨-, -, -, -, -, -, hhalted, -⟩ := T.aged_frame W n
  exact ⟨hhalted.trans h.halted, hwrites, hmem.trans h.holds⟩

/-- What the scans move of a target is no part of its memory. -/
theorem Target.Rests.of_same {T T' : Target} {mem : List (Word × Word)} (h : T.Rests mem)
    (hhalted : T'.coreHalted = T.coreHalted) (hwrites : T'.writes = T.writes) (hmem : T'.mem = T.mem) :
    T'.Rests mem :=
  ⟨hhalted.trans h.halted, hwrites.trans h.noWrites, hmem.trans h.holds⟩

theorem Target.Rests.updating {W : TargetWorld} {T : Target} {mem : List (Word × Word)} (h : T.Rests mem)
    (c : Config) (v : Bits) : (T.updating W c v).Rests mem := (h.aged _).of_same rfl rfl rfl

/-- A write to backed memory is complete, and the one change, once the ticks that the target needs are over
(R71). -/
theorem Target.Rests.write_aged {W : TargetWorld} {T : Target} {mem : List (Word × Word)} (h : T.Rests mem)
    {addr word : Word} {n : Nat} (hw : W.writable addr = true) (hn : W.writeTicks ≤ n) :
    ((T.write W addr word).aged W n).Rests ((addr, word) :: mem) := by
  obtain ⟨hhalted, hwrites, hmem⟩ := h
  by_cases h0 : W.writeTicks = 0
  · have hrests : (T.write W addr word).Rests ((addr, word) :: mem) := by
      constructor <;> simp [Target.write, hw, h0, hhalted, hwrites, hmem]
    exact hrests.aged n
  · have hlone : (T.write W addr word).writes = [(W.writeTicks, addr, word)] := by
      simp [Target.write, hw, h0, hwrites]
    obtain ⟨hsame, hhalted⟩ : (T.write W addr word).mem = mem ∧ (T.write W addr word).coreHalted = true := by
      simp [Target.write, hw, h0, hmem, hhalted]
    obtain ⟨hmem', hwrites'⟩ := Target.aged_of_one_write W n _ addr word (T.write W addr word) hhalted hlone
      (Nat.one_le_iff_ne_zero.mpr h0) hn
    obtain ⟨-, -, -, -, -, -, hhalted', -⟩ := (T.write W addr word).aged_frame W n
    exact ⟨hhalted'.trans hhalted, hwrites', by rw [hmem', hsame]⟩

/-- The target after the ticks of a write: the write has started at Update-DR, and the rest is time (R71). -/
theorem Target.ticked_writeScanTicks (W : TargetWorld) {c : Config} {addr : Word} (word : Word) {T : Target}
    (hv : c.valid = true) (hcodes : c.irAxiRead ≠ c.irAxiWrite) (ha : addr.toNat % 4 = 0)
    (ht : T.tap = .testLogicReset ∨ T.tap = .runTestIdle) :
    ∃ U : Target, T.ticked W c (writeScanTicks c (.known T.tap) addr word) =
        { (U.write W addr word).aged W (c.writeWaitTcks + 1) with tap := .runTestIdle } ∧
      U.accesses = T.accesses ∧ ∀ mem, T.Rests mem → U.Rests mem := by
  obtain ⟨-, -, -, hir, hcode, -, -, hwl, -⟩ := Config.bounds_of_valid hv
  obtain ⟨hselect, -⟩ := T.scan_ir W c c.irAxiWrite (by omega) hcode (drRole_irAxiWrite_ne_foreign c) ht
  set S : Target := T.ticked W c (scanTicks c.bitOrder .ir (.known T.tap) c.irAxiWrite) with hS
  have hSir : S.ir = c.irAxiWrite := by rw [hselect]
  have hStap : S.tap = .runTestIdle := by rw [hselect]
  have hlen : (wrPayload c addr word).length = Target.drLen W c S.ir := by
    rw [hSir, drLen_irAxiWrite W hcodes, length_wrPayload]
  obtain ⟨hdata, -⟩ := S.scan_dr_startAccess W c (wrPayload c addr word) (by rw [length_wrPayload]; omega) hlen
    (.inr hStap)
  have hwrite : (S.updating W c (wrPayload c addr word)).startAccess W c =
      (S.updating W c (wrPayload c addr word)).write W addr word :=
    Target.startAccess_wrPayload W word hv hcodes ha hSir (S.updating_vector W c _)
  rw [hStap, hwrite] at hdata
  refine ⟨S.updating W c (wrPayload c addr word), ?_, ?_, fun mem h => ?_⟩
  · rw [writeScanTicks, Target.ticked_append, ← hS, Target.ticked_append, hdata,
      (Target.idle_ticked W c c.writeWaitTcks _ rfl).1, Target.aged_with_tap, Nat.add_comm, Target.aged_add]
    rfl
  · obtain ⟨-, -, -, -, -, -, -, -, -, haccesses⟩ :=
      T.aged_frame W (scanTicks c.bitOrder .ir (.known T.tap) c.irAxiWrite).length
    rw [S.updating_accesses, hselect]
    exact haccesses
  · refine Target.Rests.updating ?_ c _
    rw [hselect]
    exact (h.aged _).of_same rfl rfl rfl

/-- What an AXI_WRITE that answers `OK` leaves in a target that follows the contract (R71, R73). -/
theorem Target.after_write (W : TargetWorld) {s t : State} {T : Target} {addr word : Word} (hv : s.cfg.valid = true)
    (hb : s.cfg.backend = .hw) (hm : s.IdleTap) (htap : s.tap = .known T.tap)
    (hcodes : s.cfg.irAxiRead ≠ s.cfg.irAxiWrite) (ha : addr.toNat % 4 = 0)
    (h : exec (.axiWrite addr word) s = .next t) (hok : t.AnsweredOk) :
    (T.after W s t).tap = .runTestIdle ∧ t.tap = .known .runTestIdle ∧ t.claimed = s.claimed ∧
      (T.after W s t).accesses = T.accesses ++ [.write addr word] ∧
      (T.coreHalted = true → W.backed addr = true → T.writes = [] → W.writeTicks ≤ s.cfg.writeWaitTcks →
        (T.after W s t).Rests ((addr, word) :: T.mem)) := by
  have hTtap : T.tap = .testLogicReset ∨ T.tap = .runTestIdle := by simpa [State.IdleTap, htap] using hm
  rw [exec_axiWrite_hw hb] at h
  cases h
  obtain ⟨hidle, hclaimed, htrace⟩ := State.hwWrite_leaves hv hm hok
  obtain ⟨U, hticked, haccesses, hrests⟩ :=
    (T.begun (s.hwWrite addr word)).ticked_writeScanTicks W (addr := addr) word hv hcodes ha hTtap
  rw [htap] at htrace
  have hafter : T.after W s (s.hwWrite addr word) =
      { (U.write W addr word).aged W (s.cfg.writeWaitTcks + 1) with tap := .runTestIdle } := by
    rw [Target.after, Target.reaction_of_ticks htrace]
    exact hticked
  rw [hafter]
  obtain ⟨-, -, -, -, -, -, -, -, -, haged⟩ := (U.write W addr word).aged_frame W (s.cfg.writeWaitTcks + 1)
  refine ⟨rfl, hidle, hclaimed, ?_, fun hhalted hbacked hwrites hn => ?_⟩
  · exact haged.trans (by rw [Target.write_accesses, haccesses]; rfl)
  · have hU : U.Rests T.mem := hrests T.mem ⟨hhalted, hwrites, rfl⟩
    have hw : W.writable addr = true := by rw [TargetWorld.writable, aligned_iff.mpr ha, hbacked]; rfl
    exact (hU.write_aged (word := word) hw (Nat.le_succ_of_le hn)).of_same rfl rfl rfl

/-- Settles O56: the write's scans start the one write at Update-DR, and the wait completes it. -/
theorem hardwareWriteCausesOneWrite : Obligations.HardwareWriteCausesOneWrite := by
  intro W s t T addr word hv hb hs htap hcodes ha h hresp
  obtain ⟨-, -, -, haccesses, hmem⟩ := Target.after_write W hv hb hs.idleTap htap hcodes ha h
    (by rw [State.AnsweredOk, hresp]; rfl)
  refine ⟨haccesses, fun hhalted hbacked hwrites hn => ?_⟩
  have hrests := hmem hhalted hbacked hwrites hn
  exact ⟨hrests.holds, hrests.noWrites⟩

end Sys2Proof.Machine
end

section
/-!
PROOFS: a hardware AXI_READ under the target contract (spec/20_memory.md R64, R72, R73).
-/
namespace Sys2Proof.Machine

/-! ## The codes and the registers they select -/

/-- The bridge's codes differ from each other. -/
def OwnCodes (c : Config) : Prop :=
  c.irAxiRead ≠ c.irAxiWrite ∧ ∀ d, c.irAxiReadData = some d → d ≠ c.irAxiWrite ∧ d ≠ c.irAxiRead

/-- The instruction whose register returns read data (R72). -/
def retrieveIr (c : Config) : Bits := c.irAxiReadData.getD c.irAxiRead

theorem retrieveIr_of_none {c : Config} (h : c.irAxiReadData = none) : retrieveIr c = c.irAxiRead := by
  rw [retrieveIr, h]
  rfl

theorem retrieveIr_of_some {c : Config} {d : Bits} (h : c.irAxiReadData = some d) : retrieveIr c = d := by
  rw [retrieveIr, h]
  rfl

theorem readsBack_retrieveIr (c : Config) : readsBack c (retrieveIr c) = true := beq_self_eq_true _

theorem OwnCodes.ports {c : Config} (h : OwnCodes c) : c.irAxiRead ≠ c.irAxiWrite := by
  obtain ⟨hports, -⟩ := h
  exact hports

theorem OwnCodes.drRole_retrieveIr {c : Config} (h : OwnCodes c) :
    drRole c (retrieveIr c) = if c.irAxiReadData = none then .read else .readData := by
  obtain ⟨hports, hdata⟩ := h
  cases hd : c.irAxiReadData with
  | none => rw [if_pos rfl, retrieveIr_of_none hd, drRole_irAxiRead hports]
  | some d =>
    obtain ⟨hw, hr⟩ := hdata d hd
    rw [if_neg nofun, retrieveIr_of_some hd, drRole_irAxiReadData hd hw hr]

theorem drLen_irAxiRead (W : TargetWorld) {c : Config} (h : c.irAxiRead ≠ c.irAxiWrite) :
    Target.drLen W c c.irAxiRead = c.axiRdDrLen := by
  rw [Target.drLen, drRole_irAxiRead h]

theorem OwnCodes.drLen_retrieveIr {c : Config} (h : OwnCodes c) (W : TargetWorld) :
    Target.drLen W c (retrieveIr c) = c.axiRdDrLen := by
  rw [Target.drLen, h.drRole_retrieveIr]
  split_ifs <;> rfl

/-- At the read port the payload of an aligned address is the read of its word (R72, R152). -/
theorem Target.startAccess_rdPayload (W : TargetWorld) {c : Config} {addr : Word} {T : Target}
    (hv : c.valid = true) (ha : addr.toNat % 4 = 0) (hrole : drRole c T.ir = .read)
    (hvec : T.vector c = rdPayload c addr) : T.startAccess W c = T.startRead W addr := by
  rw [Target.startAccess, hrole, hvec, wordAt_rdPayload_addr hv, phaseAddr_addrPhase _ ha]

/-! ## The target during a read -/

/-- The target at rest in a command that retrieves a word: its memory, its accesses so far, and its read latch. -/
structure Target.Reading (T : Target) (mem : List (Word × Word)) (accesses : List TargetAccess)
    (read : ReadPhase) : Prop extends T.Rests mem where
  accessed : T.accesses = accesses
  latch : T.read = read
  retrieves : T.retrieving = true

theorem Target.Reading.aged {W : TargetWorld} {T : Target} {mem : List (Word × Word)} {accesses : List TargetAccess}
    {read : ReadPhase} (h : T.Reading mem accesses read) (n : Nat) :
    (T.aged W n).Reading mem accesses (read.aged n) := by
  obtain ⟨-, -, -, -, -, -, -, -, hread, haccesses⟩ := T.aged_frame W n
  exact ⟨h.toRests.aged n, haccesses.trans h.accessed, by rw [hread, h.latch],
    (T.aged_retrieving W n).trans h.retrieves⟩

theorem Target.Reading.updating {W : TargetWorld} {T : Target} {mem : List (Word × Word)}
    {accesses : List TargetAccess} {read : ReadPhase} (h : T.Reading mem accesses read) (c : Config) (v : Bits) :
    (T.updating W c v).Reading mem accesses .none :=
  ⟨h.toRests.updating c v, (T.updating_accesses W c v).trans h.accessed, rfl,
    (T.aged_retrieving W _).trans h.retrieves⟩

/-- A read at readable memory latches the word there (R72). -/
theorem Target.Reading.startRead {W : TargetWorld} {T : Target} {mem : List (Word × Word)}
    {accesses : List TargetAccess} {read : ReadPhase} (h : T.Reading mem accesses read) {addr : Word}
    (hr : W.readable addr = true) : (T.startRead W addr).Reading mem (accesses ++ [.read addr])
      (.latched W.readTicks (Target.load W mem addr)) := by
  rw [Target.startRead_of_readable W T addr hr h.halted h.noWrites]
  exact ⟨h.toRests.of_same rfl rfl rfl, by rw [h.accessed], by rw [h.holds], h.retrieves⟩

/-- An IR scan of a bridge code, for the memory, is time. -/
theorem Target.Reading.scan_ir {W : TargetWorld} {T : Target} {mem : List (Word × Word)}
    {accesses : List TargetAccess} {read : ReadPhase} (h : T.Reading mem accesses read) {c : Config} {v : Bits}
    (hv : 1 ≤ v.length) (hl : v.length = c.irLen) (hr : drRole c v ≠ .foreign)
    (ht : T.tap = .testLogicReset ∨ T.tap = .runTestIdle) :
    (T.ticked W c (scanTicks c.bitOrder .ir (.known T.tap) v)).Reading mem accesses
        (read.aged (scanTicks c.bitOrder .ir (.known T.tap) v).length) ∧
      (T.ticked W c (scanTicks c.bitOrder .ir (.known T.tap) v)).tap = .runTestIdle ∧
      (T.ticked W c (scanTicks c.bitOrder .ir (.known T.tap) v)).ir = v ∧
      (T.answers W c (scanTicks c.bitOrder .ir (.known T.tap) v)).length = v.length := by
  obtain ⟨hticked, hanswers⟩ := T.scan_ir W c v hv hl hr ht
  have haged := h.aged (W := W) (scanTicks c.bitOrder .ir (.known T.tap) v).length
  rw [hticked]
  exact ⟨⟨haged.toRests.of_same rfl rfl rfl, haged.accessed, haged.latch, haged.retrieves⟩, rfl, rfl, hanswers⟩

/-! ## The address phase -/

/-- The ticks of a read's address phase that no failure stops, from a mirror state (R154). -/
def addressTicks (c : Config) (m : Mirror) (addr : Word) : List Tick :=
  scanTicks c.bitOrder .ir m c.irAxiRead ++
    (scanTicks c.bitOrder .dr (.known .runTestIdle) (rdPayload c addr) ++ idleTicks c.readWaitTcks)

theorem Target.length_drCapture (W : TargetWorld) (c : Config) (T : Target) :
    (T.drCapture W c).length = Target.drLen W c T.ir := by
  rw [Target.drCapture, length_wireOrder, List.length_map, List.length_range]

/-- After its address phase a read has latched the word, the wait counted (R72). -/
theorem Target.Reading.address {W : TargetWorld} {T : Target} {mem : List (Word × Word)}
    {accesses : List TargetAccess} {read : ReadPhase} (h : T.Reading mem accesses read) {c : Config} {addr : Word}
    (hv : c.valid = true) (hports : c.irAxiRead ≠ c.irAxiWrite) (ha : addr.toNat % 4 = 0)
    (hr : W.readable addr = true) (ht : T.tap = .testLogicReset ∨ T.tap = .runTestIdle) :
    (T.ticked W c (addressTicks c (.known T.tap) addr)).Reading mem (accesses ++ [.read addr])
        (.latched (W.readTicks - (1 + c.readWaitTcks)) (Target.load W mem addr)) ∧
      (T.ticked W c (addressTicks c (.known T.tap) addr)).tap = .runTestIdle ∧
      (T.ticked W c (addressTicks c (.known T.tap) addr)).ir = c.irAxiRead ∧
      (T.answers W c (addressTicks c (.known T.tap) addr)).length = c.irLen + c.axiRdDrLen := by
  obtain ⟨-, -, -, hir, -, hcode, -, -, hrl, -⟩ := Config.bounds_of_valid hv
  obtain ⟨hS, hStap, hSir, hSanswers⟩ :=
    h.scan_ir (W := W) (c := c) (by omega) hcode (drRole_irAxiRead_ne_foreign c) ht
  rw [addressTicks, Target.ticked_append, Target.answers_append]
  generalize T.ticked W c (scanTicks c.bitOrder .ir (.known T.tap) c.irAxiRead) = S at *
  have hlen : (rdPayload c addr).length = Target.drLen W c S.ir := by
    rw [hSir, drLen_irAxiRead W hports, length_rdPayload]
  obtain ⟨hdata, hcapture⟩ := S.scan_dr_startAccess W c (rdPayload c addr) (by rw [length_rdPayload]; omega) hlen
    (.inr hStap)
  have hrole : drRole c (S.updating W c (rdPayload c addr)).ir = .read := by
    rw [← drRole_irAxiRead hports, ← hSir]
    rfl
  rw [hStap, Target.startAccess_rdPayload W hv ha hrole (S.updating_vector W c _)] at hdata
  rw [hStap] at hcapture
  have hread := ((hS.updating (W := W) c (rdPayload c addr)).startRead hr).aged (W := W) (1 + c.readWaitTcks)
  have hirs : ((S.updating W c (rdPayload c addr)).startRead W addr).ir = c.irAxiRead := by
    rw [Target.startRead_of_readable W _ addr hr (S.updating_coreHalted W c _ |>.trans hS.halted)
      (hS.updating (W := W) c _).noWrites, ← hSir]
    rfl
  obtain ⟨hidle, hquiet⟩ := Target.idle_ticked W c c.readWaitTcks
    { ((S.updating W c (rdPayload c addr)).startRead W addr).age W with tap := .runTestIdle } rfl
  rw [Target.ticked_append, Target.answers_append, hdata, hidle, hquiet, hcapture, Target.aged_with_tap]
  rw [Target.aged_add] at hread
  refine ⟨⟨hread.toRests.of_same rfl rfl rfl, hread.accessed, hread.latch, hread.retrieves⟩, rfl, ?_, ?_⟩
  · obtain ⟨-, hirAged, -⟩ :=
      Target.aged_frame W c.readWaitTcks (((S.updating W c (rdPayload c addr)).startRead W addr).age W)
    exact hirAged.trans hirs
  · rw [List.length_append, List.append_nil, Target.length_drCapture, hSanswers, hcode]
    obtain ⟨-, hirAged, -⟩ := S.aged_frame W (gotoIdle (.known .runTestIdle) ++ walkIn .dr).length
    rw [hirAged, ← hlen, length_rdPayload]

/-! ## The retrieve -/

/-- The ticks that select the data instruction, where there is one (R172). -/
def dataTicks (c : Config) : List Tick :=
  match c.irAxiReadData with
  | none => []
  | some d => scanTicks c.bitOrder .ir (.known .runTestIdle) d

theorem dataTicks_of_none {c : Config} (h : c.irAxiReadData = none) : dataTicks c = [] := by
  rw [dataTicks, h]

theorem dataTicks_of_some {c : Config} {d : Bits} (h : c.irAxiReadData = some d) :
    dataTicks c = scanTicks c.bitOrder .ir (.known .runTestIdle) d := by
  rw [dataTicks, h]

/-- The data instruction gives the target six more ticks and its code's length, and then the register that returns
read data is selected. -/
theorem Target.Reading.selectData {W : TargetWorld} {T : Target} {mem : List (Word × Word)}
    {accesses : List TargetAccess} {read : ReadPhase} (h : T.Reading mem accesses read) {c : Config}
    (hv : c.valid = true) (hcodes : OwnCodes c) (ht : T.tap = .runTestIdle) (hir : T.ir = c.irAxiRead) :
    (T.ticked W c (dataTicks c)).Reading mem accesses
        (read.aged (if c.irAxiReadData = none then 0 else c.irLen + 6)) ∧
      (T.ticked W c (dataTicks c)).tap = .runTestIdle ∧
      (T.ticked W c (dataTicks c)).ir = retrieveIr c ∧
      (T.answers W c (dataTicks c)).length = if c.irAxiReadData = none then 0 else c.irLen := by
  obtain ⟨-, -, -, hlen, -, -, hcode, -⟩ := Config.bounds_of_valid hv
  cases hd : c.irAxiReadData with
  | none =>
    rw [dataTicks_of_none hd, if_pos rfl, if_pos rfl, ReadPhase.aged_zero, retrieveIr_of_none hd]
    exact ⟨h, ht, hir, rfl⟩
  | some d =>
    have hrole : drRole c d ≠ .foreign := by
      rw [← retrieveIr_of_some hd, hcodes.drRole_retrieveIr, hd, if_neg nofun]
      nofun
    obtain ⟨hreading, htap, hloaded, hanswers⟩ :=
      h.scan_ir (W := W) (c := c) (by rw [hcode d hd]; exact hlen) (hcode d hd) hrole (.inr ht)
    rw [ht] at hreading htap hloaded hanswers
    rw [dataTicks_of_some hd, if_neg nofun, if_neg nofun, retrieveIr_of_some hd]
    have hticks : (scanTicks c.bitOrder .ir (.known .runTestIdle) d).length = c.irLen + 6 := by
      rw [length_scanTicks, hcode d hd]
      rfl
    rw [hticks] at hreading
    exact ⟨hreading, htap, hloaded, hanswers.trans (hcode d hd)⟩

/-- The register that returns read data captures a word that is ready, in its field (R72). -/
theorem rdWord_drCapture {W : TargetWorld} {c : Config} {T : Target} {w : Word} (hv : c.valid = true)
    (hcodes : OwnCodes c) (hir : T.ir = retrieveIr c) (hready : T.read.ready = some w) :
    rdWord c (wireOrder c.bitOrder (T.drCapture W c)) = w := by
  obtain ⟨-, -, -, -, -, -, -, -, -, -, -, -, -, hfield⟩ := Config.bounds_of_valid hv
  refine wordAt_eq_of_bit fun i hi => ?_
  have hlo : c.axiRdDataLsb + i < c.axiRdDrLen := by omega
  have hin : c.axiRdDataLsb + i < c.axiRdDataLsb + 32 := by omega
  rw [Target.drCapture, wireOrder_wireOrder, Bits.bit_map_range, hir, hcodes.drLen_retrieveIr, hready]
  simp [hlo, hin, readsBack_retrieveIr]

/-- The retrieve scan brings the word out, once the target has it, and reads again where the port's own register
returns it (R72, R172). -/
theorem Target.Reading.retrieve {W : TargetWorld} {T : Target} {mem : List (Word × Word)}
    {accesses : List TargetAccess} {k : Nat} {w : Word} (h : T.Reading mem accesses (.latched k w)) (hk : k ≤ 3)
    {c : Config} {addr : Word} (hv : c.valid = true) (hcodes : OwnCodes c) (ha : addr.toNat % 4 = 0)
    (hr : W.readable addr = true) (ht : T.tap = .runTestIdle) (hir : T.ir = retrieveIr c) :
    (T.answers W c (scanTicks c.bitOrder .dr (.known .runTestIdle) (rdPayload c addr))).length = c.axiRdDrLen ∧
      rdWord c (wireOrder c.bitOrder
        (T.answers W c (scanTicks c.bitOrder .dr (.known .runTestIdle) (rdPayload c addr)))) = w ∧
      (T.ticked W c (scanTicks c.bitOrder .dr (.known .runTestIdle) (rdPayload c addr))).accesses =
        accesses ++ if c.irAxiReadData = none then [.read addr] else [] := by
  obtain ⟨-, -, -, -, -, -, -, -, hrl, -⟩ := Config.bounds_of_valid hv
  have hlen : (rdPayload c addr).length = Target.drLen W c T.ir := by
    rw [hir, hcodes.drLen_retrieveIr, length_rdPayload]
  obtain ⟨hticked, hanswers⟩ := T.scan_dr_startAccess W c (rdPayload c addr) (by rw [length_rdPayload]; omega) hlen
    (.inr ht)
  rw [ht] at hticked hanswers
  obtain ⟨-, hirAged, -⟩ := T.aged_frame W (gotoIdle (.known .runTestIdle) ++ walkIn .dr).length
  have hready : (T.aged W (gotoIdle (.known .runTestIdle) ++ walkIn .dr).length).read.ready = some w := by
    have hover : k - 3 = 0 := by omega
    have hwait : (gotoIdle (.known .runTestIdle) ++ walkIn .dr).length = 3 := rfl
    rw [(h.aged _).latch, hwait, ReadPhase.aged, hover]
    rfl
  rw [hticked, hanswers]
  refine ⟨?_, rdWord_drCapture hv hcodes (hirAged.trans hir) hready, ?_⟩
  · rw [Target.length_drCapture, hirAged, hir, hcodes.drLen_retrieveIr]
  · have hupdating := h.updating (W := W) c (rdPayload c addr)
    have hrole : drRole c (T.updating W c (rdPayload c addr)).ir = if c.irAxiReadData = none then .read else .readData := by
      rw [← hcodes.drRole_retrieveIr, ← hir]
      rfl
    rw [Target.age_accesses]
    split_ifs at hrole ⊢
    · rw [Target.startAccess_rdPayload W hv ha hrole (T.updating_vector W c _)]
      exact (hupdating.startRead hr).accessed
    · rw [Target.startAccess, hrole, List.append_nil]
      simp only [hupdating.retrieves, if_true]
      exact hupdating.accessed

/-! ## The whole read -/

/-- The ticks of a read that no failure stops, up to its retrieve scan. -/
def selectTicks (c : Config) (m : Mirror) (addr : Word) : List Tick := addressTicks c m addr ++ dataTicks c

/-- The number of bits that a read samples before its retrieve scan. -/
def selectReads (c : Config) : Nat := c.irLen + c.axiRdDrLen + if c.irAxiReadData = none then 0 else c.irLen

/-- What the target makes of a read's ticks (R72, R73). -/
theorem Target.Reading.ticked_read {W : TargetWorld} {T : Target} {mem : List (Word × Word)}
    {accesses : List TargetAccess} {read : ReadPhase} (h : T.Reading mem accesses read) {c : Config} {addr : Word}
    (hv : c.valid = true) (hcodes : OwnCodes c) (ha : addr.toNat % 4 = 0) (hr : W.readable addr = true)
    (ht : T.tap = .testLogicReset ∨ T.tap = .runTestIdle)
    (hticks : W.readTicks ≤ 1 + c.readWaitTcks + (if c.irAxiReadData = none then 0 else c.irLen + 6) + 3) :
    ∃ first last : Bits,
      T.answers W c (selectTicks c (.known T.tap) addr ++
        scanTicks c.bitOrder .dr (.known .runTestIdle) (rdPayload c addr)) = first ++ last ∧
      first.length = selectReads c ∧ last.length = c.axiRdDrLen ∧
      rdWord c (wireOrder c.bitOrder last) = Target.load W mem addr ∧
      (T.ticked W c (selectTicks c (.known T.tap) addr ++
        scanTicks c.bitOrder .dr (.known .runTestIdle) (rdPayload c addr))).accesses =
        accesses ++ (.read addr :: if c.irAxiReadData = none then [.read addr] else []) := by
  obtain ⟨hA, hAtap, hAir, hAlen⟩ := h.address hv hcodes.ports ha hr ht
  obtain ⟨hD, hDtap, hDir, hDlen⟩ := hA.selectData (W := W) hv hcodes hAtap hAir
  obtain ⟨hlen, hword, haccesses⟩ := hD.retrieve (by omega) hv hcodes ha hr hDtap hDir
  refine ⟨_, _, Target.answers_append W c _ _ T, ?_, ?_, ?_, ?_⟩
  · rw [selectTicks, Target.answers_append, List.length_append, hAlen, hDlen, selectReads]
  · rw [selectTicks, Target.ticked_append]
    exact hlen
  · rw [selectTicks, Target.ticked_append]
    exact hword
  · rw [Target.ticked_append, selectTicks, Target.ticked_append, haccesses, List.append_assoc]
    rfl

/-- The answers of the pin layer that are the target's are what the block captures, in the order of the silicon
(R58, R116). -/
theorem captured_of_answers {s : State} {first last : Bits}
    (h : first ++ last = (List.range (first ++ last).length).map fun k => s.tdoAt (k + 1)) :
    captured s (first.length + 1) last.length = wireOrder s.cfg.bitOrder last := by
  refine List.ext_getElem (by rw [length_captured, length_wireOrder]) fun j hj _ => ?_
  rw [length_captured] at hj
  have hindex : shiftIndex s.cfg.bitOrder last.length j < last.length := shiftIndex_lt _ hj
  have hpos : first.length + shiftIndex s.cfg.bitOrder last.length j < (first ++ last).length := by
    rw [List.length_append]
    omega
  have hanswer : (first ++ last)[first.length + shiftIndex s.cfg.bitOrder last.length j] =
      s.tdoAt (first.length + shiftIndex s.cfg.bitOrder last.length j + 1) := by
    rw [List.getElem_of_eq h hpos]
    simp
  rw [getElem_wireOrder, List.getD_eq_getElem _ _ hindex]
  rw [List.getElem_append_right (Nat.le_add_right _ _)] at hanswer
  simp only [Nat.add_sub_cancel_left] at hanswer
  rw [hanswer]
  simp [captured, Nat.add_right_comm]

/-- An AXI_READ on hardware that answers `OK` has driven the ticks of its scans, all of them, and answers the word of
the retrieve capture (R170). -/
theorem State.hwRead_leaves {s : State} {addr : Word} (hv : s.cfg.valid = true) (hm : s.IdleTap)
    (hok : (s.hwRead addr).AnsweredOk) :
    (s.hwRead addr).resp = some
        { status := .ok, data := .word (rdWord s.cfg (captured s (selectReads s.cfg + 1) s.cfg.axiRdDrLen)) } ∧
      (s.hwRead addr).trace = s.trace ++ okEvents (ticksPrims (selectTicks s.cfg s.tap addr ++
        scanTicks s.cfg.bitOrder .dr (.known .runTestIdle) (rdPayload s.cfg addr))) := by
  have hscans := State.hwRead_of_answeredOk hok
  rw [hscans] at hok ⊢
  rcases readScans_cases addr s.begin hv hm with ⟨-, -, h⟩ | ⟨-, h⟩ | ⟨_, -, -, -, h⟩ | ⟨r', h⟩ <;> rw [h] at hok ⊢
  · rw [Drive.finish_going, selectTicks, addressTicks, selectReads]
    simp only [ticksPrims_append, List.append_assoc]
    cases hd : s.cfg.irAxiReadData with
    | none =>
      rw [State.begin_readBack_st_of_none addr hv hd, dataTicks_of_none hd]
      simp only [Spec.afterScan, Spec.scanPrims, List.append_assoc, length_rdPayload]
      exact ⟨rfl, rfl⟩
    | some d =>
      rw [State.begin_readBack_st_of_some addr hv hd, dataTicks_of_some hd]
      have hreads : s.cfg.irLen + s.cfg.axiRdDrLen + s.cfg.irLen = 2 * s.cfg.irLen + s.cfg.axiRdDrLen := by omega
      simp only [Spec.afterScan, Spec.scanPrims, List.append_assoc, length_rdPayload, reduceCtorEq, if_false, hreads]
      exact ⟨rfl, rfl⟩
  · exact absurd hok (State.not_answeredOk_respond (by decide))
  · exact absurd hok (State.not_answeredOk_respond (by decide))
  · exact absurd hok (State.not_answeredOk_respond (by decide))

/-- Settles O57: the retrieve scan captures the word that the address phase has latched. -/
theorem hardwareReadReturnsTheTargetWord : Obligations.HardwareReadReturnsTheTargetWord := by
  intro W s t T addr w hv hb hs htap hports hdata hhalted hbacked hfree hwrites ha h hdrives hresp hticks
  have hTtap : T.tap = .testLogicReset ∨ T.tap = .runTestIdle := by simpa [State.IdleTap, htap] using hs.idleTap
  have hr : W.readable addr = true := by
    rw [TargetWorld.readable, TargetWorld.writable, aligned_iff.mpr ha, hbacked, hfree]
    rfl
  have hreading : (T.begun t).Reading T.mem T.accesses T.read :=
    ⟨⟨hhalted, hwrites, rfl⟩, rfl, rfl, by rw [Target.begun, State.readAnswered, hresp]⟩
  obtain ⟨first, last, hanswers, hfirst, hlast, hword, haccesses⟩ :=
    hreading.ticked_read hv ⟨hports, hdata⟩ ha hr hTtap hticks
  rw [exec_axiRead_hw hb] at h
  cases h
  obtain ⟨hanswered, htrace⟩ := State.hwRead_leaves hv hs.idleTap (addr := addr) (by rw [State.AnsweredOk, hresp]; rfl)
  rw [htap] at htrace
  have hreaction := Target.reaction_of_ticks (W := W) (T := T) htrace
  refine ⟨?_, ?_⟩
  · have hdrawn : first ++ last = (List.range (first ++ last).length).map fun k => s.tdoAt (k + 1) := by
      rw [Target.drives, hreaction] at hdrives
      rw [← hanswers]
      exact hdrives
    rw [hresp, ← hfirst, ← hlast, captured_of_answers hdrawn, hword] at hanswered
    cases hanswered
    rfl
  · rw [Target.after, hreaction]
    refine haccesses.trans ?_
    split_ifs <;> rfl

/-- Settles O58: the write's word is in the target's memory when the read starts. -/
theorem hardwareReadsTheLastWrite : Obligations.HardwareReadsTheLastWrite := by
  intro W s t u T addr word w hv hb hs htap hports hdata hhalted hbacked hfree hwrites ha hwt hrt h hresp hp hok h'
    hdrives hresp'
  obtain ⟨hTtap, hidle, hclaimed, -, hmem⟩ := Target.after_write W hv hb hs.idleTap htap hports ha h
    (by rw [State.AnsweredOk, hresp]; rfl)
  have hrests := hmem hhalted hbacked hwrites hwt
  obtain ⟨hcfg, -⟩ := exec_frame h
  obtain ⟨hsession, -⟩ := hs
  have hlive : t.LiveSession := ⟨hclaimed.trans hsession, .inr hidle, hp, hok⟩
  obtain ⟨hw, -⟩ := hardwareReadReturnsTheTargetWord W t u (T.after W s t) addr w (by rw [hcfg]; exact hv)
    (by rw [hcfg]; exact hb) hlive (by rw [hidle, hTtap]) (by rw [hcfg]; exact hports) (by rw [hcfg]; exact hdata)
    hrests.halted hbacked hfree hrests.noWrites ha h' hdrives hresp' (by rw [hcfg]; omega)
  rw [hw, hrests.holds]
  exact if_pos rfl

end Sys2Proof.Machine
end

section
/-!
PROOFS: the target after a pin failure on hardware (spec/43_host_sequences.md R185, spec/70_reset_and_hazards.md
R250).
-/
namespace Sys2Proof.Machine

/-! ## The events of a command that a pin failure has ended -/

/-- Under `HW` a command answers `IO_ERROR` only by a failed primitive, which is its last (R206). -/
theorem exec_failed_trace {i : Instr} {s t : State} (hb : s.cfg.backend = .hw) (h : exec i s = .next t)
    (hresp : t.resp = some { status := .ioError, data := .none }) :
    ∃ ps p, t.trace = s.trace ++ (okEvents ps ++ [{ prim := p, ok := false }]) := by
  cases exec_ends h with
  | released => cases hresp
  | illegal => cases hresp
  | refused _ st hst => rcases hst with rfl | rfl <;> cases hresp
  | outOfRange _ hemul => rw [hb] at hemul; cases hemul
  | bufferRead => cases hresp
  | bufferWritten => cases hresp
  | driven _ d data _ hsound =>
    rcases hsound.finish_cases data with ⟨r, rfl, hfin⟩ | ⟨r, rfl, hfin⟩ | ⟨r, rfl, hfin⟩
    · rw [hfin] at hresp
      cases hresp
    · obtain ⟨-, ps, -, -, ⟨-, -, -, p, htrace⟩ | ⟨he, -⟩⟩ := hsound
      · exact ⟨ps, p, by rw [hfin, ← List.append_assoc]; exact htrace⟩
      · cases he
    · rw [hfin] at hresp
      cases hresp

/-! ## The target's reaction, event by event -/

/-- An event is nothing to the target, or disturbs it, or is a tick. -/
theorem Target.react_cons (W : TargetWorld) (c : Config) (e : PinEvent) (rest : List PinEvent) (a b : Bool)
    (T : Target) : ∃ a' b' T', (T.react W c (e :: rest) a b).1 = (T'.react W c rest a' b').1 ∧
      (T' = T ∨ (∃ ab, T' = { T.disturb W with aborted := ab }) ∨ ∃ tms tdi, T' = T.tick W c tms tdi) := by
  obtain ⟨prim, ok⟩ := e
  cases ok with
  | false => exact ⟨_, _, _, rfl, .inr (.inl ⟨true, rfl⟩)⟩
  | true =>
    cases prim with
    | set line level => cases line <;> exact ⟨_, _, T, rfl, .inl rfl⟩
    | readTdo => exact ⟨_, _, T, rfl, .inl rfl⟩
    | toggle => exact ⟨_, _, _, rfl, .inr (.inr ⟨a, b, rfl⟩)⟩
    | releaseLine line => exact ⟨_, _, _, rfl, .inr (.inl ⟨(T.disturb W).aborted, rfl⟩)⟩

/-- What each event keeps, counted down with the events to come, holds at the end. -/
theorem Target.react_of_invariant {W : TargetWorld} {c : Config} {P : Nat → Target → Prop}
    (hsame : ∀ n T, P (n + 1) T → P n T) (hdisturb : ∀ n T ab, P (n + 1) T → P n { T.disturb W with aborted := ab })
    (htick : ∀ n T tms tdi, P (n + 1) T → P n (T.tick W c tms tdi)) (events : List PinEvent) (a b : Bool)
    {T : Target} (h : P events.length T) : P 0 (T.react W c events a b).1 := by
  induction events generalizing T a b with
  | nil => exact h
  | cons e rest ih =>
    obtain ⟨a', b', T', hreact, rfl | ⟨ab, rfl⟩ | ⟨tms, tdi, rfl⟩⟩ := Target.react_cons W c e rest a b T <;> rw [hreact]
    · exact ih a' b' (hsame _ _ h)
    · exact ih a' b' (hdisturb _ _ ab h)
    · exact ih a' b' (htick _ _ tms tdi h)

/-- A failed primitive, the last one, disturbs what the others have left (R206). -/
theorem Target.react_failed (W : TargetWorld) (c : Config) (es : List PinEvent) (p : PinPrim) (a b : Bool)
    (T : Target) : (T.react W c (es ++ [{ prim := p, ok := false }]) a b).1 =
      { (T.react W c es a b).1.disturb W with aborted := true } := by
  induction es generalizing T a b with
  | nil => rfl
  | cons e rest ih =>
    obtain ⟨prim, ok⟩ := e
    cases ok with
    | false => exact ih a b _
    | true =>
      cases prim with
      | set line level => cases line <;> exact ih _ _ _
      | readTdo => exact ih a b _
      | toggle => exact ih a b _
      | releaseLine line => exact ih a b _

/-! ## A world whose open effects only store -/

/-- A behaviour of what the contract leaves open: every open effect makes the same stores by the same accesses, and
a disturbed TAP stands in Test-Logic-Reset. -/
def storingWorld (content : Word → Word) (stores : List (Word × Word)) (accesses : List TargetAccess)
    (writeTicks : Nat) : TargetWorld where
  capture := fun _ _ => false
  content := content
  backed := fun _ => true
  sideEffectFree := fun _ => true
  drLen := fun _ => 1
  resetIr := []
  readTicks := 0
  writeTicks := writeTicks
  effect := fun _ =>
    { accesses := accesses
      stores := stores
      pending := []
      latch := none
      drOut := []
      word := 0
      vector := []
      residue := { tap := .testLogicReset, ir := [], shift := [], shifted := 0 } }

/-- In such a world nothing but a write of the rules comes in flight, and while these need time, memory changes by
the open stores alone. -/
structure Target.Yields (stores : List (Word × Word)) (writeTicks : Nat) (T T' : Target) : Prop where
  core : T'.coreHalted = T.coreHalted
  flight : ∀ p ∈ T'.writes, p ∈ T.writes ∨ (p.1 = writeTicks ∧ writeTicks ≠ 0)
  grows : writeTicks ≠ 0 → ∃ l, (∀ x ∈ l, x ∈ stores) ∧ T'.mem = l ++ T.mem

section
variable {content : Word → Word} {stores : List (Word × Word)} {accesses : List TargetAccess} {n : Nat}

theorem Target.Yields.of_same {T T' : Target} (hcore : T'.coreHalted = T.coreHalted) (hwrites : T'.writes = T.writes)
    (hmem : T'.mem = T.mem) : T.Yields stores n T' :=
  ⟨hcore, fun _ hp => .inl (by rwa [← hwrites]), fun _ => ⟨[], nofun, hmem⟩⟩

theorem Target.Yields.trans {T T' T'' : Target} (h : T.Yields stores n T') (h' : T'.Yields stores n T'') :
    T.Yields stores n T'' := by
  refine ⟨h'.core.trans h.core, fun p hp => (h'.flight p hp).elim (h.flight p) .inr, fun hn => ?_⟩
  obtain ⟨l, hl, hmem⟩ := h.grows hn
  obtain ⟨l', hl', hmem'⟩ := h'.grows hn
  exact ⟨l' ++ l, List.forall_mem_append.2 ⟨hl', hl⟩, by rw [hmem', hmem, List.append_assoc]⟩

/-- An open effect stores its words, and the fields beside memory do not count. -/
theorem Target.Yields.of_stores {T T' : Target} (hcore : T'.coreHalted = T.coreHalted)
    (hwrites : T'.writes = T.writes ++ []) (hmem : T'.mem = stores ++ T.mem) : T.Yields stores n T' :=
  ⟨hcore, fun p hp => .inl (by rwa [hwrites, List.append_nil] at hp), fun _ => ⟨stores, fun _ hx => hx, hmem⟩⟩

theorem Target.havoc_yields (T : Target) : T.Yields stores n (T.havoc (storingWorld content stores accesses n)) :=
  .of_stores rfl rfl rfl

theorem Target.write_yields (T : Target) (addr word : Word) :
    T.Yields stores n (T.write (storingWorld content stores accesses n) addr word) := by
  unfold Target.write
  split
  · refine ⟨rfl, fun p hp => ?_, fun hn => ⟨[], nofun, if_neg hn⟩⟩
    by_cases hn : n = 0
    · exact .inl (by simpa [storingWorld, hn] using hp)
    · simp only [storingWorld, hn, if_false, List.mem_append, List.mem_singleton] at hp
      exact hp.imp_right fun h => ⟨by rw [h], hn⟩
  · exact .of_stores rfl rfl rfl

theorem Target.startRead_yields (T : Target) (addr : Word) :
    T.Yields stores n (T.startRead (storingWorld content stores accesses n) addr) := by
  unfold Target.startRead
  split
  · exact .of_same rfl rfl rfl
  · split
    · exact .of_same rfl rfl rfl
    · exact .of_stores rfl rfl rfl

theorem Target.startAccess_yields (c : Config) (T : Target) :
    T.Yields stores n (T.startAccess (storingWorld content stores accesses n) c) := by
  unfold Target.startAccess
  split
  · exact T.write_yields _ _
  · exact T.startRead_yields _
  · split
    · exact .of_same rfl rfl rfl
    · exact T.havoc_yields
  · exact T.havoc_yields
  · exact T.havoc_yields

theorem Target.settle_yields (k : Nat) (T : Target) :
    T.Yields stores n (T.settle (storingWorld content stores accesses n) k) := by
  unfold Target.settle
  split <;> exact .of_same rfl rfl rfl

theorem Target.updateDr_yields (c : Config) (T : Target) :
    T.Yields stores n (T.updateDr (storingWorld content stores accesses n) c) := by
  rw [Target.updateDr]
  refine .trans ?_ (Target.startAccess_yields c _)
  exact (T.settle_yields _).trans (.of_same rfl rfl rfl)

theorem Target.updateIr_yields (c : Config) (T : Target) :
    T.Yields stores n (T.updateIr (storingWorld content stores accesses n) c) := by
  unfold Target.updateIr
  split
  · exact .of_stores rfl rfl rfl
  · exact .of_same rfl rfl rfl

theorem Target.resetTap_yields (c : Config) (T : Target) :
    T.Yields stores n (T.resetTap (storingWorld content stores accesses n) c) := by
  unfold Target.resetTap
  split
  · exact .of_stores rfl rfl rfl
  · exact .of_same rfl rfl rfl

theorem Target.enter_yields (c : Config) (T : Target) :
    T.Yields stores n (T.enter (storingWorld content stores accesses n) c) := by
  unfold Target.enter
  split
  · exact T.updateIr_yields c
  · exact T.updateDr_yields c
  · exact T.resetTap_yields c
  · exact .of_same rfl rfl rfl

theorem Target.leave_yields (c : Config) (T : Target) (tdi : Bool) :
    T.Yields stores n (T.leave (storingWorld content stores accesses n) c tdi) := by
  unfold Target.leave
  split <;> exact .of_same rfl rfl rfl

/-- A tick is time, and what the TAP's states do. -/
theorem Target.age_yields_tick (c : Config) (T : Target) (tms tdi : Bool) :
    (T.age (storingWorld content stores accesses n)).Yields stores n
      (T.tick (storingWorld content stores accesses n) c tms tdi) := by
  rw [Target.tick]
  refine .trans ?_ (Target.enter_yields c _)
  exact (Target.leave_yields c _ tdi).trans (.of_same rfl rfl rfl)

end

/-! ## A failed write -/

/-- While no write in flight has the ticks to complete, the words added to memory are open stores. -/
def Target.GrownFrom (mem stores : List (Word × Word)) (writeTicks n : Nat) (T : Target) : Prop :=
  n < writeTicks ∧ (∀ p ∈ T.writes, n < p.1) ∧ ∃ l, (∀ x ∈ l, x ∈ stores) ∧ T.mem = l ++ mem

section
variable {content : Word → Word} {mem stores : List (Word × Word)} {accesses : List TargetAccess} {k n : Nat}

theorem Target.GrownFrom.step {T T' : Target} (h : T.GrownFrom mem stores k n) (hy : T.Yields stores k T') :
    T'.GrownFrom mem stores k n := by
  obtain ⟨hlt, hslow, l, hl, hmem⟩ := h
  obtain ⟨l', hl', hmem'⟩ := hy.grows (by omega)
  refine ⟨hlt, fun p hp => ?_, l' ++ l, List.forall_mem_append.2 ⟨hl', hl⟩, by rw [hmem', hmem, List.append_assoc]⟩
  rcases hy.flight p hp with hold | ⟨hnew, -⟩
  · exact hslow p hold
  · rw [hnew]
    exact hlt

/-- Time completes no write that needs more of it; a running core stores. -/
theorem Target.GrownFrom.age {T : Target} (h : T.GrownFrom mem stores k (n + 1)) :
    (T.age (storingWorld content stores accesses k)).GrownFrom mem stores k n := by
  obtain ⟨hlt, hslow, l, hl, hmem⟩ := h
  have hnone : T.writes.filter (fun p => p.1 ≤ 1) = [] :=
    List.filter_eq_nil_iff.mpr fun p hp => by have := hslow p hp; simp; omega
  refine ⟨by omega, fun p hp => ?_, (if T.coreHalted then [] else stores) ++ l, ?_, ?_⟩
  · obtain ⟨q, hq, rfl⟩ := List.mem_map.mp hp
    have := hslow q (List.mem_of_mem_filter hq)
    exact Nat.lt_sub_of_add_lt this
  · refine List.forall_mem_append.2 ⟨fun x hx => ?_, hl⟩
    split_ifs at hx
    · cases hx
    · exact hx
  · simp [Target.age, hnone, hmem, storingWorld]

/-- After events that are fewer than the ticks of a write, memory has changed by open stores alone. -/
theorem Target.react_grownFrom (c : Config) {events : List PinEvent} (a b : Bool) {T : Target}
    (hk : events.length < k) (hwrites : T.writes = []) :
    ((T.react (storingWorld content stores accesses k) c events a b).1).GrownFrom T.mem stores k 0 := by
  have hless {m : Nat} {S : Target} (h : S.GrownFrom T.mem stores k (m + 1)) : S.GrownFrom T.mem stores k m := by
    obtain ⟨hlt, hslow, hmem⟩ := h
    exact ⟨Nat.lt_of_succ_lt hlt, fun p hp => Nat.lt_of_succ_lt (hslow p hp), hmem⟩
  refine Target.react_of_invariant (P := fun m S => S.GrownFrom T.mem stores k m) (fun _ _ => hless)
    (fun m S ab h => ?_) (fun m S tms tdi h => ?_) events a b ?_
  · exact (hless h).step (.of_stores rfl rfl rfl)
  · exact h.age.step (Target.age_yields_tick c S tms tdi)
  · exact ⟨hk, by rw [hwrites]; nofun, [], nofun, rfl⟩

/-- Stores of one word at one address change that word, and only if there are any. -/
theorem Target.load_append_of_stores (W : TargetWorld) {addr word : Word} {l : List (Word × Word)}
    (hl : ∀ x ∈ l, x = (addr, word)) (a : Word) :
    Target.load W (l ++ mem) a = if a = addr ∧ l ≠ [] then word else Target.load W mem a := by
  induction l with
  | nil => simp
  | cons x rest ih =>
    obtain rfl := hl x List.mem_cons_self
    replace ih := ih fun y hy => hl y (List.mem_cons_of_mem _ hy)
    rw [List.cons_append, Target.load, ih]
    by_cases ha : a = addr
    · simp [ha]
    · simp [ha, Ne.symm ha]

end

/-- Settles O59: where the open effects store the word, the failed primitive has, and where they store nothing,
memory is as it was, for a write that needs more ticks than the command gave it. -/
theorem aFailedHardwareWriteMayLeaveTheOldOrTheNewWord :
    Obligations.AFailedHardwareWriteMayLeaveTheOldOrTheNewWord := by
  intro s t T addr word content _ hb hwrites h hresp new
  obtain ⟨ps, p, htrace⟩ := exec_failed_trace hb h hresp
  set stores : List (Word × Word) := if new then [(addr, word)] else [] with hstores
  set W := storingWorld content stores [] ((okEvents ps).length + 1) with hW
  refine ⟨W, rfl, rfl, fun a => ?_⟩
  obtain ⟨-, -, l, hl, hmem⟩ : ((T.begun t).react W s.cfg (okEvents ps) false false).1.GrownFrom T.mem stores _ 0 :=
    Target.react_grownFrom s.cfg false false (Nat.lt_succ_self _) hwrites
  have hafter : (T.after W s t).mem = (stores ++ l) ++ T.mem := by
    rw [Target.after, Target.reaction_eq, newEvents_of_append htrace, Target.react_failed, List.append_assoc, ← hmem]
    rfl
  have hword : ∀ x ∈ stores ++ l, x = (addr, word) := by
    have hmine : ∀ x ∈ stores, x = (addr, word) := by
      intro x hx
      rw [hstores] at hx
      split_ifs at hx
      · exact List.mem_singleton.mp hx
      · cases hx
    exact List.forall_mem_append.2 ⟨hmine, fun x hx => hmine x (hl x hx)⟩
  rw [hafter, Target.load_append_of_stores W hword]
  cases new with
  | true => simp [hstores]
  | false =>
    have hnone : l = [] := List.eq_nil_iff_forall_not_mem.mpr fun x hx => by simpa [hstores] using hl x hx
    simp [hstores, hnone]

/-! ## The first reset after a pin failure -/

section
variable {content : Word → Word} {stores : List (Word × Word)} {accesses : List TargetAccess}

/-- The core halted, and nothing in flight. -/
def Target.Quiet (T : Target) : Prop := T.coreHalted = true ∧ T.writes = []

theorem Target.Quiet.step {T T' : Target} (h : T.Quiet) (hy : T.Yields stores 0 T') : T'.Quiet := by
  obtain ⟨hhalted, hwrites⟩ := h
  refine ⟨hy.core.trans hhalted, List.eq_nil_iff_forall_not_mem.mpr fun p hp => ?_⟩
  rcases hy.flight p hp with hold | ⟨-, hne⟩
  · rw [hwrites] at hold
    cases hold
  · exact hne rfl

theorem Target.Quiet.age {W : TargetWorld} {T : Target} (h : T.Quiet) : (T.age W).Quiet ∧ (T.age W).mem = T.mem := by
  obtain ⟨hhalted, hwrites⟩ := h
  simp [Target.Quiet, Target.age, hhalted, hwrites]

/-- Where writes complete at once nothing comes in flight. -/
theorem Target.react_quiet (c : Config) (events : List PinEvent) (a b : Bool) {T : Target} (h : T.Quiet) :
    (T.react (storingWorld content stores accesses 0) c events a b).1.Quiet := by
  refine Target.react_of_invariant (P := fun _ S => S.Quiet) (fun _ _ h => h) (fun _ S ab h => ?_)
    (fun _ S tms tdi h => ?_) events a b h
  · exact h.step (stores := stores) (.of_stores rfl rfl rfl)
  · obtain ⟨haged, -⟩ := h.age
    exact haged.step (Target.age_yields_tick c S tms tdi)

/-- In Test-Logic-Reset a tick with TMS = 1 is time and the reset. -/
theorem Target.tick_testLogicReset (W : TargetWorld) (c : Config) {T : Target} (ht : T.tap = .testLogicReset)
    (tdi : Bool) : T.tick W c true tdi = (T.age W).resetTap W c := by
  obtain ⟨⟩ := T
  cases ht
  rfl

/-- Ticks that stay in Test-Logic-Reset change nothing more in memory. -/
theorem Target.ticked_of_reset (W : TargetWorld) (c : Config) (k : Nat) {T : Target} (h : T.Quiet)
    (ht : T.tap = .testLogicReset) (hir : T.ir = W.resetIr) (hab : T.aborted = false) :
    (T.ticked W c (List.replicate k (Tick.plain true))).mem = T.mem ∧
      (T.ticked W c (List.replicate k (Tick.plain true))).accesses = T.accesses := by
  induction k generalizing T with
  | zero => exact ⟨rfl, rfl⟩
  | succ k ih =>
    obtain ⟨haged, hmem⟩ := h.age (W := W)
    have htick : T.tick W c true false = { T.age W with ir := W.resetIr } := by
      rw [Target.tick_testLogicReset W c ht, Target.resetTap]
      simp [hir, hab]
    obtain ⟨hmem', haccesses'⟩ := ih (T := T.tick W c true false) (by rw [htick]; exact haged)
      (by rw [htick]; exact ht) (by rw [htick]) (by rw [htick]; exact hab)
    refine ⟨hmem'.trans (by rw [htick]; exact hmem), haccesses'.trans (by rw [htick]; rfl)⟩

/-- The first Test-Logic-Reset after a pin failure takes one open effect, and the rest of the reset sequence none
(R250). -/
theorem Target.ticked_of_aborted (c : Config) {k : Nat} (hk : 1 ≤ k) {T : Target} (h : T.Quiet)
    (ht : T.tap = .testLogicReset) (hab : T.aborted = true) :
    (T.ticked (storingWorld content stores accesses 0) c (List.replicate k (Tick.plain true))).mem = stores ++ T.mem ∧
      (T.ticked (storingWorld content stores accesses 0) c (List.replicate k (Tick.plain true))).accesses =
        T.accesses ++ accesses := by
  obtain ⟨k, rfl⟩ : ∃ m, k = m + 1 := ⟨k - 1, by omega⟩
  set W := storingWorld content stores accesses 0
  obtain ⟨haged, hmem⟩ := h.age (W := W)
  have htick : T.tick W c true false = { (T.age W).havoc W with ir := W.resetIr, aborted := false } := by
    rw [Target.tick_testLogicReset W c ht, Target.resetTap]
    simp [hab]
  obtain ⟨hmem', haccesses'⟩ := Target.ticked_of_reset W c k (T := T.tick W c true false)
    (by rw [htick]; exact haged.step (stores := stores) (.of_stores rfl rfl rfl)) (by rw [htick]; exact ht)
    (by rw [htick]) (by rw [htick])
  refine ⟨hmem'.trans ?_, haccesses'.trans ?_⟩ <;> rw [htick]
  · rw [← hmem]
    rfl
  · rfl

end

/-- Settles O60: the open effects make just these stores by just these accesses, and the reset takes one. -/
theorem resetAfterAPinFailureMayWriteAnyWord : Obligations.ResetAfterAPinFailureMayWriteAnyWord := by
  intro i s t u T stores accesses hv hb hhalted hwrites h hresp hp hok h'
  obtain ⟨hcfg, -⟩ := exec_frame h
  have hv' : t.cfg.valid = true := by rw [hcfg]; exact hv
  obtain ⟨hreset, -⟩ := Config.bounds_of_valid hv'
  obtain ⟨-, -, hleft⟩ := tapReset_leaves hv' hp hok h'
  simp only [Prod.mk.injEq] at hleft
  obtain ⟨-, -, -, -, -, -, -, hresp', -⟩ := hleft
  refine ⟨hresp', storingWorld (fun _ => 0) stores accesses 0, ?_⟩
  set W := storingWorld (fun _ => 0) stores accesses 0
  obtain ⟨ps, p, htrace⟩ := exec_failed_trace hb h hresp
  have hafter : T.after W s t =
      { ((T.begun t).react W s.cfg (okEvents ps) false false).1.disturb W with aborted := true } := by
    rw [Target.after, Target.reaction_eq, newEvents_of_append htrace, Target.react_failed]
  have hquiet : ((T.after W s t).begun u).Quiet := by
    have hbefore : ((T.begun t).react W s.cfg (okEvents ps) false false).1.Quiet :=
      Target.react_quiet s.cfg _ false false ⟨hhalted, hwrites⟩
    rw [hafter]
    exact hbefore.step (stores := stores) (.of_stores rfl rfl rfl)
  have hticked : (T.after W s t).after W t u =
      ((T.after W s t).begun u).ticked W t.cfg (List.replicate t.cfg.resetTcks (Tick.plain true)) := by
    cases h'
    rw [Target.after, Target.reaction_eq, State.newEvents_tapReset hv' hp hok, Target.react_claim, Target.react_ticks]
    rfl
  rw [hticked]
  exact Target.ticked_of_aborted t.cfg (by omega) hquiet (by rw [hafter]; rfl) (by rw [hafter]; rfl)

end Sys2Proof.Machine
end
